-- ==== Sys2Proof/Word.lean ====
section
/-! DEFINITION. The words of the core: port words, bytes, dibits, binary32 bit patterns and complex samples. -/

namespace Sys2Proof

/-- A word of the command and response ports, and every `u32` of the spec (rules R82, R100). -/
abbrev Word := BitVec 32

/-- A `u8`: an id, a status code, a byte of a byte buffer. -/
abbrev Byte := BitVec 8

/-- An IEEE 754 binary32 value as its bit pattern: sign in bit 31, exponent in bits 30:23,
fraction in bits 22:0 (rules R12, R83). -/
abbrev F32 := BitVec 32

/-- A dibit, the integer `2*b1 + b0` of rule R251. -/
abbrev Dibit := BitVec 2

/-- A complex sample: in-phase and quadrature parts (rule R16). -/
structure Cplx where
  re : F32
  im : F32
  deriving DecidableEq, Repr

/-- The complex value `(+0.0, +0.0)`. -/
def Cplx.zero : Cplx := ⟨0#32, 0#32⟩

end Sys2Proof
end

