-- ==== Sys2Proof/Config.lean ====
section
/-! DEFINITION. The parameter record `P` of rule R8: the numeric parameters as plain data with the
spec's defaults, and the three function parameters as opaque constants. -/

namespace Sys2Proof.Config

/-- One binary32 value for each bandwidth preset 0..3 (rule R8, `LOOP_ALPHA[p]`, `LOOP_BETA[p]`). -/
structure PerPreset where
  p0 : F32
  p1 : F32
  p2 : F32
  p3 : F32
  deriving DecidableEq, Repr

/-- The designer's numeric inputs `PASS_HZ`, `STOP_HZ`, `ATTEN_DB` (rule R8). Only DESIGN reads them. -/
structure DesignBand where
  passHz : Word
  stopHz : Word
  attenDb : Word
  deriving DecidableEq, Repr

/-- The parameter record `P` of rule R8, less the function parameters DESIGN, COS32 and SIN32 and the
unspecified WINDOW. It is constant for the life of a core. -/
structure Params where
  symbolRate : Word
  initialRate : Word
  bufBytes : Word
  band : DesignBand
  maxTaps : Word
  bwDefault : BitVec 2
  loopAlpha : PerPreset
  loopBeta : PerPreset
  maxOffsetHz : Word
  lockK : F32
  agcWindow : Word
  agcObj : F32
  agcMinEnv : F32
  powerDiv : Word
  kT : F32
  maxTapsExt : Word
  maxBufListeners : Word
  deriving DecidableEq, Repr

/-- The default values of rule R8, the gains as the bit patterns of rule R210. -/
def defaults : Params where
  symbolRate := 18000#32
  initialRate := 50000#32
  bufBytes := 300#32
  band := { passHz := 11250#32, stopHz := 13000#32, attenDb := 60#32 }
  maxTaps := 4096#32
  bwDefault := 1#2
  loopAlpha := { p0 := 0x3C000000#32, p1 := 0x3C800000#32, p2 := 0x3D000000#32, p3 := 0x3D800000#32 }
  loopBeta := { p0 := 0x38000000#32, p1 := 0x39000000#32, p2 := 0x3A000000#32, p3 := 0x3B000000#32 }
  maxOffsetHz := 5000#32
  lockK := 0x3C800000#32
  agcWindow := 32#32
  agcObj := 0x3F800000#32
  agcMinEnv := 0x39000000#32
  powerDiv := 10#32
  kT := 0x3D000000#32
  maxTapsExt := 6#32
  maxBufListeners := 8#32

/-- The designer input WINDOW, whose value and kind the spec leaves unspecified (rules R8, I5): a free
value that only the designer reads (assumption log 2). -/
opaque designWindow : Nat

/-- The filter designer behind DESIGN (rules R8, R151, I1): total and deterministic, nothing else
known; `none` is a design failure (assumption log 2). -/
opaque designer : DesignBand → Nat → Word → Option (List F32)

/-- COS32 away from the two zeros (rules R8, R201, I2): a free value for each argument
(assumption log 3). -/
opaque cosFree : F32 → F32

/-- SIN32 away from the two zeros (rules R8, R201, I2): a free value for each argument
(assumption log 3). -/
opaque sinFree : F32 → F32

end Sys2Proof.Config
end

