-- ==== Sys2Proof/Syntax.lean ====
section
/-! DEFINITION. The commands of the core (rules R102, R103, R105, R106), one constructor per opcode and
one for the illegal range. Reserved ARG bits are operands here, because a set reserved bit has an
architectural outcome (rule R109). -/

namespace Sys2Proof

/-- A command with its operands and its whole payload. -/
inductive Instr where
  /-- OP 0x00, rule R335; all 24 ARG bits are ignored. -/
  | nop (arg : BitVec 24)
  /-- OP 0x01, rule R140: block timestamp and the block's samples; L is their number. -/
  | receiveBlock (ts : BitVec 64) (samples : List Cplx)
  /-- OP 0x02, rule R320: reserved ARG bits 23:0 and the payload word. -/
  | setSampleRate (resv : BitVec 24) (rate : Word)
  /-- OP 0x03, rule R213: FCV as its 24 ARG bits. -/
  | freqCorrectionChange (fcv : BitVec 24)
  /-- OP 0x04, rule R212: reserved ARG bits 23:0. -/
  | resetLoop (resv : BitVec 24)
  /-- OP 0x05, rule R214: reserved ARG bits 23:2 and the preset P. -/
  | setBandwidth (resv : BitVec 22) (preset : BitVec 2)
  /-- OP 0x06, rule R215: reserved ARG bits 23:2 and the rotation code Q. -/
  | correctInversion (resv : BitVec 22) (rot : BitVec 2)
  /-- OP 0x07, rule R283: reserved ARG bits 23:8 and the tap id. -/
  | addConsumer (resv : BitVec 16) (id : Byte)
  /-- OP 0x08, rule R284: reserved ARG bits 23:8 and the tap id. -/
  | removeConsumer (resv : BitVec 16) (id : Byte)
  /-- OP 0x09, rule R296: reserved ARG bits 23:8 and the listener id. -/
  | addBufferListener (resv : BitVec 16) (id : Byte)
  /-- OP 0x0A, rule R297: reserved ARG bits 23:8 and the listener id. -/
  | removeBufferListener (resv : BitVec 16) (id : Byte)
  /-- OP 0x0B, rule R333: reserved ARG bits 23:9, EN and the listener id. -/
  | setEventListener (resv : BitVec 15) (en : BitVec 1) (id : Byte)
  /-- OP 0x0C, rule R334: reserved ARG bits 23:9, EN and the listener id. -/
  | setMessageListener (resv : BitVec 15) (en : BitVec 1) (id : Byte)
  /-- OP 0x0D, rule R294: reserved ARG bits 23:0. -/
  | flush (resv : BitVec 24)
  /-- OP 0x0E, rule R336: reserved ARG bits 23:8 and the register number N. -/
  | readReg (resv : BitVec 16) (num : Byte)
  /-- OP 0x0F, rule R337: reserved ARG bits 23:0. -/
  | clearStatus (resv : BitVec 24)
  /-- OP 0x10-0xFF, rule R108: the opcode as received and the ignored ARG bits. -/
  | illegal (op : Byte) (arg : BitVec 24)
  deriving DecidableEq, Repr

end Sys2Proof
end

