-- ==== Sys2Proof/Machine/State.lean ====
section
/-! DEFINITION. The state of the core: the record `S` of rules R30 to R49 grouped as the spec groups
it, the ports, and the values of rule R54 at reset. -/

namespace Sys2Proof.Machine

/-- Status codes 0x00 to 0x0A (rule R361); their numbers are `statusCode`. -/
inductive Status where
  | ok
  | illegalOpcode
  | badArg
  | emptyBlock
  | nonfinite
  | notConfigured
  | config
  | tableFull
  | duplicate
  | notFound
  | okTsRegress
  deriving DecidableEq, Repr

/-- The kinds of source event (rule R125): POWER is the only one. -/
inductive EventKind where
  | power
  deriving DecidableEq, Repr

/-- The output records of the trace (rules R16, R120 to R125). -/
inductive Record where
  | resp (op : Byte) (status : Byte)
  | data (word : Word)
  | tap (id : Byte) (dibit : Dibit)
  | framerIn (gen : Word) (dibit : Dibit) (time : BitVec 64)
  | buf (listener : Byte) (bytes : List Byte)
  | event (listener : Byte) (kind : EventKind) (value : F32)
  deriving DecidableEq, Repr

/-- An entry of the distributor's registry (rule R44). -/
inductive Consumer where
  | asm
  | framer
  | tap (id : Byte)
  deriving DecidableEq, Repr

/-- The kind of the next strobe (rule R42). -/
inductive StrobeKind where
  | mid
  | ontime
  deriving DecidableEq, Repr

/-- Configured state, sticky flags and last status (rules R33 to R35). -/
structure StatusState where
  valid : Bool
  cfgErr : Bool
  tsRegress : Bool
  cmdErr : Bool
  lastStatus : Byte
  deriving DecidableEq, Repr

/-- Rate-derived values (rule R36). -/
structure RateState where
  sampleRate : Word
  sps : F32
  half : F32
  quarter : F32
  deriving DecidableEq, Repr

/-- The filter pair (rule R37): coefficients, their number, and the delay lines, newest sample first. -/
structure FilterState where
  h : List F32
  ntaps : Word
  dI : List F32
  dQ : List F32
  deriving DecidableEq, Repr

/-- The filter cache (rule R38): rates strictly rising, each with its coefficient vector, and the
number of DESIGN calls. -/
structure CacheState where
  entries : List (Word × List F32)
  designCount : Word
  deriving DecidableEq, Repr

/-- The power monitor (rule R39). -/
structure PowerState where
  acc : F32
  cnt : Word
  win : Word
  last : F32
  deriving DecidableEq, Repr

/-- The gain control (rule R40). -/
structure AgcState where
  env : List F32
  widx : Word
  gainLast : F32
  deriving DecidableEq, Repr

/-- The Costas loop (rule R41). -/
structure LoopState where
  phi : F32
  omega : F32
  lock : F32
  bwCur : BitVec 2
  omegaMax : F32
  deriving DecidableEq, Repr

/-- The interpolating buffer and demodulator (rule R42). -/
structure TimingState where
  gPrev : Cplx
  tau : F32
  kind : StrobeKind
  mid : Cplx
  yPrev : Cplx
  deriving DecidableEq, Repr

/-- The distributor's registry and the framer generation (rules R44, R45). -/
structure RegistryState where
  consumers : List Consumer
  framerGen : Word
  deriving DecidableEq, Repr

/-- The byte-buffer assembler (rule R46). -/
structure AssemblerState where
  buf : List Byte
  fill : Word
  part : Byte
  pcnt : BitVec 2
  buffersCompleted : Word
  deriving DecidableEq, Repr

/-- The byte-buffer listeners and the two single listeners (rules R47, R48). -/
structure ListenerState where
  bufListeners : List Byte
  evtEn : Bool
  evtId : Byte
  msgEn : Bool
  msgId : Byte
  deriving DecidableEq, Repr

/-- What the host does with the reset line `rst_n` (rules R390, R394): high; low; or driven low while
the next command is in progress, after `words` of its words have been accepted and, once all are, after
`records` of its records are out (assumption log 7). -/
inductive ResetLine where
  | released
  | asserted
  | during (words records : Nat)
  deriving DecidableEq, Repr

/-- Whether ResetRelease (rule R391) still has to run before the first command. -/
inductive Phase where
  | boot
  | running
  deriving DecidableEq, Repr

/-- The whole machine: the parameters (assumption log 1), the ports (assumption logs 4 to 6), and the
fields of the spec's record `S` (rule R30). -/
structure State where
  params : Config.Params
  rst : ResetLine
  phase : Phase
  cmd : List Word
  trace : List Record
  flags : StatusState
  rate : RateState
  filter : FilterState
  cache : CacheState
  power : PowerState
  agc : AgcState
  loop : LoopState
  timing : TimingState
  dibitCount : Word
  registry : RegistryState
  asm : AssemblerState
  listeners : ListenerState
  currentTime : BitVec 64
  deriving DecidableEq, Repr

/-- Why the machine stops with a fault. No command raises one (rule R360). -/
inductive Fault where
  /-- Raised by the release of reset on a core whose parameters break rule R9, which the spec has
  checked at construction: there is no such core. Safe: the model stops where no core exists. -/
  | badParameters
  deriving DecidableEq, Repr

/-- Why the machine has no meaning for an instruction. Every instruction has one, so nothing raises it. -/
inductive Refusal where
  /-- An instruction the model has given no meaning yet. Safe: the model stops. -/
  | notModelled (mnemonic : String)
  deriving DecidableEq, Repr

/-- `S.framer_attached` (rule R45), derived from the registry. -/
def State.framerAttached (s : State) : Bool := decide (Consumer.framer ∈ s.registry.consumers)

/-- The state right after hardware reset of a core with parameters `P`, before ResetRelease: the first
column of rule R54, with nothing on the ports. -/
def State.resetWith (P : Config.Params) : State where
  params := P
  rst := .released
  phase := .boot
  cmd := []
  trace := []
  flags := { valid := false, cfgErr := false, tsRegress := false, cmdErr := false, lastStatus := 0x00#8 }
  rate := { sampleRate := 0#32, sps := 0#32, half := 0#32, quarter := 0#32 }
  filter := { h := [], ntaps := 0#32, dI := [], dQ := [] }
  cache := { entries := [], designCount := 0#32 }
  power := { acc := 0#32, cnt := 0#32, win := 0#32, last := 0#32 }
  agc := { env := List.replicate P.agcWindow.toNat 0#32, widx := 0#32, gainLast := 0x3F800000#32 }
  loop := { phi := 0#32, omega := 0#32, lock := 0#32, bwCur := P.bwDefault, omegaMax := 0#32 }
  timing := { gPrev := Cplx.zero, tau := 0#32, kind := .mid, mid := Cplx.zero, yPrev := Cplx.zero }
  dibitCount := 0#32
  registry := { consumers := [.asm], framerGen := 0#32 }
  asm := { buf := List.replicate P.bufBytes.toNat 0x00#8, fill := 0#32, part := 0x00#8, pcnt := 0#2,
           buffersCompleted := 0#32 }
  listeners := { bufListeners := [], evtEn := false, evtId := 0#8, msgEn := false, msgId := 0#8 }
  currentTime := 0#64

/-- The machine right after reset, with the default parameters of rule R8 (rules R54, R390). -/
def State.reset : State := State.resetWith Config.defaults

end Sys2Proof.Machine
end

