-- ==== Sys2Proof/Machine/Flags.lean ====
section
/-! DEFINITION. Status codes and the flag fields that registers show: the code table of rule R361, the
STATUS word of rule R51 and the packed register words of rule R52. -/

namespace Sys2Proof.Machine

/-- The status code table (rule R361). -/
def statusCode : Status → Byte
  | .ok => 0x00#8
  | .illegalOpcode => 0x01#8
  | .badArg => 0x02#8
  | .emptyBlock => 0x03#8
  | .nonfinite => 0x04#8
  | .notConfigured => 0x05#8
  | .config => 0x06#8
  | .tableFull => 0x07#8
  | .duplicate => 0x08#8
  | .notFound => 0x09#8
  | .okTsRegress => 0x0A#8

/-- The codes 0x01 to 0x09, with which a command is rejected (rules R360, R363). -/
def isErrorCode (c : Byte) : Bool := decide (0x01 ≤ c.toNat ∧ c.toNat ≤ 0x09)

/-- A flag as bit `k` of a register word. -/
def flagBit (b : Bool) (k : Nat) : Word := if b then 1#32 <<< k else 0#32

/-- The STATUS register (rule R51). -/
def statusWord (s : State) : Word :=
  flagBit s.flags.valid 0 ||| flagBit s.flags.cfgErr 1 ||| flagBit s.flags.tsRegress 2 |||
  flagBit s.flags.cmdErr 3 ||| flagBit s.framerAttached 4 |||
  flagBit (decide (s.listeners.bufListeners ≠ [])) 5 ||| flagBit s.listeners.evtEn 6 |||
  flagBit s.listeners.msgEn 7 ||| (s.flags.lastStatus.setWidth 32 <<< 8)

/-- LOOP_BW (rule R52): `S.bw_cur` in bits 1:0, BW_DEFAULT in bits 9:8. -/
def loopBwWord (s : State) : Word :=
  s.loop.bwCur.setWidth 32 ||| (s.params.bwDefault.setWidth 32 <<< 8)

/-- TIMING_KIND (rule R52): 0 when the next strobe is MID, 1 when it is ONTIME. -/
def timingKindWord (s : State) : Word :=
  match s.timing.kind with
  | .mid => 0#32
  | .ontime => 1#32

/-- ASM_FILL (rule R52): `S.fill` in bits 15:0, `S.pcnt` in bits 17:16, `S.part` in bits 31:24. -/
def asmFillWord (s : State) : Word :=
  s.asm.part ++ (0#6 ++ (s.asm.pcnt ++ s.asm.fill.setWidth 16))

/-- EVT_LISTENER and MSG_LISTENER (rule R52): enable in bit 8, id in bits 7:0. -/
def listenerWord (en : Bool) (id : Byte) : Word := flagBit en 8 ||| id.setWidth 32

end Sys2Proof.Machine
end

