-- ==== Sys2Proof/Machine/Float.lean ====
section
/-! DEFINITION. IEEE 754 binary32 arithmetic on bit patterns (rules R12, R13): each operation computes
the exact result as a rational number and rounds it once, to nearest, ties to even, with gradual
underflow. Every NaN result is the canonical one. The details of each operation are those of IEEE
754-2008 (rule G5, assumption log 15). -/

namespace Sys2Proof.Machine

/-- The canonical quiet NaN (rule R13). -/
def qNaN : F32 := 0x7FC00000#32

def posZero : F32 := 0x00000000#32
def negZero : F32 := 0x80000000#32
def fOne : F32 := 0x3F800000#32
def fNegOne : F32 := 0xBF800000#32
def fTwo : F32 := 0x40000000#32
def fFour : F32 := 0x40800000#32

/-- `PI_F`, `TWO_PI_F` and `HALF_PI_F` (rule R14). -/
def piF : F32 := 0x40490FDB#32
def twoPiF : F32 := 0x40C90FDB#32
def halfPiF : F32 := 0x3FC90FDB#32

/-- The sign bit. -/
def fSign (x : F32) : Bool := x.msb

/-- The bits below the sign, as a number: it rises with the magnitude. -/
def fMagBits (x : F32) : Nat := x.toNat % 2 ^ 31

/-- The biased exponent, bits 30:23. -/
def fExp (x : F32) : Nat := fMagBits x / 2 ^ 23

/-- The fraction, bits 22:0. -/
def fFrac (x : F32) : Nat := x.toNat % 2 ^ 23

def isNaN (x : F32) : Bool := decide (0x7F800000 < fMagBits x)
def isInf (x : F32) : Bool := decide (fMagBits x = 0x7F800000)
/-- Finite: the exponent bits are not all ones (rule R143). -/
def isFinite (x : F32) : Bool := decide (fMagBits x < 0x7F800000)
def isZero (x : F32) : Bool := decide (fMagBits x = 0)

/-- The magnitude of a finite value in units of 2^-149, the least subnormal: every finite binary32
value is a whole number of them. -/
def fMag (x : F32) : Nat :=
  if fExp x = 0 then fFrac x else (2 ^ 23 + fFrac x) * 2 ^ (fExp x - 1)

/-- A finite value in units of 2^-149. -/
def fScaled (x : F32) : Int := if fSign x then -(fMag x : Int) else (fMag x : Int)

/-- The magnitude bits of `num / den` units of 2^-149 rounded to nearest, ties to even; from the
overflow threshold up they are those of infinity. `k` is the exponent of the unit in the last place;
a significand that rounds up to 2^24 carries into the exponent by the same sum. -/
def roundBits (num den : Nat) : Nat :=
  let k := Nat.log2 (num / den) - 23
  let d := den * 2 ^ k
  let q := num / d
  let r := num % d
  let m := if d < 2 * r ∨ (2 * r = d ∧ q % 2 = 1) then q + 1 else q
  min (k * 2 ^ 23 + m) 0x7F800000

/-- Sign and magnitude bits together. -/
def fPack (neg : Bool) (bits : Nat) : F32 := BitVec.ofNat 32 (if neg then 2 ^ 31 + bits else bits)

/-- `num / den` units of 2^-149, rounded, with a sign. -/
def fRound (neg : Bool) (num den : Nat) : F32 := fPack neg (roundBits num den)

/-- `|x|`: the sign bit cleared (rule R12). -/
def fAbs (x : F32) : F32 := x &&& 0x7FFFFFFF#32

/-- Negation: the sign bit inverted. -/
def fNeg (x : F32) : F32 := x ^^^ 0x80000000#32

/-- `a + b`. An exact zero is +0.0 unless both operands are negative (zeros). -/
def fAdd (a b : F32) : F32 :=
  if isNaN a || isNaN b then qNaN
  else if isInf a then (if isInf b && fSign a != fSign b then qNaN else a)
  else if isInf b then b
  else
    let n := fScaled a + fScaled b
    if n = 0 then (if fSign a && fSign b then negZero else posZero)
    else fRound (decide (n < 0)) n.natAbs 1

/-- `a - b`. -/
def fSub (a b : F32) : F32 := fAdd a (fNeg b)

/-- `a * b`. -/
def fMul (a b : F32) : F32 :=
  let neg := fSign a != fSign b
  if isNaN a || isNaN b then qNaN
  else if isInf a then (if isZero b then qNaN else fPack neg 0x7F800000)
  else if isInf b then (if isZero a then qNaN else fPack neg 0x7F800000)
  else fRound neg (fMag a * fMag b) (2 ^ 149)

/-- `a / b`. -/
def fDiv (a b : F32) : F32 :=
  let neg := fSign a != fSign b
  if isNaN a || isNaN b then qNaN
  else if isInf a then (if isInf b then qNaN else fPack neg 0x7F800000)
  else if isInf b then fPack neg 0
  else if isZero b then (if isZero a then qNaN else fPack neg 0x7F800000)
  else fRound neg (fMag a * 2 ^ 149) (fMag b)

/-- The floor of the square root of `n`, for `n < 4 ^ fuel`, one binary digit at a time. -/
def natSqrt : Nat → Nat → Nat
  | 0, _ => 0
  | fuel + 1, n =>
    if n = 0 then 0
    else
      let r := 2 * natSqrt fuel (n / 4)
      if (r + 1) * (r + 1) ≤ n then r + 1 else r

/-- The correctly rounded square root. The floor of the exact root, doubled, with a last bit that says
whether the root is exact, rounds as the root itself does. -/
def fSqrt (x : F32) : F32 :=
  if isNaN x then qNaN
  else if isZero x then x
  else if fSign x then qNaN
  else if isInf x then x
  else
    let n := fMag x * 2 ^ 149
    let r := natSqrt 256 n
    fRound false (2 * r + (if r * r = n then 0 else 1)) 2

/-- `f32(n)`: exact for n ≤ 2^24 (rule R12); above, rounded to nearest (assumption log 9). -/
def fOfNat (n : Nat) : F32 := fRound false (n * 2 ^ 149) 1

/-- The order of the extended reals on bit patterns that are not NaN: the two zeros are equal. -/
def fKey (x : F32) : Int := if fSign x then -(fMagBits x : Int) else (fMagBits x : Int)

/-- `a < b`, false when an operand is NaN (rule R12). -/
def fLt (a b : F32) : Bool := !isNaN a && !isNaN b && decide (fKey a < fKey b)

/-- `a <= b`, false when an operand is NaN (rule R12). -/
def fLe (a b : F32) : Bool := !isNaN a && !isNaN b && decide (fKey a ≤ fKey b)

/-! The helper functions of rule R14. -/

def fClamp (x lo hi : F32) : F32 := if fLt hi x then hi else if fLt x lo then lo else x

def nan0 (x : F32) : F32 := if isNaN x then posZero else x

def fSgn (x : F32) : F32 := if fLt x posZero then fNegOne else fOne

def fWrap (x : F32) : F32 :=
  if fLe piF x then fSub x twoPiF
  else if fLt x (fNeg piF) then fAdd x twoPiF
  else x

def fMax (a b : F32) : F32 := if fLt a b then b else a

end Sys2Proof.Machine
end

