-- ==== Sys2Proof/Machine/Ops.lean ====
section
/-! DEFINITION. The operations every command shares: emitting a record, ending a command (rule R363),
rejecting one (rules R11, R364), and the check of the parameters (rule R9). The core takes no
exceptions (rules R369, R370): `reject` is what the spec has in their place. -/

namespace Sys2Proof.Machine

/-- `emit R`: append a record to the trace (rules R11, R16). Emission never waits (rule R285). -/
def emit (r : Record) (s : State) : State := { s with trace := s.trace ++ [r] }

/-- The opcode of READ_REG, the one command that leaves `S.last_status` alone (rule R363). -/
def opReadReg : Byte := 0x0E#8

/-- `Finish(op, status)` (rule R363). -/
def finish (op : Byte) (st : Status) (s : State) : State :=
  emit (.resp op (statusCode st))
    { s with
      flags := { s.flags with
        cmdErr := s.flags.cmdErr || isErrorCode (statusCode st)
        lastStatus := if op = opReadReg then s.flags.lastStatus else statusCode st } }

/-- A command that ends with its effects done (rule R363). -/
def complete (op : Byte) (st : Status) (s : State) : Host.Outcome State Fault Refusal :=
  .next (finish op st s)

/-- `raise Reject(code)` (rules R11, R363, R364): no effect of the command but its completion
bookkeeping. -/
def reject (op : Byte) (st : Status) (s : State) : Host.Outcome State Fault Refusal :=
  .next (finish op st s)

/-- A command whose reserved ARG bits must be 0 (rule R109): rejected with ERR_BAD_ARG when one is set,
else carried out. -/
def whenReservedZero {n : Nat} (op : Byte) (resv : BitVec n) (s : State)
    (k : Host.Outcome State Fault Refusal) : Host.Outcome State Fault Refusal :=
  if resv = 0 then k else reject op .badArg s

/-- The value for preset `p` (rule R8). -/
def perPreset (g : Config.PerPreset) (p : BitVec 2) : F32 :=
  match p.toNat with
  | 0 => g.p0
  | 1 => g.p1
  | 2 => g.p2
  | _ => g.p3

/-- Finite and in [0, 1) (rule R9). -/
def gainOk (x : F32) : Bool := isFinite x && fLe posZero x && fLt x fOne

/-- Finite and in [0, 1] (rule R9). -/
def weightOk (x : F32) : Bool := isFinite x && fLe posZero x && fLe x fOne

/-- Finite and positive (rule R9). -/
def positiveOk (x : F32) : Bool := isFinite x && fLt posZero x

/-- `g` holds for every preset. -/
def allPresets (f : F32 → Bool) (g : Config.PerPreset) : Bool := f g.p0 && f g.p1 && f g.p2 && f g.p3

/-- The constraints of rule R9 on the parameters. -/
def paramsOk (P : Config.Params) : Bool :=
  decide (1 ≤ P.symbolRate.toNat) &&
  decide (1 ≤ P.bufBytes.toNat ∧ P.bufBytes.toNat ≤ 65535) &&
  decide (1 ≤ P.agcWindow.toNat ∧ P.agcWindow.toNat ≤ 65535) &&
  decide (1 ≤ P.powerDiv.toNat) &&
  allPresets gainOk P.loopAlpha && allPresets gainOk P.loopBeta &&
  weightOk P.kT && weightOk P.lockK &&
  positiveOk P.agcObj && positiveOk P.agcMinEnv &&
  decide (1 ≤ P.maxTaps.toNat) && decide (1 ≤ P.maxOffsetHz.toNat)

/-- Run a per-sample stage over a block in index order (rule R145): the stage's state after the last
sample and one output per sample. -/
def runStage {σ α β : Type} (f : σ → α → σ × β) : σ → List α → σ × List β
  | st, [] => (st, [])
  | st, x :: xs =>
    let (st', y) := f st x
    let (st'', ys) := runStage f st' xs
    (st'', y :: ys)

end Sys2Proof.Machine
end

