-- ==== Sys2Proof/Machine/Filter.lean ====
section
/-! DEFINITION. The baseband filter pair and its coefficient cache (rules R146 to R154). -/

namespace Sys2Proof.Machine

/-- A sample enters a delay line of `n` samples: newest at index 0, the oldest drops out (rule R146). -/
def delayPush (n : Nat) (x : F32) (d : List F32) : List F32 := x :: d.take (n - 1)

/-- One rail's output: `h[k] * d[k]` for k = 0 .. n-1, added up in rising k from +0.0 (rules R146, R147). -/
def firSum (n : Nat) (h d : List F32) : F32 :=
  ((List.zip h d).take n).foldl (fun y hd => fAdd y (fMul hd.1 hd.2)) posZero

/-- FirSample (rule R146): both rails take the same coefficients (rule R149). -/
def firSample (fs : FilterState) (x : Cplx) : FilterState × Cplx :=
  let n := fs.ntaps.toNat
  let dI := delayPush n x.re fs.dI
  let dQ := delayPush n x.im fs.dQ
  ({ fs with dI := dI, dQ := dQ }, ⟨firSum n fs.h dI, firSum n fs.h dQ⟩)

/-- FirBlock (rule R146): as many outputs as inputs (rule R148). -/
def firBlock (fs : FilterState) (xs : List Cplx) : FilterState × List Cplx := runStage firSample fs xs

/-- InstallFilter (rule R153): the delay lines are cleared even when the coefficients do not change. -/
def installFilter (v : List F32) : FilterState where
  h := v
  ntaps := BitVec.ofNat 32 v.length
  dI := List.replicate v.length posZero
  dQ := List.replicate v.length posZero

/-- DESIGN (rule R151): the opaque designer with the designer inputs of the parameters. -/
def design (P : Config.Params) (rate : Word) : Option (List F32) :=
  Config.designer P.band Config.designWindow rate

/-- A design result the cache takes (rule R150): not empty, at most MAX_TAPS long, all finite. -/
def designOk (P : Config.Params) (v : List F32) : Bool :=
  decide (v ≠ []) && decide (v.length ≤ P.maxTaps.toNat) && v.all isFinite

/-- The coefficient vector cached for a rate (rule R150). -/
def cacheFind (rate : Word) : List (Word × List F32) → Option (List F32)
  | [] => none
  | (r, v) :: es => if r = rate then some v else cacheFind rate es

/-- `S.cache[rate] <- v` on entries with rising rates (rule R150). -/
def cacheInsert (rate : Word) (v : List F32) : List (Word × List F32) → List (Word × List F32)
  | [] => [(rate, v)]
  | (r, w) :: es =>
    if rate < r then (rate, v) :: (r, w) :: es
    else if r = rate then (rate, v) :: es
    else (r, w) :: cacheInsert rate v es

/-- FilterFor (rule R150): the cached vector, or the result of one DESIGN call, which is counted
whether or not it succeeds and stored only if it does. -/
def filterFor (P : Config.Params) (rate : Word) (c : CacheState) : CacheState × Option (List F32) :=
  match cacheFind rate c.entries with
  | some v => (c, some v)
  | none =>
    let c := { c with designCount := c.designCount + 1 }
    match design P rate with
    | none => (c, none)
    | some v =>
      if designOk P v then ({ c with entries := cacheInsert rate v c.entries }, some v)
      else (c, none)

end Sys2Proof.Machine
end

