-- ==== Sys2Proof/WellFormed.lean ====
section
/-! DEFINITION. Which terms of `Instr` stand for a command the encoding can spell (rules R102, R108, R142). -/

namespace Sys2Proof

/-- A block's length fits ARG (rule R142), and an illegal command's opcode is in 0x10..0xFF (rule R108).
Every other operand fits its field by its type. -/
def Instr.wf : Instr → Bool
  | .nop _ => true
  | .receiveBlock _ samples => decide (samples.length < 2 ^ 24)
  | .setSampleRate _ _ => true
  | .freqCorrectionChange _ => true
  | .resetLoop _ => true
  | .setBandwidth _ _ => true
  | .correctInversion _ _ => true
  | .addConsumer _ _ => true
  | .removeConsumer _ _ => true
  | .addBufferListener _ _ => true
  | .removeBufferListener _ _ => true
  | .setEventListener _ _ _ => true
  | .setMessageListener _ _ _ => true
  | .flush _ => true
  | .readReg _ _ => true
  | .clearStatus _ => true
  | .illegal op _ => decide (0x10 ≤ op.toNat)

end Sys2Proof
end

