-- ==== Sys2Proof/Decode.lean ====
section
/-! DEFINITION. The command decoder and, after it, the encoder (rules R100 to R111). The decoder reads
from the words offered on the command port; it never looks at the core's state. -/

namespace Sys2Proof

/-- Why no command can be read yet. Neither is an error of the core: it waits for more words
(rules R32, R104). -/
inductive DecodeError where
  /-- No command word has arrived. -/
  | noCommandWord
  /-- The command word has arrived, but not all the payload words rule R104 gives it. -/
  | payloadIncomplete
  deriving DecidableEq, Repr

/-- OP, bits 31:24 of a command word (rule R100). -/
def headerOp (w : Word) : Byte := w.extractLsb' 24 8

/-- ARG, bits 23:0 of a command word (rule R100). -/
def headerArg (w : Word) : BitVec 24 := w.extractLsb' 0 24

/-- How many payload words follow a command word (rules R104, R111). -/
def payloadWords (w : Word) : Nat :=
  match (headerOp w).toNat with
  | 1 => 2 + 2 * (headerArg w).toNat
  | 2 => 1
  | _ => 0

/-- Read `n` samples, I before Q (rule R105), and what follows them. -/
def takeSamples : Nat → List Word → Option (List Cplx × List Word)
  | 0, ws => some ([], ws)
  | n + 1, i :: q :: ws =>
    match takeSamples n ws with
    | some (xs, rest) => some (⟨i, q⟩ :: xs, rest)
    | none => none
  | _ + 1, _ => none

/-- The payload of RECEIVE_BLOCK: timestamp low word, high word, then L samples (rule R105). -/
def decodeBlock (len : BitVec 24) : List Word → Except DecodeError (Instr × List Word)
  | lo :: hi :: ws =>
    match takeSamples len.toNat ws with
    | some (xs, rest) => .ok (.receiveBlock (hi ++ lo) xs, rest)
    | none => .error .payloadIncomplete
  | _ => .error .payloadIncomplete

/-- The payload of SET_SAMPLE_RATE: the rate (rule R106). -/
def decodeRate (arg : BitVec 24) : List Word → Except DecodeError (Instr × List Word)
  | rate :: rest => .ok (.setSampleRate arg rate, rest)
  | [] => .error .payloadIncomplete

/-- Read one command and what follows it. Every 32-bit word is the command word of exactly one command
(rule R101); only missing words keep a command from being read. -/
def decode : List Word → Except DecodeError (Instr × List Word)
  | [] => .error .noCommandWord
  | w :: ws =>
    let arg := headerArg w
    match (headerOp w).toNat with
    | 0x00 => .ok (.nop arg, ws)
    | 0x01 => decodeBlock arg ws
    | 0x02 => decodeRate arg ws
    | 0x03 => .ok (.freqCorrectionChange arg, ws)
    | 0x04 => .ok (.resetLoop arg, ws)
    | 0x05 => .ok (.setBandwidth (arg.extractLsb' 2 22) (arg.extractLsb' 0 2), ws)
    | 0x06 => .ok (.correctInversion (arg.extractLsb' 2 22) (arg.extractLsb' 0 2), ws)
    | 0x07 => .ok (.addConsumer (arg.extractLsb' 8 16) (arg.extractLsb' 0 8), ws)
    | 0x08 => .ok (.removeConsumer (arg.extractLsb' 8 16) (arg.extractLsb' 0 8), ws)
    | 0x09 => .ok (.addBufferListener (arg.extractLsb' 8 16) (arg.extractLsb' 0 8), ws)
    | 0x0A => .ok (.removeBufferListener (arg.extractLsb' 8 16) (arg.extractLsb' 0 8), ws)
    | 0x0B => .ok (.setEventListener (arg.extractLsb' 9 15) (arg.extractLsb' 8 1) (arg.extractLsb' 0 8), ws)
    | 0x0C => .ok (.setMessageListener (arg.extractLsb' 9 15) (arg.extractLsb' 8 1) (arg.extractLsb' 0 8), ws)
    | 0x0D => .ok (.flush arg, ws)
    | 0x0E => .ok (.readReg (arg.extractLsb' 8 16) (arg.extractLsb' 0 8), ws)
    | 0x0F => .ok (.clearStatus arg, ws)
    | _ => .ok (.illegal (headerOp w) arg, ws)

/-- The opcode of a command (rule R102). -/
def opcode : Instr → Byte
  | .nop _ => 0x00#8
  | .receiveBlock _ _ => 0x01#8
  | .setSampleRate _ _ => 0x02#8
  | .freqCorrectionChange _ => 0x03#8
  | .resetLoop _ => 0x04#8
  | .setBandwidth _ _ => 0x05#8
  | .correctInversion _ _ => 0x06#8
  | .addConsumer _ _ => 0x07#8
  | .removeConsumer _ _ => 0x08#8
  | .addBufferListener _ _ => 0x09#8
  | .removeBufferListener _ _ => 0x0A#8
  | .setEventListener _ _ _ => 0x0B#8
  | .setMessageListener _ _ _ => 0x0C#8
  | .flush _ => 0x0D#8
  | .readReg _ _ => 0x0E#8
  | .clearStatus _ => 0x0F#8
  | .illegal op _ => op

/-- The ARG field of a command (rule R103). -/
def encodeArg : Instr → BitVec 24
  | .nop arg => arg
  | .receiveBlock _ xs => BitVec.ofNat 24 xs.length
  | .setSampleRate resv _ => resv
  | .freqCorrectionChange fcv => fcv
  | .resetLoop resv => resv
  | .setBandwidth resv p => resv ++ p
  | .correctInversion resv q => resv ++ q
  | .addConsumer resv id => resv ++ id
  | .removeConsumer resv id => resv ++ id
  | .addBufferListener resv id => resv ++ id
  | .removeBufferListener resv id => resv ++ id
  | .setEventListener resv en id => resv ++ en ++ id
  | .setMessageListener resv en id => resv ++ en ++ id
  | .flush resv => resv
  | .readReg resv n => resv ++ n
  | .clearStatus resv => resv
  | .illegal _ arg => arg

/-- The sample words of a block, I then Q for each sample (rule R105). -/
def encodeSamples : List Cplx → List Word
  | [] => []
  | x :: xs => x.re :: x.im :: encodeSamples xs

/-- The payload words of a command (rules R104, R105, R106). -/
def encodePayload : Instr → List Word
  | .nop _ => []
  | .receiveBlock ts xs => ts.extractLsb' 0 32 :: ts.extractLsb' 32 32 :: encodeSamples xs
  | .setSampleRate _ rate => [rate]
  | .freqCorrectionChange _ => []
  | .resetLoop _ => []
  | .setBandwidth _ _ => []
  | .correctInversion _ _ => []
  | .addConsumer _ _ => []
  | .removeConsumer _ _ => []
  | .addBufferListener _ _ => []
  | .removeBufferListener _ _ => []
  | .setEventListener _ _ _ => []
  | .setMessageListener _ _ _ => []
  | .flush _ => []
  | .readReg _ _ => []
  | .clearStatus _ => []
  | .illegal _ _ => []

/-- The command word of a command: OP above ARG (rule R100). -/
def encodeHeader (i : Instr) : Word := opcode i ++ encodeArg i

/-- The words of a command in stream order. -/
def encode (i : Instr) : List Word := encodeHeader i :: encodePayload i

/-- The words of the command whose bits are `w`, the first word in the low bits: the command word and
the payload words it calls for, every bit from `nbits` up being 0. -/
def tableWords (nbits w : Nat) : List Word :=
  let v := w % 2 ^ nbits
  (List.range (1 + payloadWords (BitVec.ofNat 32 v))).map fun k => BitVec.ofNat 32 (v >>> (32 * k))

/-- The instruction the decoder reads from the instruction whose bits are `w`. -/
def decodeTableWord (nbits w : Nat) : Option Instr :=
  match decode (tableWords nbits w) with
  | .ok (i, _) => some i
  | .error _ => none

end Sys2Proof
end

