-- ==== Sys2Proof/Machine/Operands.lean ====
section
/-! DEFINITION. The values of the operand forms (rules R103, R105, R107, R215): ARG fields are the
unsigned integers their bits spell, but FCV, which is signed. -/

namespace Sys2Proof.Machine

/-- FCV = `sext_32(ARG[23:0])` (rules R103, R213). No command computes with it. -/
def fcvValue (fcv : BitVec 24) : Word := fcv.signExtend 32

/-- EN = 1 (rules R333, R334). -/
def enBit (en : BitVec 1) : Bool := decide (en = 1#1)

/-- The rotation per symbol of CORRECT_INVERSION's code Q (rule R215): 1 is +90°, 2 is 180°, 3 is −90°;
0 is no rotation code. -/
def rotationAngle (q : BitVec 2) : Option F32 :=
  match q.toNat with
  | 0 => none
  | 1 => some halfPiF
  | 2 => some piF
  | _ => some (fNeg halfPiF)

/-- A sample is finite when both its words are (rule R143). -/
def sampleFinite (x : Cplx) : Bool := isFinite x.re && isFinite x.im

end Sys2Proof.Machine
end

