-- ==== Sys2Proof/Machine/Costas.lean ====
section
/-! DEFINITION. The Costas loop (rules R200 to R216): the NCO, the phase detector, the loop filter,
the loop's reset, and its four commands. -/

namespace Sys2Proof.Machine

/-- COS32 (rules R8, R201): +1.0 at both zeros, elsewhere the opaque parameter. -/
def cos32 (x : F32) : F32 := if isZero x then fOne else Config.cosFree x

/-- SIN32 (rules R8, R201): a zero at itself, elsewhere the opaque parameter. -/
def sin32 (x : F32) : F32 := if isZero x then x else Config.sinFree x

/-- Derotate (rule R201): `a · e^(−j·phi)`. -/
def derotate (phi : F32) (a : Cplx) : Cplx :=
  let c := cos32 phi
  let s := sin32 phi
  ⟨fAdd (fMul a.re c) (fMul a.im s), fSub (fMul a.im c) (fMul a.re s)⟩

/-- The NCO's advance after a sample (rule R202). -/
def ncoAdvance (l : LoopState) : LoopState := { l with phi := fWrap (fAdd l.phi l.omega) }

/-- PhaseError (rule R204). -/
def phaseError (d : Cplx) : F32 :=
  let num := fSub (fAbs d.im) (fAbs d.re)
  let den := fAdd (fAbs d.re) (fAbs d.im)
  nan0 (fMul (fMul (fSgn d.re) (fSgn d.im)) (fDiv num den))

/-- The clamp of the frequency estimate to ±`S.omega_max` (rules R205, R215). -/
def clampOmega (l : LoopState) (x : F32) : F32 := fClamp x (fNeg l.omegaMax) l.omegaMax

/-- LoopUpdate (rule R205). -/
def loopUpdate (P : Config.Params) (e : F32) (l : LoopState) : LoopState :=
  { l with
    omega := clampOmega l (fAdd l.omega (fMul (perPreset P.loopBeta l.bwCur) e))
    phi := fWrap (fAdd l.phi (fMul (perPreset P.loopAlpha l.bwCur) e))
    lock := fAdd l.lock (fMul P.lockK (fSub (fAbs e) l.lock)) }

/-- LoopReset (rule R211): `S.omega_max` is kept. -/
def loopReset (P : Config.Params) (l : LoopState) : LoopState :=
  { l with phi := posZero, omega := posZero, lock := posZero, bwCur := P.bwDefault }

/-- The frequency bound of a rate (rule R208). -/
def omegaMaxFor (P : Config.Params) (rate : Word) : F32 :=
  fDiv (fMul twoPiF (fOfNat P.maxOffsetHz.toNat)) (fOfNat rate.toNat)

/-- The frequency step of CORRECT_INVERSION for the angle `r` (rule R215). -/
def inversionStep (sps r : F32) (l : LoopState) : LoopState :=
  { l with omega := clampOmega l (fAdd l.omega (fDiv r sps)) }

/-- RESET_LOOP (rule R212). -/
def execResetLoop (resv : BitVec 24) (s : State) : Host.Outcome State Fault Refusal :=
  whenReservedZero 0x04#8 resv s
    (complete 0x04#8 .ok { s with loop := loopReset s.params s.loop })

/-- FREQ_CORRECTION_CHANGE (rule R213): FCV is carried and ignored, and no ARG value is reserved. -/
def execFreqCorrectionChange (_fcv : BitVec 24) (s : State) : Host.Outcome State Fault Refusal :=
  complete 0x03#8 .ok { s with loop := loopReset s.params s.loop }

/-- SET_BANDWIDTH (rule R214). -/
def execSetBandwidth (resv : BitVec 22) (preset : BitVec 2) (s : State) :
    Host.Outcome State Fault Refusal :=
  whenReservedZero 0x05#8 resv s
    (complete 0x05#8 .ok { s with loop := { s.loop with bwCur := preset } })

/-- CORRECT_INVERSION (rule R215): Q = 0 is a bad argument too. -/
def execCorrectInversion (resv : BitVec 22) (rot : BitVec 2) (s : State) :
    Host.Outcome State Fault Refusal :=
  whenReservedZero 0x06#8 resv s
    (match rotationAngle rot with
     | none => reject 0x06#8 .badArg s
     | some r => complete 0x06#8 .ok { s with loop := inversionStep s.rate.sps r s.loop })

end Sys2Proof.Machine
end

