-- ==== Sys2Proof/Machine/Distributor.lean ====
section
/-! DEFINITION. The symbol distributor and the byte-buffer assembler (rules R280 to R298), with the
registry commands and FLUSH. -/

namespace Sys2Proof.Machine

/-- DeliverBuffer (rule R293): one BUF record per listener, in registration order. -/
def deliverBuffer (bytes : List Byte) (s : State) : State :=
  s.listeners.bufListeners.foldl (fun t id => emit (.buf id bytes) t) s

/-- The end of PackDibit when its buffer may have filled (rule R290). -/
def finishBuffer (s : State) : State :=
  if s.asm.fill = s.params.bufBytes then
    let s := deliverBuffer (s.asm.buf.take s.params.bufBytes.toNat) s
    { s with asm := { s.asm with buffersCompleted := s.asm.buffersCompleted + 1, fill := 0#32 } }
  else s

/-- A completed byte goes to the buffer (rule R290). -/
def storeByte (byte : Byte) (s : State) : State :=
  finishBuffer
    { s with asm := { s.asm with
        buf := s.asm.buf.set s.asm.fill.toNat byte
        fill := s.asm.fill + 1
        part := 0x00#8
        pcnt := 0#2 } }

/-- PackDibit (rule R290): the first dibit of a byte ends in bits 7:6 (rules R84, R291). -/
def packDibit (dibit : Dibit) (s : State) : State :=
  let part := s.asm.part * 4 + dibit.setWidth 8
  if s.asm.pcnt.toNat + 1 = 4 then storeByte part s
  else { s with asm := { s.asm with part := part, pcnt := s.asm.pcnt + 1 } }

/-- One delivery of a dibit (rules R280, R340). -/
def deliver (dibit : Dibit) (s : State) : Consumer → State
  | .asm => packDibit dibit s
  | .framer => emit (.framerIn s.registry.framerGen dibit s.currentTime) s
  | .tap id => emit (.tap id dibit) s

/-- Distribute (rule R280): every registered consumer in list order. -/
def distribute (dibit : Dibit) (s : State) : State := s.registry.consumers.foldl (deliver dibit) s

/-- Whether an entry of the registry is a tap. -/
def isTap : Consumer → Bool
  | .asm => false
  | .framer => false
  | .tap _ => true

/-- The number of TAP entries (rule R283). -/
def tapCount (cs : List Consumer) : Nat := cs.countP isTap

/-- ADD_CONSUMER (rule R283): bad argument, then duplicate, then full table. -/
def execAddConsumer (resv : BitVec 16) (id : Byte) (s : State) : Host.Outcome State Fault Refusal :=
  whenReservedZero 0x07#8 resv s
    (if Consumer.tap id ∈ s.registry.consumers then reject 0x07#8 .duplicate s
     else if tapCount s.registry.consumers = s.params.maxTapsExt.toNat then reject 0x07#8 .tableFull s
     else complete 0x07#8 .ok
       { s with registry := { s.registry with consumers := s.registry.consumers ++ [.tap id] } })

/-- REMOVE_CONSUMER (rule R284). -/
def execRemoveConsumer (resv : BitVec 16) (id : Byte) (s : State) : Host.Outcome State Fault Refusal :=
  whenReservedZero 0x08#8 resv s
    (if Consumer.tap id ∈ s.registry.consumers then
       complete 0x08#8 .ok
         { s with registry := { s.registry with consumers := s.registry.consumers.erase (.tap id) } }
     else reject 0x08#8 .notFound s)

/-- ADD_BUFFER_LISTENER (rule R296). -/
def execAddBufferListener (resv : BitVec 16) (id : Byte) (s : State) :
    Host.Outcome State Fault Refusal :=
  whenReservedZero 0x09#8 resv s
    (if id ∈ s.listeners.bufListeners then reject 0x09#8 .duplicate s
     else if s.listeners.bufListeners.length = s.params.maxBufListeners.toNat then
       reject 0x09#8 .tableFull s
     else complete 0x09#8 .ok
       { s with listeners := { s.listeners with bufListeners := s.listeners.bufListeners ++ [id] } })

/-- REMOVE_BUFFER_LISTENER (rule R297). -/
def execRemoveBufferListener (resv : BitVec 16) (id : Byte) (s : State) :
    Host.Outcome State Fault Refusal :=
  whenReservedZero 0x0A#8 resv s
    (if id ∈ s.listeners.bufListeners then
       complete 0x0A#8 .ok
         { s with listeners := { s.listeners with bufListeners := s.listeners.bufListeners.erase id } }
     else reject 0x0A#8 .notFound s)

/-- The assembler emptied, its buffer count kept (rule R294). -/
def emptyAssembler (a : AssemblerState) : AssemblerState :=
  { a with fill := 0#32, part := 0x00#8, pcnt := 0#2 }

/-- The short buffer FLUSH delivers, if a byte is complete (rule R294). -/
def flushBuffer (s : State) : State :=
  if 0 < s.asm.fill.toNat then deliverBuffer (s.asm.buf.take s.asm.fill.toNat) s else s

/-- FLUSH (rule R294): pending dibits are discarded. -/
def execFlush (resv : BitVec 24) (s : State) : Host.Outcome State Fault Refusal :=
  whenReservedZero 0x0D#8 resv s
    (let t := flushBuffer s
     complete 0x0D#8 .ok { t with asm := emptyAssembler t.asm })

end Sys2Proof.Machine
end

