-- ==== Sys2Proof/Machine/Gardner.lean ====
section
/-! DEFINITION. The interpolating buffer, the Gardner timing recovery and the symbol slicer (rules
R240 to R256). -/

namespace Sys2Proof.Machine

/-- Slice (rule R250): the sign bits of the two comparisons, `2*b1 + b0`. -/
def slice (d : Cplx) : Dibit :=
  (if fLt d.im posZero then 2#2 else 0#2) + (if fLt d.re posZero then 1#2 else 0#2)

/-- The value of a strobe at distance `tau` from `g` towards `z` (rules R242, R243). -/
def interpolate (tau : F32) (g z : Cplx) : Cplx :=
  ⟨fAdd g.re (fMul tau (fSub z.re g.re)), fAdd g.im (fMul tau (fSub z.im g.im))⟩

/-- The Gardner timing error (rules R245, R246). -/
def timingError (mid yPrev y : Cplx) : F32 :=
  fAdd (fMul mid.re (fSub yPrev.re y.re)) (fMul mid.im (fSub yPrev.im y.im))

/-- The timing adjustment (rules R245, R247). -/
def timingAdjust (kT quarter eT : F32) : F32 := fClamp (nan0 (fMul kT eT)) (fNeg quarter) quarter

/-- The differential product `y · conj(y_prev)` (rules R245, R249). -/
def differential (y yPrev : Cplx) : Cplx :=
  ⟨fAdd (fMul y.re yPrev.re) (fMul y.im yPrev.im), fSub (fMul y.im yPrev.re) (fMul y.re yPrev.im)⟩

/-- SymbolStep (rule R245): timing update, differential product, slice, loop update, store, count,
distribute. -/
def symbolStep (y : Cplx) (s : State) : State :=
  let adj := timingAdjust s.params.kT s.rate.quarter (timingError s.timing.mid s.timing.yPrev y)
  let d := differential y s.timing.yPrev
  distribute (slice d)
    { s with
      timing := { s.timing with tau := fAdd (fAdd s.timing.tau s.rate.half) adj, yPrev := y }
      loop := loopUpdate s.params (phaseError d) s.loop
      dibitCount := s.dibitCount + 1 }

/-- One pass of the while loop of GardnerPush (rules R242, R244). -/
def strobePass (z : Cplx) (s : State) : State :=
  let v := interpolate s.timing.tau s.timing.gPrev z
  match s.timing.kind with
  | .mid =>
    { s with timing := { s.timing with
        mid := v, tau := fAdd s.timing.tau s.rate.half, kind := .ontime } }
  | .ontime =>
    let s := symbolStep v s
    { s with timing := { s.timing with kind := .mid } }

/-- The while loop of GardnerPush (rule R242), with a bound on its passes. -/
def strobeLoop : Nat → Cplx → State → State
  | 0, _, s => s
  | fuel + 1, z, s => if fLe s.timing.tau fOne then strobeLoop fuel z (strobePass z s) else s

/-- More passes than there are binary32 values in (0, 1]: a loop whose passes raise `S.tau` never uses
them up (rule R248, assumption log 8). -/
def strobeBound : Nat := 2 ^ 30

/-- The end of GardnerPush (rule R242): the new sample becomes the previous one. -/
def gardnerShift (z : Cplx) (s : State) : State :=
  { s with timing := { s.timing with tau := fSub s.timing.tau fOne, gPrev := z } }

/-- GardnerPush (rule R242). -/
def gardnerPush (z : Cplx) (s : State) : State := gardnerShift z (strobeLoop strobeBound z s)

/-- One sample of DemodBlock (rule R240). -/
def demodSample (s : State) (a : Cplx) : State :=
  let s := gardnerPush (derotate s.loop.phi a) s
  { s with loop := ncoAdvance s.loop }

/-- DemodBlock (rule R240). -/
def demodBlock (s : State) (as : List Cplx) : State := as.foldl demodSample s

/-- The rate-derived values of a rate (rules R36, R241, R255). -/
def rateFor (P : Config.Params) (rate : Word) : RateState :=
  let sps := fDiv (fOfNat rate.toNat) (fOfNat P.symbolRate.toNat)
  { sampleRate := rate, sps := sps, half := fDiv sps fTwo, quarter := fDiv sps fFour }

/-- The buffer after GardnerRebuild (rule R255): no value of the old rate is left. -/
def timingRebuild (half : F32) : TimingState where
  gPrev := Cplx.zero
  tau := half
  kind := .mid
  mid := Cplx.zero
  yPrev := Cplx.zero

end Sys2Proof.Machine
end

