-- ==== Sys2Proof/Machine/Power.lean ====
section
/-! DEFINITION. The power monitor (rules R170 to R175). -/

namespace Sys2Proof.Machine

/-- `(re * re) + (im * im)`, three roundings (rules R12, R172, R182). -/
def squaredMagnitude (x : Cplx) : F32 := fAdd (fMul x.re x.re) (fMul x.im x.im)

/-- PowerSample without its event (rule R172): the monitor after one filtered sample, and the estimate
if this sample completes a window. -/
def powerSample (p : PowerState) (f : Cplx) : PowerState × Option F32 :=
  let acc := fAdd p.acc (squaredMagnitude f)
  let cnt := p.cnt + 1
  if cnt = p.win then
    let est := fDiv acc (fOfNat p.win.toNat)
    ({ p with acc := posZero, cnt := 0#32, last := est }, some est)
  else ({ p with acc := acc, cnt := cnt }, none)

/-- The POWER event of a completed window, if an event listener is set (rule R173). -/
def emitPower (est : Option F32) (s : State) : State :=
  match est with
  | none => s
  | some p => if s.listeners.evtEn then emit (.event s.listeners.evtId .power p) s else s

/-- PowerSample (rules R172, R173). -/
def powerStep (s : State) (f : Cplx) : State :=
  let (p, est) := powerSample s.power f
  emitPower est { s with power := p }

/-- PowerBlock (rule R172): every filtered sample of the block in index order. -/
def powerBlock (s : State) (fs : List Cplx) : State := fs.foldl powerStep s

/-- The power monitor's part of a configuration (rule R174). -/
def powerReconfigure (P : Config.Params) (rate : Word) (p : PowerState) : PowerState :=
  { p with win := rate / P.powerDiv, acc := posZero, cnt := 0#32 }

end Sys2Proof.Machine
end

