-- ==== Sys2Proof/Machine/Configure.lean ====
section
/-! DEFINITION. The configuration sequence and SET_SAMPLE_RATE (rules R320 to R327). -/

namespace Sys2Proof.Machine

/-- RateValid (rule R322). -/
def rateValid (P : Config.Params) (rate : Word) : Bool :=
  decide (1 ≤ rate.toNat ∧ rate.toNat ≤ 2 ^ 24) &&
  decide (2 * P.maxOffsetHz.toNat < rate.toNat) &&
  decide (1 ≤ rate.toNat / P.powerDiv.toNat) &&
  fLt (omegaMaxFor P rate) piF

/-- The registry after a configuration (rules R286, R323): the framer entry is appended anew. -/
def attachFramer (r : RegistryState) : RegistryState where
  consumers := r.consumers.filter (fun c => decide (c ≠ .framer)) ++ [.framer]
  framerGen := r.framerGen + 1

/-- The steps of Configure that follow a successful FilterFor (rule R323). -/
def applyConfig (rate : Word) (v : List F32) (s : State) : State :=
  let r := rateFor s.params rate
  { s with
    flags := { s.flags with valid := true }
    rate := r
    filter := installFilter v
    power := powerReconfigure s.params rate s.power
    loop := loopReset s.params { s.loop with omegaMax := omegaMaxFor s.params rate }
    timing := timingRebuild r.half
    registry := attachFramer s.registry }

/-- Configure (rule R323): the state after it, and whether it succeeded. A failure has changed at most
`S.design_count`. -/
def configure (rate : Word) (s : State) : State × Bool :=
  if rateValid s.params rate then
    match filterFor s.params rate s.cache with
    | (c, none) => ({ s with cache := c }, false)
    | (c, some v) => (applyConfig rate v { s with cache := c }, true)
  else (s, false)

/-- The marks of a failed configuration (rules R321, R391). -/
def configFail (s : State) : State :=
  { s with flags := { s.flags with valid := false, cfgErr := true } }

/-- SET_SAMPLE_RATE (rule R320). -/
def execSetSampleRate (resv : BitVec 24) (rate : Word) (s : State) :
    Host.Outcome State Fault Refusal :=
  whenReservedZero 0x02#8 resv s
    (match configure rate s with
     | (t, true) => complete 0x02#8 .ok t
     | (t, false) => complete 0x02#8 .config (configFail t))

end Sys2Proof.Machine
end

