-- ==== Sys2Proof/Machine/Agc.lean ====
section
/-! DEFINITION. The gain control (rules R180 to R187). -/

namespace Sys2Proof.Machine

/-- The envelope of a sample (rule R182). -/
def envelope (x : Cplx) : F32 := fSqrt (squaredMagnitude x)

/-- The largest envelope of the ring, slots 0 .. AGC_WINDOW-1 in order (rule R182); a NaN entry never
wins. -/
def peakOf (window : Nat) (env : List F32) : F32 := (env.take window).foldl fMax posZero

/-- The gain for a peak (rules R181, R182). -/
def agcGain (P : Config.Params) (peak : F32) : F32 := fDiv P.agcObj (fMax peak P.agcMinEnv)

/-- AgcSample (rule R182). -/
def agcSample (P : Config.Params) (a : AgcState) (x : Cplx) : AgcState × Cplx :=
  let env := a.env.set a.widx.toNat (envelope x)
  let gain := agcGain P (peakOf P.agcWindow.toNat env)
  ({ env := env, widx := (a.widx + 1) % P.agcWindow, gainLast := gain },
   ⟨fMul x.re gain, fMul x.im gain⟩)

/-- AgcBlock (rule R184). -/
def agcBlock (P : Config.Params) (a : AgcState) (fs : List Cplx) : AgcState × List Cplx :=
  runStage (agcSample P) a fs

end Sys2Proof.Machine
end

