-- ==== Sys2Proof/Machine/Receive.lean ====
section
/-! DEFINITION. RECEIVE_BLOCK (rules R140 to R145). -/

namespace Sys2Proof.Machine

/-- Whether a block's timestamp lies before the current time (rule R144). -/
def regresses (ts : BitVec 64) (s : State) : Bool := decide (ts.toNat < s.currentTime.toNat)

/-- The current time of an accepted block, and the sticky flag of a regression (rule R144). -/
def acceptTime (ts : BitVec 64) (s : State) : State :=
  { s with
    flags := { s.flags with tsRegress := s.flags.tsRegress || regresses ts s }
    currentTime := ts }

/-- The filter stage on the state (rules R145, R146). -/
def filterStage (xs : List Cplx) (s : State) : State × List Cplx :=
  let (fs, ys) := firBlock s.filter xs
  ({ s with filter := fs }, ys)

/-- The gain stage on the state (rules R145, R184). -/
def agcStage (fs : List Cplx) (s : State) : State × List Cplx :=
  let (a, ys) := agcBlock s.params s.agc fs
  ({ s with agc := a }, ys)

/-- The four stages over a whole block, one after another (rules R90, R145). -/
def datapath (xs : List Cplx) (s : State) : State :=
  let (s, f) := filterStage xs s
  let s := powerBlock s f
  let (s, a) := agcStage f s
  demodBlock s a

/-- RECEIVE_BLOCK (rule R140), its checks in the order of rules R141, R143 and R362. -/
def execReceiveBlock (ts : BitVec 64) (samples : List Cplx) (s : State) :
    Host.Outcome State Fault Refusal :=
  if samples = [] then reject 0x01#8 .emptyBlock s
  else if !s.flags.valid then reject 0x01#8 .notConfigured s
  else if !samples.all sampleFinite then reject 0x01#8 .nonfinite s
  else
    complete 0x01#8 (if regresses ts s then .okTsRegress else .ok) (datapath samples (acceptTime ts s))

end Sys2Proof.Machine
end

