-- ==== Sys2Proof/Machine/Registers.lean ====
section
/-! DEFINITION. The register map (rules R50 to R52). -/

namespace Sys2Proof.Machine

/-- `reg[n]` (rules R11, R52); none for the reserved numbers 0x1C to 0xFF (rule R50). -/
def regValue (n : Byte) (s : State) : Option Word :=
  match n.toNat with
  | 0x00 => some (statusWord s)
  | 0x01 => some s.rate.sampleRate
  | 0x02 => some s.rate.sps
  | 0x03 => some s.loop.phi
  | 0x04 => some s.loop.omega
  | 0x05 => some s.loop.lock
  | 0x06 => some (loopBwWord s)
  | 0x07 => some s.loop.omegaMax
  | 0x08 => some s.agc.gainLast
  | 0x09 => some s.power.last
  | 0x0A => some s.power.cnt
  | 0x0B => some s.timing.tau
  | 0x0C => some (timingKindWord s)
  | 0x0D => some s.dibitCount
  | 0x0E => some (asmFillWord s)
  | 0x0F => some s.asm.buffersCompleted
  | 0x10 => some s.cache.designCount
  | 0x11 => some (BitVec.ofNat 32 s.cache.entries.length)
  | 0x12 => some s.filter.ntaps
  | 0x13 => some (s.currentTime.extractLsb' 0 32)
  | 0x14 => some (s.currentTime.extractLsb' 32 32)
  | 0x15 => some (BitVec.ofNat 32 s.registry.consumers.length)
  | 0x16 => some s.registry.framerGen
  | 0x17 => some (BitVec.ofNat 32 s.listeners.bufListeners.length)
  | 0x18 => some (listenerWord s.listeners.evtEn s.listeners.evtId)
  | 0x19 => some (listenerWord s.listeners.msgEn s.listeners.msgId)
  | 0x1A => some s.timing.yPrev.re
  | 0x1B => some s.timing.yPrev.im
  | _ => none

end Sys2Proof.Machine
end

