-- ==== Sys2Proof/Machine/Utility.lean ====
section
/-! DEFINITION. The listener registers, NOP, READ_REG, CLEAR_STATUS (rules R333 to R337) and the
illegal opcodes (rule R108). -/

namespace Sys2Proof.Machine

/-- NOP (rules R110, R335). -/
def execNop (_arg : BitVec 24) (s : State) : Host.Outcome State Fault Refusal := complete 0x00#8 .ok s

/-- SET_EVENT_LISTENER (rule R333). -/
def execSetEventListener (resv : BitVec 15) (en : BitVec 1) (id : Byte) (s : State) :
    Host.Outcome State Fault Refusal :=
  whenReservedZero 0x0B#8 resv s
    (complete 0x0B#8 .ok { s with listeners := { s.listeners with evtEn := enBit en, evtId := id } })

/-- SET_MESSAGE_LISTENER (rule R334). -/
def execSetMessageListener (resv : BitVec 15) (en : BitVec 1) (id : Byte) (s : State) :
    Host.Outcome State Fault Refusal :=
  whenReservedZero 0x0C#8 resv s
    (complete 0x0C#8 .ok { s with listeners := { s.listeners with msgEn := enBit en, msgId := id } })

/-- READ_REG (rules R87, R336): the value, then RESP; nothing else of the state changes. -/
def execReadReg (resv : BitVec 16) (num : Byte) (s : State) : Host.Outcome State Fault Refusal :=
  whenReservedZero 0x0E#8 resv s
    (match regValue num s with
     | none => reject 0x0E#8 .badArg s
     | some w => complete 0x0E#8 .ok (emit (.data w) s))

/-- CLEAR_STATUS (rule R337). -/
def execClearStatus (resv : BitVec 24) (s : State) : Host.Outcome State Fault Refusal :=
  whenReservedZero 0x0F#8 resv s
    (complete 0x0F#8 .ok
      { s with flags := { s.flags with cfgErr := false, tsRegress := false, cmdErr := false } })

/-- An illegal opcode (rule R108): rejected, with the opcode as received in RESP (rule R120). -/
def execIllegal (op : Byte) (_arg : BitVec 24) (s : State) : Host.Outcome State Fault Refusal :=
  reject op .illegalOpcode s

end Sys2Proof.Machine
end

