-- ==== Sys2Proof/Machine/Dispatch.lean ====
section
/-! DEFINITION. One command's meaning, arm by arm. -/

namespace Sys2Proof.Machine

def exec (i : Instr) (s : State) : Host.Outcome State Fault Refusal :=
  match i with
  | .nop arg => Sys2Proof.Machine.execNop arg s
  | .receiveBlock ts samples => Sys2Proof.Machine.execReceiveBlock ts samples s
  | .setSampleRate resv rate => Sys2Proof.Machine.execSetSampleRate resv rate s
  | .freqCorrectionChange fcv => Sys2Proof.Machine.execFreqCorrectionChange fcv s
  | .resetLoop resv => Sys2Proof.Machine.execResetLoop resv s
  | .setBandwidth resv preset => Sys2Proof.Machine.execSetBandwidth resv preset s
  | .correctInversion resv rot => Sys2Proof.Machine.execCorrectInversion resv rot s
  | .addConsumer resv id => Sys2Proof.Machine.execAddConsumer resv id s
  | .removeConsumer resv id => Sys2Proof.Machine.execRemoveConsumer resv id s
  | .addBufferListener resv id => Sys2Proof.Machine.execAddBufferListener resv id s
  | .removeBufferListener resv id => Sys2Proof.Machine.execRemoveBufferListener resv id s
  | .setEventListener resv en id => Sys2Proof.Machine.execSetEventListener resv en id s
  | .setMessageListener resv en id => Sys2Proof.Machine.execSetMessageListener resv en id s
  | .flush resv => Sys2Proof.Machine.execFlush resv s
  | .readReg resv num => Sys2Proof.Machine.execReadReg resv num s
  | .clearStatus resv => Sys2Proof.Machine.execClearStatus resv s
  | .illegal op arg => Sys2Proof.Machine.execIllegal op arg s

end Sys2Proof.Machine
end

