-- ==== Sys2Proof/Machine/Reset.lean ====
section
/-! DEFINITION. Hardware reset, its release, and a reset in the middle of a command (rules R390 to
R395, assumption logs 6 and 7). -/

namespace Sys2Proof.Machine

/-- Every field of `S` at the first column of rule R54; the parameters are kept, and the trace, which
is outside `S`, is not recalled (rules R390, R395). The line stays low until the host drives it high. -/
def hardReset (s : State) : State :=
  { State.resetWith s.params with rst := .asserted, cmd := s.cmd, trace := s.trace }

/-- The words left on the port when reset strikes between commands: a partly received command is
discarded (rule R32); whole commands the core has not begun stay offered. -/
def discardPartial (ws : List Word) : List Word :=
  match decode ws with
  | .ok _ => ws
  | .error _ => []

/-- A step with `rst_n` low (rule R390): no command word is accepted and no record emitted. Words that
arrive while the core is already held are not a partly received command. -/
def holdReset (s : State) : State :=
  match s.phase with
  | .boot => hardReset s
  | .running => hardReset { s with cmd := discardPartial s.cmd }

/-- The records of the abandoned command that are already out: the first `records` of those it would
emit, never its RESP (rules R394, I13). -/
def abandonedTrace (records : Nat) (old new : List Record) : List Record :=
  old ++ ((new.drop old.length).dropLast).take records

/-- Reset while the next command is in progress (rule R394): the words the core had accepted are gone,
those the host had still to send are left, and once all are accepted some of the records are out. -/
def abandonCommand (words records : Nat) (s : State) : State :=
  match decode s.cmd with
  | .error _ => hardReset { s with cmd := s.cmd.drop words }
  | .ok (i, rest) =>
    if words < s.cmd.length - rest.length then hardReset { s with cmd := s.cmd.drop words }
    else
      match exec i { s with cmd := rest } with
      | .next t => hardReset { s with cmd := rest, trace := abandonedTrace records s.trace t.trace }
      | .fault _ => hardReset { s with cmd := rest }
      | .refused _ => hardReset { s with cmd := rest }

/-- ResetRelease (rule R391): the initial configuration, with no record and no completion bookkeeping. -/
def resetRelease (s : State) : State :=
  match configure s.params.initialRate s with
  | (t, true) => { t with phase := .running }
  | (t, false) => { configFail t with phase := .running }

/-- The first step after reset: the parameters are checked (rule R9), then ResetRelease runs. -/
def bootStep (s : State) : Host.Outcome State Fault Refusal :=
  if paramsOk s.params then .next (resetRelease s) else .fault .badParameters

end Sys2Proof.Machine
end

