-- ==== Sys2Proof/Machine/Fetch.lean ====
section
/-! DEFINITION. Taking a command from the command port (rules R5, R32, R377, R396). -/

namespace Sys2Proof.Machine

/-- A step of the running core: the next command whole, or nothing while its words are not all there
(rule R377: idling changes nothing; rule R5: a command is atomic). -/
def runCommand (s : State) : Host.Outcome State Fault Refusal :=
  match decode s.cmd with
  | .ok (i, rest) => exec i { s with cmd := rest }
  | .error _ => .next s

/-- A running core with exactly the command whose bits are `w` on its port. -/
def offerTableWord (s : State) (nbits w : Nat) : State :=
  { s with rst := .released, phase := .running, cmd := tableWords nbits w }

end Sys2Proof.Machine
end

