-- ==== Sys2Proof/Machine/Step.lean ====
section
/-! DEFINITION. One step of the machine. -/

namespace Sys2Proof.Machine

/-- One step, by the reset line and the phase (rules R390, R391, R394, R396). -/
def step (s : State) : Host.Outcome State Fault Refusal :=
  match s.rst with
  | .asserted => .next (holdReset s)
  | .during words records =>
    match s.phase with
    | .boot => .next (holdReset s)
    | .running => .next (abandonCommand words records s)
  | .released =>
    match s.phase with
    | .boot => bootStep s
    | .running => runCommand s

/-- The command whose bits are `w`, alone on the port of a running core, so that the next step runs it
(assumption log 6). -/
def State.withFetchWord (s : State) (nbits w : Nat) : State := offerTableWord s nbits w

end Sys2Proof.Machine
end

