-- ==== Sys2Proof/Machine/Assembler.lean ====
section
/-! DEFINITION. The assembler's lines and what they assemble to (rules R112, R113), with the operands
as the numbers they spell; their characters are read in Machine/AsmText.lean. -/

namespace Sys2Proof.Machine

/-- The listener operand of SET_EVENT_LISTENER and SET_MESSAGE_LISTENER: `on, id` or `off`. -/
inductive ListenerOperand where
  | on (id : Nat)
  | off
  deriving DecidableEq, Repr

/-- One line: a command of rule R112 or a pseudo-instruction of rule R113. -/
inductive AsmLine where
  | nop
  | receiveBlock (ts : Nat) (samples : List Cplx)
  | setSampleRate (rate : Nat)
  | freqCorrectionChange (v : Int)
  | resetLoop
  | setBandwidth (p : Nat)
  | correctInversion (q : Nat)
  | addConsumer (id : Nat)
  | removeConsumer (id : Nat)
  | addBufferListener (id : Nat)
  | removeBufferListener (id : Nat)
  | setEventListener (o : ListenerOperand)
  | setMessageListener (o : ListenerOperand)
  | flush
  | readReg (n : Nat)
  | clearStatus
  | pseudoReset
  | pseudoReadStatus
  | pseudoDetachEvents
  | pseudoDetachMessages
  | pseudoTeardown
  | pseudoInvert
  deriving DecidableEq, Repr

/-- EN and ID of a listener operand; `off` is EN = 0, ID = 0 (rule R112). -/
def listenerFields : ListenerOperand → Option (BitVec 1 × Byte)
  | .on id => if id < 256 then some (1#1, BitVec.ofNat 8 id) else none
  | .off => some (0#1, 0#8)

/-- An 8-bit operand. -/
def byteOperand (n : Nat) : Option Byte := if n < 256 then some (BitVec.ofNat 8 n) else none

/-- The command a line spells, if its operands are in range (rules R112, R113). CORRECT_INVERSION takes
the rotation codes 1 to 3 only (DEDUCED, assumption log 16). -/
def asmInstr : AsmLine → Option Instr
  | .nop => some (.nop 0)
  | .receiveBlock ts xs =>
    if ts < 2 ^ 64 ∧ xs.length < 2 ^ 24 then some (.receiveBlock (BitVec.ofNat 64 ts) xs) else none
  | .setSampleRate rate => if rate < 2 ^ 32 then some (.setSampleRate 0 (BitVec.ofNat 32 rate)) else none
  | .freqCorrectionChange v =>
    if -2 ^ 23 ≤ v ∧ v < 2 ^ 23 then some (.freqCorrectionChange (BitVec.ofInt 24 v)) else none
  | .resetLoop => some (.resetLoop 0)
  | .setBandwidth p => if p < 4 then some (.setBandwidth 0 (BitVec.ofNat 2 p)) else none
  | .correctInversion q => if 1 ≤ q ∧ q < 4 then some (.correctInversion 0 (BitVec.ofNat 2 q)) else none
  | .addConsumer id => (byteOperand id).map (.addConsumer 0)
  | .removeConsumer id => (byteOperand id).map (.removeConsumer 0)
  | .addBufferListener id => (byteOperand id).map (.addBufferListener 0)
  | .removeBufferListener id => (byteOperand id).map (.removeBufferListener 0)
  | .setEventListener o => (listenerFields o).map fun f => .setEventListener 0 f.1 f.2
  | .setMessageListener o => (listenerFields o).map fun f => .setMessageListener 0 f.1 f.2
  | .flush => some (.flush 0)
  | .readReg n => (byteOperand n).map (.readReg 0)
  | .clearStatus => some (.clearStatus 0)
  | .pseudoReset => some (.resetLoop 0)
  | .pseudoReadStatus => some (.readReg 0 0x00#8)
  | .pseudoDetachEvents => some (.setEventListener 0 0#1 0#8)
  | .pseudoDetachMessages => some (.setMessageListener 0 0#1 0#8)
  | .pseudoTeardown => some (.flush 0)
  | .pseudoInvert => some (.correctInversion 0 2#2)

/-- The words a line assembles to. -/
def assembleLine (l : AsmLine) : Option (List Word) := (asmInstr l).map encode

end Sys2Proof.Machine
end

