-- ==== Sys2Proof/Machine/Ports.lean ====
section
/-! DEFINITION. What each output port of a realisation carries, read off the trace (rules R120 to R126).
The merged order across ports is the trace's own. -/

namespace Sys2Proof.Machine

/-- The RESP word (rule R120). -/
def respWord (op status : Byte) : Word := op ++ (0#16 ++ status)

/-- The kind code of an EVENT record (rule R125). -/
def eventKindCode : EventKind → Byte
  | .power => 0x01#8

/-- The word of the response port a record is, if any (rules R120, R121). -/
def recordRespWord : Record → Option Word
  | .resp op st => some (respWord op st)
  | .data w => some w
  | .tap _ _ => none
  | .framerIn _ _ _ => none
  | .buf _ _ => none
  | .event _ _ _ => none

/-- The `resp` port: DATA and RESP words in production order. -/
def respPort (t : List Record) : List Word := t.filterMap recordRespWord

def recordTap : Record → Option (Byte × Dibit)
  | .tap id d => some (id, d)
  | .resp _ _ => none
  | .data _ => none
  | .framerIn _ _ _ => none
  | .buf _ _ => none
  | .event _ _ _ => none

/-- The `tap` port (rule R122). -/
def tapPort (t : List Record) : List (Byte × Dibit) := t.filterMap recordTap

def recordFramer : Record → Option (Word × Dibit × BitVec 64)
  | .framerIn g d time => some (g, d, time)
  | .resp _ _ => none
  | .data _ => none
  | .tap _ _ => none
  | .buf _ _ => none
  | .event _ _ _ => none

/-- The `framer` port (rule R123). -/
def framerPort (t : List Record) : List (Word × Dibit × BitVec 64) := t.filterMap recordFramer

/-- One beat of the `buf` port (rule R126). -/
structure BufBeat where
  listener : Byte
  byte : Byte
  last : Bool
  deriving DecidableEq, Repr

/-- The beats of one byte buffer: one per byte, `last` on the final one (rules R124, R126). -/
def bufBeats (listener : Byte) : List Byte → List BufBeat
  | [] => []
  | [b] => [⟨listener, b, true⟩]
  | b :: bs => ⟨listener, b, false⟩ :: bufBeats listener bs

def recordBuf : Record → List BufBeat
  | .buf id bytes => bufBeats id bytes
  | .resp _ _ => []
  | .data _ => []
  | .tap _ _ => []
  | .framerIn _ _ _ => []
  | .event _ _ _ => []

/-- The `buf` port (rules R124, R126). -/
def bufPort (t : List Record) : List BufBeat := t.flatMap recordBuf

def recordEvent : Record → Option (Byte × Byte × F32)
  | .event id k v => some (id, eventKindCode k, v)
  | .resp _ _ => none
  | .data _ => none
  | .tap _ _ => none
  | .framerIn _ _ _ => none
  | .buf _ _ => none

/-- The `event` port (rule R125). -/
def eventPort (t : List Record) : List (Byte × Byte × F32) := t.filterMap recordEvent

end Sys2Proof.Machine
end

