-- ==== Sys2Proof/Safety.lean ====
section
/-! DEFINITION. The terms the statements use: how a command ends, what a good state is, and what the
spec's rules say of values, written without the operations they are about. -/

namespace Sys2Proof.Safety

open Sys2Proof.Machine

/-! How a command ends (rules R120, R363). -/

/-- A command other than READ_REG that ends with OK: last status 0x00 and the RESP record. -/
def endOk (op : Byte) (s : State) : State :=
  { s with flags := { s.flags with lastStatus := 0x00#8 }, trace := s.trace ++ [.resp op 0x00#8] }

/-- A command other than READ_REG that is rejected with `code`: the sticky CMD_ERR, the last status and
the RESP record. -/
def endRejected (op code : Byte) (s : State) : State :=
  { s with
    flags := { s.flags with cmdErr := true, lastStatus := code }
    trace := s.trace ++ [.resp op code] }

/-- A record that is no RESP. -/
def isResp : Record → Bool
  | .resp _ _ => true
  | .data _ => false
  | .tap _ _ => false
  | .framerIn _ _ _ => false
  | .buf _ _ => false
  | .event _ _ _ => false

/-- A record that is an EVENT. -/
def isEvent : Record → Bool
  | .event _ _ _ => true
  | .resp _ _ => false
  | .data _ => false
  | .tap _ _ => false
  | .framerIn _ _ _ => false
  | .buf _ _ => false

/-! What holds of a good state, part by part. -/

/-- The registry (rules R44, R282): ASM first, no entry twice (so at most one FRAMER and distinct tap
ids), at most MAX_TAPS_EXT taps. -/
abbrev RegistryOk (s : State) : Prop :=
  s.registry.consumers.head? = some .asm ∧ s.registry.consumers.Nodup ∧
  tapCount s.registry.consumers ≤ s.params.maxTapsExt.toNat

/-- The buffer listeners (rule R47): distinct, at most MAX_BUF_LISTENERS. -/
abbrev ListenersOk (s : State) : Prop :=
  s.listeners.bufListeners.Nodup ∧
  s.listeners.bufListeners.length ≤ s.params.maxBufListeners.toNat

/-- The cache (rules R38, R150): a map in its one form (rates strictly rising) that holds successful
designs only: not empty, at most MAX_TAPS long, finite. -/
abbrev CacheOk (s : State) : Prop :=
  (s.cache.entries.map Prod.fst).Pairwise (· < ·) ∧
  ∀ e ∈ s.cache.entries,
    e.2 ≠ [] ∧ e.2.length ≤ s.params.maxTaps.toNat ∧ e.2.all isFinite = true

/-- The filter pair (rule R37): S.ntaps is the length of S.h and of both delay lines. -/
abbrev FilterOk (s : State) : Prop :=
  s.filter.h.length = s.filter.ntaps.toNat ∧ s.filter.dI.length = s.filter.ntaps.toNat ∧
  s.filter.dQ.length = s.filter.ntaps.toNat

/-- The assembler (rule R46): BUF_BYTES bytes, S.fill below BUF_BYTES, no bit of S.part at or above
2 * S.pcnt. -/
abbrev AssemblerOk (s : State) : Prop :=
  s.asm.buf.length = s.params.bufBytes.toNat ∧ s.asm.fill.toNat < s.params.bufBytes.toNat ∧
  s.asm.part.toNat < 4 ^ s.asm.pcnt.toNat

/-- The AGC ring (rule R40): AGC_WINDOW envelopes, S.widx below AGC_WINDOW. -/
abbrev AgcOk (s : State) : Prop :=
  s.agc.env.length = s.params.agcWindow.toNat ∧ s.agc.widx.toNat < s.params.agcWindow.toNat

/-- What a configured core has (rules R33, R36, R37, R171, R208, R282): the framer attached, between 1 and
MAX_TAPS coefficients, the values of its valid rate, and an unfinished power window. -/
abbrev ConfiguredOk (s : State) : Prop :=
  s.flags.valid = true →
    Consumer.framer ∈ s.registry.consumers ∧
    1 ≤ s.filter.ntaps.toNat ∧ s.filter.ntaps.toNat ≤ s.params.maxTaps.toNat ∧
    rateValid s.params s.rate.sampleRate = true ∧ s.rate = rateFor s.params s.rate.sampleRate ∧
    s.loop.omegaMax = omegaMaxFor s.params s.rate.sampleRate ∧
    s.power.win = s.rate.sampleRate / s.params.powerDiv ∧ s.power.cnt.toNat < s.power.win.toNat

/-- The parameters meet rule R9, and every part of the state is as its rules say. -/
abbrev StateOk (s : State) : Prop :=
  paramsOk s.params = true ∧ RegistryOk s ∧ ListenersOk s ∧ CacheOk s ∧ FilterOk s ∧
  AssemblerOk s ∧ AgcOk s ∧ ConfiguredOk s

/-- The bounds of the loop (rule R207). -/
abbrev LoopBounded (l : LoopState) : Prop :=
  isFinite l.phi = true ∧ fLe (fNeg piF) l.phi = true ∧ fLt l.phi piF = true ∧
  isFinite l.omega = true ∧ fLe (fAbs l.omega) l.omegaMax = true ∧ fLt l.omegaMax piF = true ∧
  fLe posZero l.lock = true ∧ fLe l.lock fOne = true

/-- The loop is bounded, and samples per symbol are a number. -/
abbrev LoopOk (s : State) : Prop :=
  paramsOk s.params = true ∧ isNaN s.rate.sps = false ∧ LoopBounded s.loop

/-- With the default parameters, a configured core has the values of a valid rate and its next strobe
lies ahead (rule R248). -/
abbrev TimingOk (s : State) : Prop :=
  s.params = Config.defaults ∧
  (s.flags.valid = true →
    rateValid s.params s.rate.sampleRate = true ∧ s.rate = rateFor s.params s.rate.sampleRate ∧
    fLt posZero s.timing.tau = true)

/-! What the rules say of values. -/

/-- The contents of the registers 0x00 to 0x1B in order (rule R52). -/
def registerTable (s : State) : List Word :=
  [ statusWord s, s.rate.sampleRate, s.rate.sps, s.loop.phi, s.loop.omega, s.loop.lock, loopBwWord s,
    s.loop.omegaMax, s.agc.gainLast, s.power.last, s.power.cnt, s.timing.tau, timingKindWord s,
    s.dibitCount, asmFillWord s, s.asm.buffersCompleted, s.cache.designCount,
    BitVec.ofNat 32 s.cache.entries.length, s.filter.ntaps, s.currentTime.extractLsb' 0 32,
    s.currentTime.extractLsb' 32 32, BitVec.ofNat 32 s.registry.consumers.length,
    s.registry.framerGen, BitVec.ofNat 32 s.listeners.bufListeners.length,
    listenerWord s.listeners.evtEn s.listeners.evtId, listenerWord s.listeners.msgEn s.listeners.msgId,
    s.timing.yPrev.re, s.timing.yPrev.im ]

/-- The rational a finite binary32 bit pattern stands for (rule R12). -/
def fValue (x : F32) : ℚ := (fScaled x : ℚ) / 2 ^ 149

/-- `r` is the binary32 value nearest to the rational `q`, and the even one of two that are equally
near (rule R12). -/
def IsNearest (r : F32) (q : ℚ) : Prop :=
  ∀ y : F32, isFinite y = true →
    |fValue r - q| ≤ |fValue y - q| ∧
    (|fValue r - q| = |fValue y - q| → fValue y ≠ fValue r → r.getLsbD 0 = false)

/-- The overflow threshold: half a unit in the last place above the largest finite value. A result from
there up rounds to infinity (rule R12, assumption log 15). -/
def overflowBound : ℚ := 2 ^ 128 - 2 ^ 103

/-- `r` is the rational `q` rounded: the nearest value below the overflow threshold, the infinity of q's
sign from there up (rule R12, assumption log 15). -/
def RoundsTo (r : F32) (q : ℚ) : Prop :=
  (|q| < overflowBound → isFinite r = true ∧ IsNearest r q) ∧
  (overflowBound ≤ |q| → isInf r = true ∧ (fSign r = true ↔ q < 0))

/-- One rail's filter output for input index `n` with cleared delay lines: the products `h[k] * x[n-k]`
added up in rising k from +0.0, each product and each sum rounded; samples before the first are +0.0
(rules R146, R147). -/
def convolution (h x : List F32) (n : Nat) : F32 :=
  (List.range h.length).foldl
    (fun y k => fAdd y (fMul (h.getD k posZero) (if k ≤ n then x.getD (n - k) posZero else posZero)))
    posZero

/-- The bytes that dibits pack into, four to a byte, the first in bits 7:6 (rules R84, R290). -/
def packedBytes : List Dibit → List Byte
  | a :: b :: c :: d :: rest => (a ++ (b ++ (c ++ d))) :: packedBytes rest
  | _ => []

/-- The dibits left over when four make a byte, the first one highest (rule R290). -/
def pendingByte : List Dibit → Byte
  | _ :: _ :: _ :: _ :: rest => pendingByte rest
  | [a, b, c] => 0#2 ++ (a ++ (b ++ c))
  | [a, b] => 0#4 ++ (a ++ b)
  | [a] => 0#6 ++ a
  | [] => 0#8

/-- The full buffers of `size` bytes that a byte sequence completes, in order (rule R295). -/
def fullBuffers (size : Nat) (bytes : List Byte) : List (List Byte) :=
  (List.range (bytes.length / size)).map fun k => (bytes.drop (k * size)).take size

/-- The record by which a consumer other than the assembler gets a dibit (rule R280). -/
def deliveryRecord (s : State) (d : Dibit) : Consumer → Option Record
  | .asm => none
  | .framer => some (.framerIn s.registry.framerGen d s.currentTime)
  | .tap id => some (.tap id d)

/-- The mean of the squared magnitudes of a window of samples (rules R172, R173). -/
def windowPower (fs : List Cplx) : F32 :=
  fDiv (fs.foldl (fun acc f => fAdd acc (fAdd (fMul f.re f.re) (fMul f.im f.im))) posZero)
    (fOfNat fs.length)

/-- The state a successful configuration leaves (rule R323), for the coefficient vector `v` and the
cache `c`: every field the rule sets, and no other. -/
def configured (rate : Word) (v : List F32) (c : CacheState) (s : State) : State :=
  let sps := fDiv (fOfNat rate.toNat) (fOfNat s.params.symbolRate.toNat)
  { s with
    flags := { s.flags with valid := true }
    rate := { sampleRate := rate, sps := sps, half := fDiv sps fTwo, quarter := fDiv sps fFour }
    filter := { h := v, ntaps := BitVec.ofNat 32 v.length, dI := List.replicate v.length 0#32,
                dQ := List.replicate v.length 0#32 }
    cache := c
    power := { s.power with win := rate / s.params.powerDiv, acc := 0#32, cnt := 0#32 }
    loop := { phi := 0#32, omega := 0#32, lock := 0#32, bwCur := s.params.bwDefault,
              omegaMax := fDiv (fMul twoPiF (fOfNat s.params.maxOffsetHz.toNat)) (fOfNat rate.toNat) }
    timing := { gPrev := ⟨0#32, 0#32⟩, tau := fDiv sps fTwo, kind := .mid, mid := ⟨0#32, 0#32⟩,
                yPrev := ⟨0#32, 0#32⟩ }
    registry := { consumers := s.registry.consumers.filter (fun c => decide (c ≠ .framer)) ++ [.framer],
                  framerGen := s.registry.framerGen + 1 } }

end Sys2Proof.Safety
end

