-- ==== Sys2Proof/Certificates/Slice0/Obligations.lean ====
section
/-! DEFINITION. The statements for the provers, from the numbered rules of the spec. Each docstring
names the rule it formalises. -/

open Sys2Proof Sys2Proof.Machine Sys2Proof.Safety

/-! ## Encoding -/

/-- R100 to R105: the decoder reads every well-formed command back from its words, whatever follows. -/
def Obligations.DecodeReadsBackEveryEncoding : Prop :=
  ∀ (i : Instr) (rest : List Word), i.wf = true → decode (encode i ++ rest) = .ok (i, rest)

/-- R101: what the decoder reads is well formed, and its words are exactly the words consumed. -/
def Obligations.DecodedWordsAreTheEncoding : Prop :=
  ∀ (ws : List Word) (i : Instr) (rest : List Word),
    decode ws = .ok (i, rest) → i.wf = true ∧ ws = encode i ++ rest

/-- R104, R111: how many words a command takes, by OP and, for OP 0x01, ARG alone. -/
def Obligations.CommandLengthFromFirstWord : Prop :=
  ∀ (w : Word) (ws : List Word) (i : Instr) (rest : List Word),
    decode (w :: ws) = .ok (i, rest) →
      (w :: ws).length - rest.length =
        (if w.extractLsb' 24 8 = 0x01#8 then 1 + (2 + 2 * (w.extractLsb' 0 24).toNat)
         else if w.extractLsb' 24 8 = 0x02#8 then 2 else 1) ∧
      rest = (w :: ws).drop ((w :: ws).length - rest.length)

/-- R101, R104: a command is not read exactly when a word of it has not arrived; no word is rejected. -/
def Obligations.DecoderWaitsOnlyForMissingWords : Prop :=
  ∀ ws : List Word,
    (∃ e, decode ws = .error e) ↔
      ws = [] ∨ ∃ w rest, ws = w :: rest ∧
        rest.length <
          (if w.extractLsb' 24 8 = 0x01#8 then 2 + 2 * (w.extractLsb' 0 24).toNat
           else if w.extractLsb' 24 8 = 0x02#8 then 1 else 0)

/-- R103, R105, R108, vectors E: words written out from the encoding tables decode to their commands. -/
def Obligations.WrittenWordsDecode : Prop :=
  decode [0x00ABCDEF#32] = .ok (.nop 0xABCDEF, []) ∧
  decode [0x01000001#32, 0x000003E8#32, 0x00000000#32, 0x3F800000#32, 0x00000000#32] =
    .ok (.receiveBlock 1000 [⟨0x3F800000#32, 0x00000000#32⟩], []) ∧
  decode [0x02000000#32, 0x000061A8#32] = .ok (.setSampleRate 0 25000, []) ∧
  decode [0x03FFFF9C#32] = .ok (.freqCorrectionChange 0xFFFF9C, []) ∧
  decode [0x05000003#32] = .ok (.setBandwidth 0 3, []) ∧
  decode [0x06000002#32] = .ok (.correctInversion 0 2, []) ∧
  decode [0x07000100#32] = .ok (.addConsumer 1 0, []) ∧
  decode [0x0B000107#32] = .ok (.setEventListener 0 1 7, []) ∧
  decode [0x0E00001C#32] = .ok (.readReg 0 0x1C, []) ∧
  decode [0xFF123456#32] = .ok (.illegal 0xFF 0x123456, [])

/-! ## Steps, reset and the whole machine -/

/-- R32, R396: a running core whose port holds a whole command runs it, with its words consumed. That a step
takes its command from the field `cmd` is the model's choice (assumption logs 5 and 6). -/
def Obligations.StepRunsDecodedCommand : Prop :=
  ∀ (s : State) (i : Instr) (rest : List Word),
    s.rst = .released → s.phase = .running → decode s.cmd = .ok (i, rest) → i.wf = true →
      step s = exec i { s with cmd := rest }

/-- R377: a running core without a whole command on its port changes nothing. That a partly received command
changes nothing either is the model's choice (assumption log 5). -/
def Obligations.IdleCoreHoldsItsState : Prop :=
  ∀ (s : State) (e : DecodeError),
    s.rst = .released → s.phase = .running → decode s.cmd = .error e → step s = .next s

/-- R360, R361, R363: every command ends, with exactly one RESP, its last record, that carries the
command's opcode and a status code of the table. -/
def Obligations.EveryCommandEndsWithOneResp : Prop :=
  ∀ (i : Instr) (s : State),
    ∃ (t : State) (recs : List Record) (st : Byte),
      exec i s = .next t ∧ t.trace = s.trace ++ recs ++ [.resp (opcode i) st] ∧
      (∀ r ∈ recs, isResp r = false) ∧ st.toNat ≤ 0x0A

/-- R364: a rejected command emits nothing but its RESP and changes nothing but the completion
bookkeeping, and, for ERR_CONFIG only, VALID, CFG_ERR and the design count. -/
def Obligations.RejectedCommandHasNoOtherEffect : Prop :=
  ∀ (i : Instr) (s t : State) (recs : List Record) (st : Byte),
    exec i s = .next t → t.trace = s.trace ++ recs ++ [.resp (opcode i) st] →
    0x01 ≤ st.toNat → st.toNat ≤ 0x09 →
      recs = [] ∧
      t = { s with
            flags := { s.flags with
              valid := t.flags.valid
              cfgErr := t.flags.cfgErr
              cmdErr := true
              lastStatus := if opcode i = 0x0E#8 then s.flags.lastStatus else st }
            cache := { s.cache with designCount := t.cache.designCount }
            trace := s.trace ++ [.resp (opcode i) st] } ∧
      (st ≠ 0x06#8 →
        t.flags.valid = s.flags.valid ∧ t.flags.cfgErr = s.flags.cfgErr ∧ t.cache = s.cache)

/-- R109, R320: SET_SAMPLE_RATE with a set reserved ARG bit consumes its payload word and is rejected with
ERR_BAD_ARG, whatever the rate. -/
def Obligations.SetSampleRateReservedBitsRejected : Prop :=
  ∀ (resv : BitVec 24) (rate : Word) (rest : List Word) (s : State), resv ≠ 0 →
    decode ((0x02#8 ++ resv) :: rate :: rest) = .ok (.setSampleRate resv rate, rest) ∧
    exec (.setSampleRate resv rate) s = .next (endRejected 0x02#8 0x02#8 s)

/-- R54: the first column of the reset table, at the default parameters. -/
def Obligations.ResetValuesAreTheFirstColumn : Prop :=
  State.reset.flags = { valid := false, cfgErr := false, tsRegress := false, cmdErr := false, lastStatus := 0#8 } ∧
  State.reset.rate = { sampleRate := 0#32, sps := 0#32, half := 0#32, quarter := 0#32 } ∧
  State.reset.filter = { h := [], ntaps := 0#32, dI := [], dQ := [] } ∧
  State.reset.cache = { entries := [], designCount := 0#32 } ∧
  State.reset.power = { acc := 0#32, cnt := 0#32, win := 0#32, last := 0#32 } ∧
  State.reset.agc = { env := List.replicate 32 0#32, widx := 0#32, gainLast := 0x3F800000#32 } ∧
  State.reset.loop = { phi := 0#32, omega := 0#32, lock := 0#32, bwCur := 1#2, omegaMax := 0#32 } ∧
  State.reset.timing =
    { gPrev := ⟨0#32, 0#32⟩, tau := 0#32, kind := .mid, mid := ⟨0#32, 0#32⟩, yPrev := ⟨0#32, 0#32⟩ } ∧
  State.reset.dibitCount = 0#32 ∧
  State.reset.registry = { consumers := [.asm], framerGen := 0#32 } ∧
  State.reset.asm =
    { buf := List.replicate 300 0#8, fill := 0#32, part := 0#8, pcnt := 0#2, buffersCompleted := 0#32 } ∧
  State.reset.listeners = { bufListeners := [], evtEn := false, evtId := 0#8, msgEn := false, msgId := 0#8 } ∧
  State.reset.currentTime = 0#64

/-- R390, R395: with the reset line low a step puts every field of S at the first column of R54, keeps
the parameters and the trace, accepts no whole command and emits nothing. That a step with the line low is
the reset, and the line stays low, is the model's choice (assumption log 6). -/
def Obligations.HeldResetTakesFirstColumn : Prop :=
  ∀ s : State, s.rst = .asserted →
    ∃ t, step s = .next t ∧
      t = { State.resetWith s.params with rst := .asserted, cmd := t.cmd, trace := s.trace } ∧
      (∀ i rest, decode s.cmd = .ok (i, rest) → t.cmd = s.cmd)

/-- R391: on release a core whose initial rate is valid and whose designer succeeds is configured, and
one whose initial rate is not valid or whose designer fails is left invalid with CFG_ERR; no record is
emitted and neither the last status nor CMD_ERR is written. That the release is a step of its own is the
model's choice (assumption log 6). -/
def Obligations.ResetReleaseRunsInitialConfiguration : Prop :=
  ∀ (P : Config.Params) (cmd : List Word) (trace : List Record), paramsOk P = true →
    let s : State := { State.resetWith P with cmd := cmd, trace := trace }
    let failed (n : Word) : State :=
      { s with phase := .running
               flags := { s.flags with cfgErr := true }
               cache := { s.cache with designCount := n } }
    step s = .next
      (if rateValid P P.initialRate = true then
         match design P P.initialRate with
         | none => failed 1#32
         | some v =>
           if v ≠ [] ∧ v.length ≤ P.maxTaps.toNat ∧ v.all isFinite = true then
             { configured P.initialRate v { entries := [(P.initialRate, v)], designCount := 1#32 } s with
               phase := .running }
           else failed 1#32
       else failed 0#32)

/-- R394, R390: a reset in the middle of a command leaves the records it had emitted, never its RESP, and
puts every field of S at the first column of R54. How many words and records were through is data of the
reset line, the model's choice (assumption log 7). -/
def Obligations.ResetAbandonsCommandInProgress : Prop :=
  ∀ (s t : State) (i : Instr) (rest : List Word) (words records : Nat),
    s.rst = .during words records → s.phase = .running → decode s.cmd = .ok (i, rest) →
    exec i { s with cmd := rest } = .next t →
      ∃ u out left,
        step s = .next u ∧
        u = { State.resetWith s.params with rst := .asserted, cmd := u.cmd, trace := s.trace ++ out } ∧
        t.trace = s.trace ++ out ++ left ∧ left ≠ [] ∧ (∀ r ∈ out, isResp r = false) ∧
        (words < s.cmd.length - rest.length → out = [] ∧ u.cmd = s.cmd.drop words) ∧
        (s.cmd.length - rest.length ≤ words → u.cmd = rest ∧ (left.length ≤ 1 ∨ out.length = records))

/-- R360, R9: no step refuses, and the only fault is the release of reset on a core whose parameters
break R9. That this check of R9 stands there is the model's choice (assumption log 10). -/
def Obligations.OnlyBadParametersFault : Prop :=
  ∀ s : State,
    (∀ r, step s ≠ .refused r) ∧
    (∀ f, step s = .fault f ↔
      f = .badParameters ∧ s.rst = .released ∧ s.phase = .boot ∧ paramsOk s.params = false)

/-- R8: the parameters are constant for the life of a core. -/
def Obligations.ParametersNeverChange : Prop :=
  ∀ s t : State, step s = .next t → t.params = s.params

/-- R37, R38, R40, R44, R46, R47, R282: every step keeps a good state good. -/
def Obligations.EveryStepKeepsStateOk : Prop :=
  ∀ s t : State, StateOk s → step s = .next t → StateOk t

/-- R207: every step keeps the loop's phase, frequency and lock metric within their bounds. -/
def Obligations.EveryStepKeepsLoopBounded : Prop :=
  ∀ s t : State, LoopOk s → step s = .next t → LoopOk t

/-- R54: the state after reset is good, its loop is bounded, and its timing is as it should be. -/
def Obligations.ResetStateIsOk : Prop := StateOk State.reset ∧ LoopOk State.reset ∧ TimingOk State.reset

/-- R248: with the default parameters, every step keeps the next strobe ahead of the previous sample. -/
def Obligations.EveryStepKeepsStrobeAhead : Prop :=
  ∀ s t : State, TimingOk s → step s = .next t → TimingOk t

/-- R34, R54: a sticky flag once set stays set but for CLEAR_STATUS, and VALID and CFG_ERR change only
by SET_SAMPLE_RATE, TS_REGRESS only by RECEIVE_BLOCK. -/
def Obligations.StickyFlagsAreClearedOnlyByClearStatus : Prop :=
  ∀ (i : Instr) (s t : State), (∀ resv, i ≠ .clearStatus resv) → exec i s = .next t →
    (s.flags.cfgErr = true → t.flags.cfgErr = true) ∧
    (s.flags.tsRegress = true → t.flags.tsRegress = true) ∧
    (s.flags.cmdErr = true → t.flags.cmdErr = true) ∧
    ((∀ resv rate, i ≠ .setSampleRate resv rate) →
      t.flags.valid = s.flags.valid ∧ t.flags.cfgErr = s.flags.cfgErr) ∧
    ((∀ ts xs, i ≠ .receiveBlock ts xs) → t.flags.tsRegress = s.flags.tsRegress)

/-- R95, R152: no command loses or changes a cached coefficient vector. -/
def Obligations.CachedFiltersAreNeverLost : Prop :=
  ∀ (i : Instr) (s t : State) (rate : Word) (v : List F32),
    exec i s = .next t → cacheFind rate s.cache.entries = some v → cacheFind rate t.cache.entries = some v

/-! ## The commands -/

/-- R335, R110: NOP with any ARG does the completion bookkeeping and nothing else. -/
def Obligations.NopDoesOnlyBookkeeping : Prop :=
  ∀ (arg : BitVec 24) (s : State), exec (.nop arg) s = .next (endOk 0x00#8 s)

/-- R108: an illegal opcode's word is a whole command, which is rejected with ERR_ILLEGAL_OPCODE and has no
other effect. -/
def Obligations.IllegalOpcodeRejected : Prop :=
  ∀ (op : Byte) (arg : BitVec 24) (rest : List Word) (s : State), 0x10 ≤ op.toNat →
    decode ((op ++ arg) :: rest) = .ok (.illegal op arg, rest) ∧
    exec (.illegal op arg) s = .next (endRejected op 0x01#8 s)

/-- R211, R212, R213: RESET_LOOP, and FREQ_CORRECTION_CHANGE whatever FCV is, zero phase, frequency and
lock, restore the default bandwidth, and keep the frequency bound; RESET_LOOP with a set ARG bit is
rejected. -/
def Obligations.LoopResetCommandsResult : Prop :=
  ∀ (resv fcv : BitVec 24) (s : State),
    let cleared : State :=
      { s with loop := { phi := 0#32, omega := 0#32, lock := 0#32, bwCur := s.params.bwDefault,
                         omegaMax := s.loop.omegaMax } }
    exec (.resetLoop resv) s =
      .next (if resv = 0 then endOk 0x04#8 cleared else endRejected 0x04#8 0x02#8 s) ∧
    exec (.freqCorrectionChange fcv) s = .next (endOk 0x03#8 cleared)

/-- R214: SET_BANDWIDTH sets the preset in use and nothing else of the loop, or is rejected when a reserved
ARG bit is set. -/
def Obligations.SetBandwidthResult : Prop :=
  ∀ (resv : BitVec 22) (p : BitVec 2) (s : State),
    exec (.setBandwidth resv p) s =
      .next
        (if resv = 0 then endOk 0x05#8 { s with loop := { s.loop with bwCur := p } }
         else endRejected 0x05#8 0x02#8 s)

/-- R215: CORRECT_INVERSION adds r / sps to the frequency, clamped, for Q = 1, 2, 3; it is rejected for
Q = 0 and when a reserved ARG bit is set. -/
def Obligations.CorrectInversionResult : Prop :=
  ∀ s : State,
    let corrected (r : F32) : State :=
      endOk 0x06#8
        { s with loop := { s.loop with
            omega := fClamp (fAdd s.loop.omega (fDiv r s.rate.sps)) (fNeg s.loop.omegaMax) s.loop.omegaMax } }
    exec (.correctInversion 0 1) s = .next (corrected 0x3FC90FDB#32) ∧
    exec (.correctInversion 0 2) s = .next (corrected 0x40490FDB#32) ∧
    exec (.correctInversion 0 3) s = .next (corrected 0xBFC90FDB#32) ∧
    ∀ (resv : BitVec 22) (q : BitVec 2), resv ≠ 0 ∨ q = 0 →
      exec (.correctInversion resv q) s = .next (endRejected 0x06#8 0x02#8 s)

/-- R283: ADD_CONSUMER appends the tap, or is rejected: a set reserved ARG bit, else a duplicate, else a
full table. -/
def Obligations.AddConsumerResult : Prop :=
  ∀ (resv : BitVec 16) (id : Byte) (s : State),
    exec (.addConsumer resv id) s =
      .next
        (if resv ≠ 0 then endRejected 0x07#8 0x02#8 s
         else if Consumer.tap id ∈ s.registry.consumers then endRejected 0x07#8 0x08#8 s
         else if tapCount s.registry.consumers = s.params.maxTapsExt.toNat then endRejected 0x07#8 0x07#8 s
         else endOk 0x07#8
           { s with registry := { s.registry with consumers := s.registry.consumers ++ [.tap id] } })

/-- R284: in a good registry REMOVE_CONSUMER leaves every entry but the tap, in order; it is rejected when
a reserved ARG bit is set, else when the id is absent. -/
def Obligations.RemoveConsumerResult : Prop :=
  ∀ (resv : BitVec 16) (id : Byte) (s : State), RegistryOk s →
    exec (.removeConsumer resv id) s =
      .next
        (if resv ≠ 0 then endRejected 0x08#8 0x02#8 s
         else if Consumer.tap id ∈ s.registry.consumers then
           endOk 0x08#8
             { s with registry := { s.registry with
                 consumers := s.registry.consumers.filter (fun c => decide (c ≠ .tap id)) } }
         else endRejected 0x08#8 0x09#8 s)

/-- R296: ADD_BUFFER_LISTENER appends the id, or is rejected: a set reserved ARG bit, else a duplicate,
else a full list. -/
def Obligations.AddBufferListenerResult : Prop :=
  ∀ (resv : BitVec 16) (id : Byte) (s : State),
    exec (.addBufferListener resv id) s =
      .next
        (if resv ≠ 0 then endRejected 0x09#8 0x02#8 s
         else if id ∈ s.listeners.bufListeners then endRejected 0x09#8 0x08#8 s
         else if s.listeners.bufListeners.length = s.params.maxBufListeners.toNat then
           endRejected 0x09#8 0x07#8 s
         else endOk 0x09#8
           { s with listeners := { s.listeners with bufListeners := s.listeners.bufListeners ++ [id] } })

/-- R297: in a good list REMOVE_BUFFER_LISTENER leaves every other id, in order; it is rejected when a
reserved ARG bit is set, else when the id is absent. -/
def Obligations.RemoveBufferListenerResult : Prop :=
  ∀ (resv : BitVec 16) (id : Byte) (s : State), ListenersOk s →
    exec (.removeBufferListener resv id) s =
      .next
        (if resv ≠ 0 then endRejected 0x0A#8 0x02#8 s
         else if id ∈ s.listeners.bufListeners then
           endOk 0x0A#8
             { s with listeners := { s.listeners with
                 bufListeners := s.listeners.bufListeners.filter (fun x => decide (x ≠ id)) } }
         else endRejected 0x0A#8 0x09#8 s)

/-- R333, R334: the two listener commands store EN and ID, and nothing else, or are rejected when a
reserved ARG bit is set. -/
def Obligations.SetListenerResults : Prop :=
  ∀ (resv : BitVec 15) (en : Bool) (id : Byte) (s : State),
    exec (.setEventListener resv (if en then 1#1 else 0#1) id) s =
      .next
        (if resv = 0 then endOk 0x0B#8 { s with listeners := { s.listeners with evtEn := en, evtId := id } }
         else endRejected 0x0B#8 0x02#8 s) ∧
    exec (.setMessageListener resv (if en then 1#1 else 0#1) id) s =
      .next
        (if resv = 0 then endOk 0x0C#8 { s with listeners := { s.listeners with msgEn := en, msgId := id } }
         else endRejected 0x0C#8 0x02#8 s)

/-- R294, R293: FLUSH delivers the complete bytes, if any, to every listener in order, and empties the
assembler without counting a buffer, or is rejected when an ARG bit is set. -/
def Obligations.FlushResult : Prop :=
  ∀ (resv : BitVec 24) (s : State),
    exec (.flush resv) s =
      .next
        (if resv = 0 then
           endOk 0x0D#8
             { s with
               asm := { s.asm with fill := 0#32, part := 0#8, pcnt := 0#2 }
               trace := s.trace ++
                 (if s.asm.fill = 0#32 then []
                  else s.listeners.bufListeners.map (fun id => .buf id (s.asm.buf.take s.asm.fill.toNat))) }
         else endRejected 0x0D#8 0x02#8 s)

/-- R336, R50, R52, R87: READ_REG of a register 0x00 to 0x1B emits its value and RESP and changes no field
of S; a reserved number or a set reserved ARG bit is rejected, with only CMD_ERR and the RESP. -/
def Obligations.ReadRegResult : Prop :=
  ∀ (n : Byte) (s : State),
    (∀ w, (registerTable s)[n.toNat]? = some w →
      exec (.readReg 0 n) s = .next { s with trace := s.trace ++ [.data w, .resp 0x0E#8 0x00#8] }) ∧
    ∀ resv : BitVec 16, resv ≠ 0 ∨ 0x1C ≤ n.toNat →
      exec (.readReg resv n) s =
        .next { s with flags := { s.flags with cmdErr := true }
                       trace := s.trace ++ [.resp 0x0E#8 0x02#8] }

/-- R51: the STATUS register, bit by bit. -/
def Obligations.StatusRegisterBits : Prop :=
  ∀ s : State,
    (statusWord s).getLsbD 0 = s.flags.valid ∧ (statusWord s).getLsbD 1 = s.flags.cfgErr ∧
    (statusWord s).getLsbD 2 = s.flags.tsRegress ∧ (statusWord s).getLsbD 3 = s.flags.cmdErr ∧
    (statusWord s).getLsbD 4 = decide (Consumer.framer ∈ s.registry.consumers) ∧
    (statusWord s).getLsbD 5 = decide (s.listeners.bufListeners ≠ []) ∧
    (statusWord s).getLsbD 6 = s.listeners.evtEn ∧ (statusWord s).getLsbD 7 = s.listeners.msgEn ∧
    (statusWord s).extractLsb' 8 8 = s.flags.lastStatus ∧ (statusWord s).extractLsb' 16 16 = 0#16

/-- R52: the fields of LOOP_BW, TIMING_KIND, ASM_FILL, EVT_LISTENER and MSG_LISTENER. -/
def Obligations.PackedRegisterFields : Prop :=
  ∀ s : State,
    loopBwWord s = 0#22 ++ (s.params.bwDefault ++ (0#6 ++ s.loop.bwCur)) ∧
    timingKindWord s = (if s.timing.kind = .ontime then 1#32 else 0#32) ∧
    (asmFillWord s).extractLsb' 0 16 = s.asm.fill.extractLsb' 0 16 ∧
    (asmFillWord s).extractLsb' 16 2 = s.asm.pcnt ∧ (asmFillWord s).extractLsb' 18 6 = 0#6 ∧
    (asmFillWord s).extractLsb' 24 8 = s.asm.part ∧
    ∀ (en : Bool) (id : Byte), listenerWord en id = 0#23 ++ (BitVec.ofBool en ++ id)

/-- R337: CLEAR_STATUS clears the three sticky flags and keeps VALID, or is rejected when an ARG bit is
set. -/
def Obligations.ClearStatusResult : Prop :=
  ∀ (resv : BitVec 24) (s : State),
    exec (.clearStatus resv) s =
      .next
        (if resv = 0 then
           endOk 0x0F#8
             { s with flags := { valid := s.flags.valid, cfgErr := false, tsRegress := false, cmdErr := false,
                                 lastStatus := s.flags.lastStatus } }
         else endRejected 0x0F#8 0x02#8 s)

/-! ## Configuration -/

/-- R322: with the default parameters the valid rates are 10001 to 16777216. -/
def Obligations.DefaultValidRates : Prop :=
  ∀ rate : Word,
    rateValid Config.defaults rate = true ↔ 10001 ≤ rate.toNat ∧ rate.toNat ≤ 16777216

/-- R320, R321: a rate that is not valid makes the core invalid, sets CFG_ERR, and calls no designer. -/
def Obligations.InvalidRateFailsConfiguration : Prop :=
  ∀ (rate : Word) (s : State), rateValid s.params rate = false →
    exec (.setSampleRate 0 rate) s =
      .next (endRejected 0x02#8 0x06#8 { s with flags := { s.flags with valid := false, cfgErr := true } })

/-- R320, R323, R325: a valid rate whose filter is cached is configured with the cached filter and no
design call. -/
def Obligations.CachedRateIsConfigured : Prop :=
  ∀ (rate : Word) (v : List F32) (s : State),
    rateValid s.params rate = true → cacheFind rate s.cache.entries = some v →
      exec (.setSampleRate 0 rate) s = .next (endOk 0x02#8 (configured rate v s.cache s))

/-- R320, R321, R323, R150: a valid rate with no cached filter calls the designer once; a good result is
stored and configured, any other makes the core invalid and is not stored. -/
def Obligations.NewRateIsDesignedOnce : Prop :=
  ∀ (rate : Word) (s : State),
    rateValid s.params rate = true → cacheFind rate s.cache.entries = none →
      let failed : State :=
        endRejected 0x02#8 0x06#8
          { s with flags := { s.flags with valid := false, cfgErr := true }
                   cache := { s.cache with designCount := s.cache.designCount + 1 } }
      ∃ es : List (Word × List F32),
        (∀ v, design s.params rate = some v →
          cacheFind rate es = some v ∧
          ∀ r, r ≠ rate → cacheFind r es = cacheFind r s.cache.entries) ∧
        exec (.setSampleRate 0 rate) s = .next
          (match design s.params rate with
           | none => failed
           | some v =>
             if v ≠ [] ∧ v.length ≤ s.params.maxTaps.toNat ∧ v.all isFinite = true then
               endOk 0x02#8
                 (configured rate v { entries := es, designCount := s.cache.designCount + 1 } s)
             else failed)

/-! ## RECEIVE_BLOCK -/

/-- R141, R143, R362: the rejections of RECEIVE_BLOCK in their order. -/
def Obligations.ReceiveBlockRejections : Prop :=
  ∀ (ts : BitVec 64) (xs : List Cplx) (s : State),
    (xs = [] → exec (.receiveBlock ts xs) s = .next (endRejected 0x01#8 0x03#8 s)) ∧
    (xs ≠ [] → s.flags.valid = false →
      exec (.receiveBlock ts xs) s = .next (endRejected 0x01#8 0x05#8 s)) ∧
    (xs ≠ [] → s.flags.valid = true → (∃ x ∈ xs, isFinite x.re = false ∨ isFinite x.im = false) →
      exec (.receiveBlock ts xs) s = .next (endRejected 0x01#8 0x04#8 s))

/-- R140, R90, R144, R145: an accepted block is processed by the four stages, each on its own state and
the outputs of the one before it; the status says whether the time went back; nothing else changes. Its
records are those the power monitor appends on the filter's outputs, then those the demodulator appends
on the gain stage's outputs, then the RESP. -/
def Obligations.ReceiveBlockResult : Prop :=
  ∀ (ts : BitVec 64) (xs : List Cplx) (s : State),
    xs ≠ [] → s.flags.valid = true → (∀ x ∈ xs, isFinite x.re = true ∧ isFinite x.im = true) →
      let f := (firBlock s.filter xs).2
      let d := demodBlock { s with currentTime := ts } (agcBlock s.params s.agc f).2
      let st : Byte := if ts.toNat < s.currentTime.toNat then 0x0A#8 else 0x00#8
      ∃ (t : State) (events recs : List Record),
        (powerBlock s f).trace = s.trace ++ events ∧
        d.trace = s.trace ++ recs ∧
        exec (.receiveBlock ts xs) s = .next t ∧
        t = { s with
              flags := { s.flags with
                tsRegress := s.flags.tsRegress || decide (ts.toNat < s.currentTime.toNat)
                lastStatus := st }
              filter := { s.filter with dI := t.filter.dI, dQ := t.filter.dQ }
              power := { t.power with win := s.power.win }
              agc := (agcBlock s.params s.agc f).1
              loop := { t.loop with bwCur := s.loop.bwCur, omegaMax := s.loop.omegaMax }
              timing := d.timing
              dibitCount := d.dibitCount
              asm := d.asm
              currentTime := ts
              trace := s.trace ++ events ++ recs ++ [.resp 0x01#8 st] } ∧
        t.filter = (firBlock s.filter xs).1 ∧
        t.power = f.foldl (fun p x => (powerSample p x).1) s.power ∧
        t.loop = d.loop ∧ (∀ r ∈ events ++ recs, isResp r = false)

/-- R90, R125: the EVENT records of a block come before all its other records. -/
def Obligations.EventsPrecedeSymbolRecords : Prop :=
  ∀ (ts : BitVec 64) (xs : List Cplx) (s t : State), exec (.receiveBlock ts xs) s = .next t →
    ∃ events others, t.trace = s.trace ++ events ++ others ∧
      (∀ r ∈ events, isEvent r = true) ∧ (∀ r ∈ others, isEvent r = false)

/-- R340, R123: every framer record of a block carries the block's timestamp and the framer's generation. -/
def Obligations.FramerRecordsCarryBlockTime : Prop :=
  ∀ (ts : BitVec 64) (xs : List Cplx) (s t : State), exec (.receiveBlock ts xs) s = .next t →
    ∃ recs, t.trace = s.trace ++ recs ∧
      ∀ gen d time, Record.framerIn gen d time ∈ recs → time = ts ∧ gen = s.registry.framerGen

/-- R405: splitting a block in two leaves the same state but for the time, the flags and the trace, and
every tap, byte-buffer, event and framer consumer gets the same dibits, bytes and power values. -/
def Obligations.SplittingABlockChangesNoResult : Prop :=
  ∀ (ts us : BitVec 64) (xs ys : List Cplx) (s : State),
    xs ≠ [] → ys ≠ [] → s.flags.valid = true →
    (∀ x ∈ xs ++ ys, isFinite x.re = true ∧ isFinite x.im = true) →
      ∃ whole part both,
        exec (.receiveBlock ts (xs ++ ys)) s = .next whole ∧
        exec (.receiveBlock ts xs) s = .next part ∧ exec (.receiveBlock us ys) part = .next both ∧
        both = { whole with flags := both.flags, currentTime := us, trace := both.trace } ∧
        tapPort both.trace = tapPort whole.trace ∧ bufPort both.trace = bufPort whole.trace ∧
        eventPort both.trace = eventPort whole.trace ∧
        (framerPort both.trace).map (fun r => (r.1, r.2.1)) =
          (framerPort whole.trace).map (fun r => (r.1, r.2.1))

/-! ## The datapath -/

/-- R146, R147, R153: from a freshly installed filter, output n of a block is the convolution sum at n, on
each rail, and there are as many outputs as inputs. -/
def Obligations.FilterOutputIsConvolution : Prop :=
  ∀ (h : List F32) (xs : List Cplx), h.length < 2 ^ 32 →
    (firBlock (installFilter h) xs).2 =
      (List.range xs.length).map fun n =>
        ⟨convolution h (xs.map Cplx.re) n, convolution h (xs.map Cplx.im) n⟩

/-- R172, R173: a whole power window from its start gives one estimate, the mean of the squared
magnitudes, one event if a listener is set, and a window started anew. -/
def Obligations.PowerWindowGivesOneEstimate : Prop :=
  ∀ (fs : List Cplx) (s : State),
    fs ≠ [] → fs.length = s.power.win.toNat → s.power.cnt = 0#32 → s.power.acc = 0#32 →
      powerBlock s fs =
        { s with
          power := { s.power with acc := 0#32, cnt := 0#32, last := windowPower fs }
          trace := s.trace ++
            (if s.listeners.evtEn then [.event s.listeners.evtId .power (windowPower fs)] else []) }

/-- R182, R183: the gain lies between 0 and AGC_OBJ / AGC_MIN_ENV, whatever the ring and the sample hold.
With a ring of AGC_WINDOW envelopes, AgcSample stores the sample's envelope at the write index and leaves
every other slot, raises the index modulo AGC_WINDOW, keeps the gain that the ring's peak gives, and
multiplies both parts by it. -/
def Obligations.AgcGainIsBounded : Prop :=
  ∀ (P : Config.Params) (a : AgcState) (x : Cplx), paramsOk P = true →
    let b := (agcSample P a x).1
    fLe posZero b.gainLast = true ∧ fLe b.gainLast (fDiv P.agcObj P.agcMinEnv) = true ∧
    (a.env.length = P.agcWindow.toNat → a.widx.toNat < P.agcWindow.toNat →
      let slot (n : Nat) : F32 :=
        if n = a.widx.toNat then fSqrt (fAdd (fMul x.re x.re) (fMul x.im x.im)) else a.env.getD n posZero
      b.env = (List.range P.agcWindow.toNat).map slot ∧
      b.widx.toNat = (a.widx.toNat + 1) % P.agcWindow.toNat ∧
      b.gainLast = fDiv P.agcObj
        (fMax ((List.range P.agcWindow.toNat).foldl (fun peak n => fMax peak (slot n)) posZero)
          P.agcMinEnv) ∧
      (agcSample P a x).2 = ⟨fMul x.re b.gainLast, fMul x.im b.gainLast⟩)

/-- R204: the phase error is finite and in [-1, 1] for every product, infinities and NaN included. -/
def Obligations.PhaseErrorIsBounded : Prop :=
  ∀ d : Cplx,
    isFinite (phaseError d) = true ∧ fLe fNegOne (phaseError d) = true ∧ fLe (phaseError d) fOne = true

/-- R250, R251: the slicer's map, by the signs of the two parts; a zero or a NaN part gives bit 0. -/
def Obligations.SlicerMap : Prop :=
  ∀ d : Cplx,
    slice d =
      (if isNaN d.im = false ∧ fSign d.im = true ∧ isZero d.im = false then 1#1 else 0#1) ++
      (if isNaN d.re = false ∧ fSign d.re = true ∧ isZero d.re = false then 1#1 else 0#1)

/-- R245, R204, R205: a symbol step is the timing update, the three assignments of the loop update by the
phase error of the differential product, the store and the count, and then the distribution of that
product's slice, which changes none of them. -/
def Obligations.SymbolStepResult : Prop :=
  ∀ (y : Cplx) (s : State),
    let m := s.timing.mid
    let p := s.timing.yPrev
    let eT := fAdd (fMul m.re (fSub p.re y.re)) (fMul m.im (fSub p.im y.im))
    let adj := fClamp (nan0 (fMul s.params.kT eT)) (fNeg s.rate.quarter) s.rate.quarter
    let d : Cplx := ⟨fAdd (fMul y.re p.re) (fMul y.im p.im), fSub (fMul y.im p.re) (fMul y.re p.im)⟩
    let e := nan0 (fMul (fMul (fSgn d.re) (fSgn d.im))
      (fDiv (fSub (fAbs d.im) (fAbs d.re)) (fAdd (fAbs d.re) (fAbs d.im))))
    let u : State :=
      { s with
        timing := { s.timing with tau := fAdd (fAdd s.timing.tau s.rate.half) adj, yPrev := y }
        loop := { s.loop with
          omega := fClamp (fAdd s.loop.omega (fMul (perPreset s.params.loopBeta s.loop.bwCur) e))
            (fNeg s.loop.omegaMax) s.loop.omegaMax
          phi := fWrap (fAdd s.loop.phi (fMul (perPreset s.params.loopAlpha s.loop.bwCur) e))
          lock := fAdd s.loop.lock (fMul s.params.lockK (fSub (fAbs e) s.loop.lock)) }
        dibitCount := s.dibitCount + 1 }
    symbolStep y s = distribute (slice d) u ∧
    (symbolStep y s).timing = u.timing ∧ (symbolStep y s).loop = u.loop ∧
    (symbolStep y s).dibitCount = u.dibitCount

/-- R248: at a valid rate and the default parameters, nine passes of the strobe loop are enough, and the
next strobe then lies ahead of the new sample. -/
def Obligations.NineStrobePassesAreEnough : Prop :=
  ∀ (s : State) (z : Cplx),
    s.params = Config.defaults → rateValid s.params s.rate.sampleRate = true →
    s.rate = rateFor s.params s.rate.sampleRate → fLt posZero s.timing.tau = true →
      fLt fOne (strobeLoop 9 z s).timing.tau = true ∧
      gardnerPush z s = gardnerShift z (strobeLoop 9 z s) ∧
      fLt posZero (gardnerPush z s).timing.tau = true

/-- R253, R254, R281: over a block, the dibit count goes up by the number of dibits, and a framer that
stands once in the registry gets each of them. -/
def Obligations.FramerGetsEveryDibit : Prop :=
  ∀ (as : List Cplx) (s : State), s.registry.consumers.count .framer = 1 →
    ∃ recs, (demodBlock s as).trace = s.trace ++ recs ∧
      (demodBlock s as).dibitCount = s.dibitCount + BitVec.ofNat 32 (framerPort recs).length

/-- R280, R281: with the assembler first in the registry and nowhere else, a dibit is packed once and then
delivered once to every other consumer, in list order. -/
def Obligations.DibitGoesToEveryConsumerInOrder : Prop :=
  ∀ (d : Dibit) (s : State) (cs : List Consumer),
    s.registry.consumers = .asm :: cs → Consumer.asm ∉ cs →
      distribute d s =
        { packDibit d s with
          trace := (packDibit d s).trace ++ cs.filterMap (deliveryRecord s d) }

/-- R290, R291, R295, R293: from an empty assembler, packing a sequence of dibits completes the full
buffers of its bytes, delivers each to every listener in order, counts them, and keeps the bytes left
over in the buffer and the dibits left over in S.part. -/
def Obligations.PackingCompletesFullBuffers : Prop :=
  ∀ (ds : List Dibit) (s : State),
    AssemblerOk s → s.asm.fill = 0#32 → s.asm.part = 0#8 → s.asm.pcnt = 0#2 →
      let size := s.params.bufBytes.toNat
      let bytes := packedBytes ds
      let full := fullBuffers size bytes
      let t := ds.foldl (fun u d => packDibit d u) s
      t = { s with asm := t.asm
                   trace := s.trace ++
                     full.flatMap (fun b => s.listeners.bufListeners.map (fun id => .buf id b)) } ∧
      full.length = ds.length * 2 / 8 / size ∧
      t.asm.buffersCompleted = s.asm.buffersCompleted + BitVec.ofNat 32 full.length ∧
      t.asm.buf.take t.asm.fill.toNat = bytes.drop (full.length * size) ∧
      t.asm.fill.toNat = bytes.length % size ∧ t.asm.pcnt.toNat = ds.length % 4 ∧
      t.asm.part = pendingByte ds

/-! ## Arithmetic -/

/-- R12: addition, subtraction, multiplication and division of finite values round the exact result to
nearest, ties to even: finite below the overflow threshold, infinite from it up. The infinity and its
sign are those of IEEE 754-2008, to which R12 refers (assumption log 15). -/
def Obligations.ArithmeticRoundsToNearestEven : Prop :=
  ∀ a b : F32, isFinite a = true → isFinite b = true →
    RoundsTo (fAdd a b) (fValue a + fValue b) ∧
    RoundsTo (fSub a b) (fValue a - fValue b) ∧
    RoundsTo (fMul a b) (fValue a * fValue b) ∧
    (isZero b = false → RoundsTo (fDiv a b) (fValue a / fValue b))

/-- R12, R182: the square root of a finite value that is not negative is the binary32 value nearest to the
real square root. -/
def Obligations.SquareRootRoundsToNearest : Prop :=
  ∀ a y : F32, isFinite a = true → fSign a = false → isFinite y = true →
    isFinite (fSqrt a) = true ∧
    |(fValue (fSqrt a) : ℝ) - Real.sqrt (fValue a : ℝ)| ≤ |(fValue y : ℝ) - Real.sqrt (fValue a : ℝ)|

/-- R13: a NaN result is always the canonical one. -/
def Obligations.NanResultsAreCanonical : Prop :=
  ∀ a b : F32,
    (isNaN (fAdd a b) = true → fAdd a b = 0x7FC00000#32) ∧
    (isNaN (fSub a b) = true → fSub a b = 0x7FC00000#32) ∧
    (isNaN (fMul a b) = true → fMul a b = 0x7FC00000#32) ∧
    (isNaN (fDiv a b) = true → fDiv a b = 0x7FC00000#32) ∧
    (isNaN (fSqrt a) = true → fSqrt a = 0x7FC00000#32)

/-- R12: an integer up to 2^24 converts exactly. -/
def Obligations.SmallIntegersConvertExactly : Prop :=
  ∀ n : Nat, n ≤ 2 ^ 24 → isFinite (fOfNat n) = true ∧ fValue (fOfNat n) = n
end

