-- ==== Sys2Proof/Laws/Cache.lean ====
section
/-! SUPPORT. The filter cache: what a store does to every rate, and that entries keep their rates
strictly rising. -/

namespace Sys2Proof.Machine

@[simp] theorem cacheFind_cacheInsert_self (rate : Word) (v : List F32) (es : List (Word × List F32)) :
    cacheFind rate (cacheInsert rate v es) = some v := by
  induction es with
  | nil => simp [cacheInsert, cacheFind]
  | cons e es ih =>
    obtain ⟨r, w⟩ := e
    simp only [cacheInsert]
    split
    · simp [cacheFind]
    · split
      · simp [cacheFind]
      · next h => simp [cacheFind, h, ih]

theorem cacheFind_cacheInsert_of_ne {rate r : Word} (h : r ≠ rate) (v : List F32)
    (es : List (Word × List F32)) :
    cacheFind r (cacheInsert rate v es) = cacheFind r es := by
  induction es with
  | nil => simp [cacheInsert, cacheFind, h.symm]
  | cons e es ih =>
    obtain ⟨q, w⟩ := e
    simp only [cacheInsert]
    split
    · simp [cacheFind, h.symm]
    · split
      · next hq => subst hq; simp [cacheFind, h.symm]
      · simp [cacheFind, ih]

theorem mem_cacheInsert {e : Word × List F32} {rate : Word} {v : List F32}
    {es : List (Word × List F32)} (h : e ∈ cacheInsert rate v es) : e = (rate, v) ∨ e ∈ es := by
  induction es with
  | nil => simpa [cacheInsert] using h
  | cons q es ih =>
    obtain ⟨r, w⟩ := q
    simp only [cacheInsert] at h
    split at h
    · simpa using h
    · split at h
      · rcases List.mem_cons.1 h with h | h
        · exact .inl h
        · exact .inr (List.mem_cons_of_mem _ h)
      · rcases List.mem_cons.1 h with h | h
        · exact .inr (by simp [h])
        · exact (ih h).imp_right (List.mem_cons_of_mem _)

theorem cacheInsert_sorted {rate : Word} {v : List F32} {es : List (Word × List F32)}
    (h : (es.map Prod.fst).Pairwise (· < ·)) :
    ((cacheInsert rate v es).map Prod.fst).Pairwise (· < ·) := by
  induction es with
  | nil => simp [cacheInsert]
  | cons e es ih =>
    obtain ⟨r, w⟩ := e
    simp only [List.map_cons, List.pairwise_cons] at h
    simp only [cacheInsert]
    split
    · next hlt =>
      simp only [List.map_cons, List.pairwise_cons]
      refine ⟨?_, h⟩
      intro x hx
      rcases List.mem_cons.1 hx with rfl | hx
      · exact hlt
      · exact BitVec.lt_trans hlt (h.1 x hx)
    · split
      · next heq => subst heq; simpa using h
      · next hlt hne =>
        simp only [List.map_cons, List.pairwise_cons]
        refine ⟨?_, ih h.2⟩
        intro x hx
        obtain ⟨e, he, rfl⟩ := List.mem_map.1 hx
        rcases mem_cacheInsert he with rfl | he
        · simp only [BitVec.lt_def] at *
          have : r.toNat ≠ rate.toNat := fun h => hne (BitVec.eq_of_toNat_eq h)
          omega
        · exact h.1 _ (List.mem_map_of_mem he)

/-- All FilterFor can do (rule R150): a hit changes nothing; a miss counts one DESIGN call, and stores
and answers a good design or answers none. -/
theorem filterFor_cases (P : Config.Params) (rate : Word) (c : CacheState) :
    (∃ v, cacheFind rate c.entries = some v ∧ filterFor P rate c = (c, some v)) ∨
    (∃ v, cacheFind rate c.entries = none ∧ design P rate = some v ∧ designOk P v = true ∧
      filterFor P rate c =
        ({ entries := cacheInsert rate v c.entries, designCount := c.designCount + 1 }, some v)) ∨
    (cacheFind rate c.entries = none ∧ (∀ v, design P rate = some v → designOk P v = false) ∧
      filterFor P rate c = ({ c with designCount := c.designCount + 1 }, none)) := by
  cases hf : cacheFind rate c.entries with
  | some v => exact .inl ⟨v, rfl, by simp [filterFor, hf]⟩
  | none =>
    cases hd : design P rate with
    | none => exact .inr (.inr ⟨rfl, by simp, by simp [filterFor, hf, hd]⟩)
    | some v =>
      cases ho : designOk P v with
      | true => exact .inr (.inl ⟨v, rfl, rfl, ho, by simp [filterFor, hf, hd, ho]⟩)
      | false => exact .inr (.inr ⟨rfl, by simpa using ho, by simp [filterFor, hf, hd, ho]⟩)

end Sys2Proof.Machine
end

