-- ==== Sys2Proof/Laws/State.lean ====
section
/-! SUPPORT. One lemma per field of `State` for each named update, so that no proof unfolds a record
update. -/

namespace Sys2Proof.Machine

/-! `emit` appends one record to the trace. -/

@[simp] theorem emit_params (r : Record) (s : State) : (emit r s).params = s.params := rfl
@[simp] theorem emit_rst (r : Record) (s : State) : (emit r s).rst = s.rst := rfl
@[simp] theorem emit_phase (r : Record) (s : State) : (emit r s).phase = s.phase := rfl
@[simp] theorem emit_cmd (r : Record) (s : State) : (emit r s).cmd = s.cmd := rfl
@[simp] theorem emit_trace (r : Record) (s : State) : (emit r s).trace = s.trace ++ [r] := rfl
@[simp] theorem emit_flags (r : Record) (s : State) : (emit r s).flags = s.flags := rfl
@[simp] theorem emit_rate (r : Record) (s : State) : (emit r s).rate = s.rate := rfl
@[simp] theorem emit_filter (r : Record) (s : State) : (emit r s).filter = s.filter := rfl
@[simp] theorem emit_cache (r : Record) (s : State) : (emit r s).cache = s.cache := rfl
@[simp] theorem emit_power (r : Record) (s : State) : (emit r s).power = s.power := rfl
@[simp] theorem emit_agc (r : Record) (s : State) : (emit r s).agc = s.agc := rfl
@[simp] theorem emit_loop (r : Record) (s : State) : (emit r s).loop = s.loop := rfl
@[simp] theorem emit_timing (r : Record) (s : State) : (emit r s).timing = s.timing := rfl
@[simp] theorem emit_dibitCount (r : Record) (s : State) : (emit r s).dibitCount = s.dibitCount := rfl
@[simp] theorem emit_registry (r : Record) (s : State) : (emit r s).registry = s.registry := rfl
@[simp] theorem emit_asm (r : Record) (s : State) : (emit r s).asm = s.asm := rfl
@[simp] theorem emit_listeners (r : Record) (s : State) : (emit r s).listeners = s.listeners := rfl
@[simp] theorem emit_currentTime (r : Record) (s : State) :
    (emit r s).currentTime = s.currentTime := rfl

/-! `finish` writes CMD_ERR, the last status and one RESP record. -/

@[simp] theorem finish_params (op : Byte) (st : Status) (s : State) :
    (finish op st s).params = s.params := rfl
@[simp] theorem finish_rst (op : Byte) (st : Status) (s : State) : (finish op st s).rst = s.rst := rfl
@[simp] theorem finish_phase (op : Byte) (st : Status) (s : State) :
    (finish op st s).phase = s.phase := rfl
@[simp] theorem finish_cmd (op : Byte) (st : Status) (s : State) : (finish op st s).cmd = s.cmd := rfl
@[simp] theorem finish_trace (op : Byte) (st : Status) (s : State) :
    (finish op st s).trace = s.trace ++ [.resp op (statusCode st)] := rfl
@[simp] theorem finish_flags (op : Byte) (st : Status) (s : State) :
    (finish op st s).flags = { s.flags with
      cmdErr := s.flags.cmdErr || isErrorCode (statusCode st)
      lastStatus := if op = opReadReg then s.flags.lastStatus else statusCode st } := rfl
@[simp] theorem finish_rate (op : Byte) (st : Status) (s : State) :
    (finish op st s).rate = s.rate := rfl
@[simp] theorem finish_filter (op : Byte) (st : Status) (s : State) :
    (finish op st s).filter = s.filter := rfl
@[simp] theorem finish_cache (op : Byte) (st : Status) (s : State) :
    (finish op st s).cache = s.cache := rfl
@[simp] theorem finish_power (op : Byte) (st : Status) (s : State) :
    (finish op st s).power = s.power := rfl
@[simp] theorem finish_agc (op : Byte) (st : Status) (s : State) : (finish op st s).agc = s.agc := rfl
@[simp] theorem finish_loop (op : Byte) (st : Status) (s : State) :
    (finish op st s).loop = s.loop := rfl
@[simp] theorem finish_timing (op : Byte) (st : Status) (s : State) :
    (finish op st s).timing = s.timing := rfl
@[simp] theorem finish_dibitCount (op : Byte) (st : Status) (s : State) :
    (finish op st s).dibitCount = s.dibitCount := rfl
@[simp] theorem finish_registry (op : Byte) (st : Status) (s : State) :
    (finish op st s).registry = s.registry := rfl
@[simp] theorem finish_asm (op : Byte) (st : Status) (s : State) : (finish op st s).asm = s.asm := rfl
@[simp] theorem finish_listeners (op : Byte) (st : Status) (s : State) :
    (finish op st s).listeners = s.listeners := rfl
@[simp] theorem finish_currentTime (op : Byte) (st : Status) (s : State) :
    (finish op st s).currentTime = s.currentTime := rfl

/-! `configFail` writes VALID and CFG_ERR. -/

@[simp] theorem configFail_params (s : State) : (configFail s).params = s.params := rfl
@[simp] theorem configFail_rst (s : State) : (configFail s).rst = s.rst := rfl
@[simp] theorem configFail_phase (s : State) : (configFail s).phase = s.phase := rfl
@[simp] theorem configFail_cmd (s : State) : (configFail s).cmd = s.cmd := rfl
@[simp] theorem configFail_trace (s : State) : (configFail s).trace = s.trace := rfl
@[simp] theorem configFail_flags (s : State) :
    (configFail s).flags = { s.flags with valid := false, cfgErr := true } := rfl
@[simp] theorem configFail_rate (s : State) : (configFail s).rate = s.rate := rfl
@[simp] theorem configFail_filter (s : State) : (configFail s).filter = s.filter := rfl
@[simp] theorem configFail_cache (s : State) : (configFail s).cache = s.cache := rfl
@[simp] theorem configFail_power (s : State) : (configFail s).power = s.power := rfl
@[simp] theorem configFail_agc (s : State) : (configFail s).agc = s.agc := rfl
@[simp] theorem configFail_loop (s : State) : (configFail s).loop = s.loop := rfl
@[simp] theorem configFail_timing (s : State) : (configFail s).timing = s.timing := rfl
@[simp] theorem configFail_dibitCount (s : State) : (configFail s).dibitCount = s.dibitCount := rfl
@[simp] theorem configFail_registry (s : State) : (configFail s).registry = s.registry := rfl
@[simp] theorem configFail_asm (s : State) : (configFail s).asm = s.asm := rfl
@[simp] theorem configFail_listeners (s : State) : (configFail s).listeners = s.listeners := rfl
@[simp] theorem configFail_currentTime (s : State) : (configFail s).currentTime = s.currentTime := rfl

/-! `applyConfig` writes what the rate and the filter determine. -/

@[simp] theorem applyConfig_params (rate : Word) (v : List F32) (s : State) :
    (applyConfig rate v s).params = s.params := rfl
@[simp] theorem applyConfig_rst (rate : Word) (v : List F32) (s : State) :
    (applyConfig rate v s).rst = s.rst := rfl
@[simp] theorem applyConfig_phase (rate : Word) (v : List F32) (s : State) :
    (applyConfig rate v s).phase = s.phase := rfl
@[simp] theorem applyConfig_cmd (rate : Word) (v : List F32) (s : State) :
    (applyConfig rate v s).cmd = s.cmd := rfl
@[simp] theorem applyConfig_trace (rate : Word) (v : List F32) (s : State) :
    (applyConfig rate v s).trace = s.trace := rfl
@[simp] theorem applyConfig_flags (rate : Word) (v : List F32) (s : State) :
    (applyConfig rate v s).flags = { s.flags with valid := true } := rfl
@[simp] theorem applyConfig_rate (rate : Word) (v : List F32) (s : State) :
    (applyConfig rate v s).rate = rateFor s.params rate := rfl
@[simp] theorem applyConfig_filter (rate : Word) (v : List F32) (s : State) :
    (applyConfig rate v s).filter = installFilter v := rfl
@[simp] theorem applyConfig_cache (rate : Word) (v : List F32) (s : State) :
    (applyConfig rate v s).cache = s.cache := rfl
@[simp] theorem applyConfig_power (rate : Word) (v : List F32) (s : State) :
    (applyConfig rate v s).power = powerReconfigure s.params rate s.power := rfl
@[simp] theorem applyConfig_agc (rate : Word) (v : List F32) (s : State) :
    (applyConfig rate v s).agc = s.agc := rfl
@[simp] theorem applyConfig_loop (rate : Word) (v : List F32) (s : State) :
    (applyConfig rate v s).loop = loopReset s.params { s.loop with omegaMax := omegaMaxFor s.params rate } := rfl
@[simp] theorem applyConfig_timing (rate : Word) (v : List F32) (s : State) :
    (applyConfig rate v s).timing = timingRebuild (rateFor s.params rate).half := rfl
@[simp] theorem applyConfig_dibitCount (rate : Word) (v : List F32) (s : State) :
    (applyConfig rate v s).dibitCount = s.dibitCount := rfl
@[simp] theorem applyConfig_registry (rate : Word) (v : List F32) (s : State) :
    (applyConfig rate v s).registry = attachFramer s.registry := rfl
@[simp] theorem applyConfig_asm (rate : Word) (v : List F32) (s : State) :
    (applyConfig rate v s).asm = s.asm := rfl
@[simp] theorem applyConfig_listeners (rate : Word) (v : List F32) (s : State) :
    (applyConfig rate v s).listeners = s.listeners := rfl
@[simp] theorem applyConfig_currentTime (rate : Word) (v : List F32) (s : State) :
    (applyConfig rate v s).currentTime = s.currentTime := rfl

/-! `acceptTime` writes the current time and TS_REGRESS. -/

@[simp] theorem acceptTime_params (ts : BitVec 64) (s : State) :
    (acceptTime ts s).params = s.params := rfl
@[simp] theorem acceptTime_rst (ts : BitVec 64) (s : State) : (acceptTime ts s).rst = s.rst := rfl
@[simp] theorem acceptTime_phase (ts : BitVec 64) (s : State) : (acceptTime ts s).phase = s.phase := rfl
@[simp] theorem acceptTime_cmd (ts : BitVec 64) (s : State) : (acceptTime ts s).cmd = s.cmd := rfl
@[simp] theorem acceptTime_trace (ts : BitVec 64) (s : State) : (acceptTime ts s).trace = s.trace := rfl
@[simp] theorem acceptTime_flags (ts : BitVec 64) (s : State) :
    (acceptTime ts s).flags = { s.flags with tsRegress := s.flags.tsRegress || regresses ts s } := rfl
@[simp] theorem acceptTime_rate (ts : BitVec 64) (s : State) : (acceptTime ts s).rate = s.rate := rfl
@[simp] theorem acceptTime_filter (ts : BitVec 64) (s : State) :
    (acceptTime ts s).filter = s.filter := rfl
@[simp] theorem acceptTime_cache (ts : BitVec 64) (s : State) : (acceptTime ts s).cache = s.cache := rfl
@[simp] theorem acceptTime_power (ts : BitVec 64) (s : State) : (acceptTime ts s).power = s.power := rfl
@[simp] theorem acceptTime_agc (ts : BitVec 64) (s : State) : (acceptTime ts s).agc = s.agc := rfl
@[simp] theorem acceptTime_loop (ts : BitVec 64) (s : State) : (acceptTime ts s).loop = s.loop := rfl
@[simp] theorem acceptTime_timing (ts : BitVec 64) (s : State) :
    (acceptTime ts s).timing = s.timing := rfl
@[simp] theorem acceptTime_dibitCount (ts : BitVec 64) (s : State) :
    (acceptTime ts s).dibitCount = s.dibitCount := rfl
@[simp] theorem acceptTime_registry (ts : BitVec 64) (s : State) :
    (acceptTime ts s).registry = s.registry := rfl
@[simp] theorem acceptTime_asm (ts : BitVec 64) (s : State) : (acceptTime ts s).asm = s.asm := rfl
@[simp] theorem acceptTime_listeners (ts : BitVec 64) (s : State) :
    (acceptTime ts s).listeners = s.listeners := rfl
@[simp] theorem acceptTime_currentTime (ts : BitVec 64) (s : State) :
    (acceptTime ts s).currentTime = ts := rfl

/-! `gardnerShift` writes the previous sample and the strobe distance. -/

@[simp] theorem gardnerShift_params (z : Cplx) (s : State) : (gardnerShift z s).params = s.params := rfl
@[simp] theorem gardnerShift_rst (z : Cplx) (s : State) : (gardnerShift z s).rst = s.rst := rfl
@[simp] theorem gardnerShift_phase (z : Cplx) (s : State) : (gardnerShift z s).phase = s.phase := rfl
@[simp] theorem gardnerShift_cmd (z : Cplx) (s : State) : (gardnerShift z s).cmd = s.cmd := rfl
@[simp] theorem gardnerShift_trace (z : Cplx) (s : State) : (gardnerShift z s).trace = s.trace := rfl
@[simp] theorem gardnerShift_flags (z : Cplx) (s : State) : (gardnerShift z s).flags = s.flags := rfl
@[simp] theorem gardnerShift_rate (z : Cplx) (s : State) : (gardnerShift z s).rate = s.rate := rfl
@[simp] theorem gardnerShift_filter (z : Cplx) (s : State) : (gardnerShift z s).filter = s.filter := rfl
@[simp] theorem gardnerShift_cache (z : Cplx) (s : State) : (gardnerShift z s).cache = s.cache := rfl
@[simp] theorem gardnerShift_power (z : Cplx) (s : State) : (gardnerShift z s).power = s.power := rfl
@[simp] theorem gardnerShift_agc (z : Cplx) (s : State) : (gardnerShift z s).agc = s.agc := rfl
@[simp] theorem gardnerShift_loop (z : Cplx) (s : State) : (gardnerShift z s).loop = s.loop := rfl
@[simp] theorem gardnerShift_timing (z : Cplx) (s : State) :
    (gardnerShift z s).timing = { s.timing with tau := fSub s.timing.tau fOne, gPrev := z } := rfl
@[simp] theorem gardnerShift_dibitCount (z : Cplx) (s : State) :
    (gardnerShift z s).dibitCount = s.dibitCount := rfl
@[simp] theorem gardnerShift_registry (z : Cplx) (s : State) :
    (gardnerShift z s).registry = s.registry := rfl
@[simp] theorem gardnerShift_asm (z : Cplx) (s : State) : (gardnerShift z s).asm = s.asm := rfl
@[simp] theorem gardnerShift_listeners (z : Cplx) (s : State) :
    (gardnerShift z s).listeners = s.listeners := rfl
@[simp] theorem gardnerShift_currentTime (z : Cplx) (s : State) :
    (gardnerShift z s).currentTime = s.currentTime := rfl

/-! `hardReset` keeps the parameters, the port and the trace. -/

@[simp] theorem hardReset_params (s : State) : (hardReset s).params = s.params := rfl
@[simp] theorem hardReset_rst (s : State) : (hardReset s).rst = .asserted := rfl
@[simp] theorem hardReset_phase (s : State) :
    (hardReset s).phase = (State.resetWith s.params).phase := rfl
@[simp] theorem hardReset_cmd (s : State) : (hardReset s).cmd = s.cmd := rfl
@[simp] theorem hardReset_trace (s : State) : (hardReset s).trace = s.trace := rfl
@[simp] theorem hardReset_flags (s : State) :
    (hardReset s).flags = (State.resetWith s.params).flags := rfl
@[simp] theorem hardReset_rate (s : State) : (hardReset s).rate = (State.resetWith s.params).rate := rfl
@[simp] theorem hardReset_filter (s : State) :
    (hardReset s).filter = (State.resetWith s.params).filter := rfl
@[simp] theorem hardReset_cache (s : State) :
    (hardReset s).cache = (State.resetWith s.params).cache := rfl
@[simp] theorem hardReset_power (s : State) :
    (hardReset s).power = (State.resetWith s.params).power := rfl
@[simp] theorem hardReset_agc (s : State) : (hardReset s).agc = (State.resetWith s.params).agc := rfl
@[simp] theorem hardReset_loop (s : State) : (hardReset s).loop = (State.resetWith s.params).loop := rfl
@[simp] theorem hardReset_timing (s : State) :
    (hardReset s).timing = (State.resetWith s.params).timing := rfl
@[simp] theorem hardReset_dibitCount (s : State) :
    (hardReset s).dibitCount = (State.resetWith s.params).dibitCount := rfl
@[simp] theorem hardReset_registry (s : State) :
    (hardReset s).registry = (State.resetWith s.params).registry := rfl
@[simp] theorem hardReset_asm (s : State) : (hardReset s).asm = (State.resetWith s.params).asm := rfl
@[simp] theorem hardReset_listeners (s : State) :
    (hardReset s).listeners = (State.resetWith s.params).listeners := rfl
@[simp] theorem hardReset_currentTime (s : State) :
    (hardReset s).currentTime = (State.resetWith s.params).currentTime := rfl

end Sys2Proof.Machine
end

