-- ==== Sys2Proof/Laws/Ops.lean ====
section
/-! SUPPORT. What each shared operation can do, said once: how a command ends, the reserved-bit check,
per-sample stages, and the delivery of a byte buffer. -/

namespace Sys2Proof.Machine

open Sys2Proof.Safety

/-! ## How a command ends -/

theorem finish_ok_eq {op : Byte} (h : op ≠ opReadReg) (s : State) : finish op .ok s = endOk op s := by
  simp [finish, emit, endOk, statusCode, isErrorCode, h]

theorem finish_readReg_ok_eq (s : State) :
    finish opReadReg .ok s = { s with trace := s.trace ++ [.resp opReadReg 0x00#8] } := by
  simp [finish, emit, statusCode, isErrorCode]

theorem finish_error_eq {op : Byte} (h : op ≠ opReadReg) {st : Status}
    (he : isErrorCode (statusCode st) = true) (s : State) :
    finish op st s = endRejected op (statusCode st) s := by
  simp [finish, emit, endRejected, he, h]

theorem finish_readReg_error_eq {st : Status} (he : isErrorCode (statusCode st) = true) (s : State) :
    finish opReadReg st s =
      { s with flags := { s.flags with cmdErr := true }
               trace := s.trace ++ [.resp opReadReg (statusCode st)] } := by
  simp [finish, emit, he]

theorem complete_ok_eq {op : Byte} (h : op ≠ opReadReg) (s : State) :
    complete op .ok s = .next (endOk op s) := by rw [complete, finish_ok_eq h]

theorem reject_eq {op : Byte} (h : op ≠ opReadReg) {st : Status}
    (he : isErrorCode (statusCode st) = true) (s : State) :
    reject op st s = .next (endRejected op (statusCode st) s) := by rw [reject, finish_error_eq h he]

/-- The error codes are the codes of every status but OK and OK_TS_REGRESS. -/
theorem isErrorCode_statusCode (st : Status) :
    isErrorCode (statusCode st) = decide (st ≠ .ok ∧ st ≠ .okTsRegress) := by
  cases st <;> decide

theorem statusCode_le (st : Status) : (statusCode st).toNat ≤ 0x0A := by cases st <;> decide

/-- The status codes are distinct. -/
theorem statusCode_injective {a b : Status} (h : statusCode a = statusCode b) : a = b := by
  revert h; cases a <;> cases b <;> decide

/-! ## The reserved-bit check -/

@[simp] theorem whenReservedZero_zero {n : Nat} (op : Byte) (s : State)
    (k : Host.Outcome State Fault Refusal) : whenReservedZero op (0 : BitVec n) s k = k := by
  simp [whenReservedZero]

theorem whenReservedZero_of_ne {n : Nat} {resv : BitVec n} (h : resv ≠ 0) (op : Byte) (s : State)
    (k : Host.Outcome State Fault Refusal) :
    whenReservedZero op resv s k = reject op .badArg s := by
  simp only [whenReservedZero, if_neg h]

/-- Either the reserved bits are 0 and the command is carried out, or it is rejected. -/
theorem whenReservedZero_cases {n : Nat} (op : Byte) (resv : BitVec n) (s : State)
    (k : Host.Outcome State Fault Refusal) :
    (resv = 0 ∧ whenReservedZero op resv s k = k) ∨
      (resv ≠ 0 ∧ whenReservedZero op resv s k = .next (finish op .badArg s)) := by
  by_cases h : resv = 0
  · exact .inl ⟨h, by simp only [whenReservedZero, if_pos h]⟩
  · exact .inr ⟨h, by rw [whenReservedZero_of_ne h, reject]⟩

/-! ## Per-sample stages -/

@[simp] theorem runStage_nil {σ α β : Type} (f : σ → α → σ × β) (st : σ) :
    runStage f st [] = (st, []) := rfl

theorem runStage_cons {σ α β : Type} (f : σ → α → σ × β) (st : σ) (x : α) (xs : List α) :
    runStage f st (x :: xs) =
      ((runStage f (f st x).1 xs).1, (f st x).2 :: (runStage f (f st x).1 xs).2) := rfl

/-- A stage gives one output per input (rules R148, R184). -/
@[simp] theorem runStage_length {σ α β : Type} (f : σ → α → σ × β) (st : σ) (xs : List α) :
    (runStage f st xs).2.length = xs.length := by
  induction xs generalizing st with
  | nil => rfl
  | cons x xs ih => simp [runStage_cons, ih]

/-- A stage's state is the fold of its per-sample state. -/
theorem runStage_fst {σ α β : Type} (f : σ → α → σ × β) (st : σ) (xs : List α) :
    (runStage f st xs).1 = xs.foldl (fun st x => (f st x).1) st := by
  induction xs generalizing st with
  | nil => rfl
  | cons x xs ih => simp [runStage_cons, ih]

/-- A stage over a block cut in two goes on from where the first part left it. -/
theorem runStage_append {σ α β : Type} (f : σ → α → σ × β) (st : σ) (xs ys : List α) :
    runStage f st (xs ++ ys) =
      ((runStage f (runStage f st xs).1 ys).1,
        (runStage f st xs).2 ++ (runStage f (runStage f st xs).1 ys).2) := by
  induction xs generalizing st with
  | nil => rfl
  | cons x xs ih => simp [runStage_cons, ih]

/-- What holds of a stage's state and is kept by each sample holds after the block. -/
theorem runStage_keeps {σ α β : Type} {f : σ → α → σ × β} {I : σ → Prop}
    (hk : ∀ st x, I st → I (f st x).1) (xs : List α) {st : σ} (h : I st) : I (runStage f st xs).1 := by
  induction xs generalizing st with
  | nil => exact h
  | cons x xs ih => exact ih (hk _ _ h)

/-! ## Byte buffers -/

/-- One BUF record per listener, in registration order, and nothing else (rule R293). -/
theorem deliverBuffer_eq (bytes : List Byte) (s : State) :
    deliverBuffer bytes s =
      { s with trace := s.trace ++ s.listeners.bufListeners.map (fun id => .buf id bytes) } := by
  have h : ∀ (ls : List Byte) (t : State),
      ls.foldl (fun t id => emit (.buf id bytes) t) t =
        { t with trace := t.trace ++ ls.map (fun id => .buf id bytes) } := by
    intro ls
    induction ls with
    | nil => intro t; simp
    | cons l ls ih => intro t; rw [List.foldl_cons, ih]; simp [emit]
  exact h _ _

end Sys2Proof.Machine
end

