-- ==== Sys2Proof/Laws/Frames.lean ====
section
/-! SUPPORT. What the stages of RECEIVE_BLOCK leave alone. Each stage's lemma says once all that the
stage may change; the commands' frames follow from them. -/

namespace Sys2Proof.Machine

open Sys2Proof.Safety

/-! ## Symbol processing -/

/-- A record that a dibit's distribution may emit in state `s` (rules R280, R293, R340). -/
def DeliveryRecord (s : State) : Record → Prop
  | .resp _ _ => False
  | .data _ => False
  | .event _ _ _ => False
  | .tap id _ => Consumer.tap id ∈ s.registry.consumers
  | .framerIn gen _ time => gen = s.registry.framerGen ∧ time = s.currentTime
  | .buf id _ => id ∈ s.listeners.bufListeners

/-- All that symbol processing may change: the loop's phase, frequency and lock, the timing, the dibit
count, the assembler, and the trace by delivery records. -/
structure SymbolFrame (s t : State) : Prop where
  params : t.params = s.params
  rst : t.rst = s.rst
  phase : t.phase = s.phase
  cmd : t.cmd = s.cmd
  trace : ∃ recs, t.trace = s.trace ++ recs ∧ ∀ r ∈ recs, DeliveryRecord s r
  flags : t.flags = s.flags
  rate : t.rate = s.rate
  filter : t.filter = s.filter
  cache : t.cache = s.cache
  power : t.power = s.power
  agc : t.agc = s.agc
  bwCur : t.loop.bwCur = s.loop.bwCur
  omegaMax : t.loop.omegaMax = s.loop.omegaMax
  registry : t.registry = s.registry
  listeners : t.listeners = s.listeners
  currentTime : t.currentTime = s.currentTime

theorem DeliveryRecord.congr {s t : State} (hr : t.registry = s.registry)
    (hl : t.listeners = s.listeners) (hc : t.currentTime = s.currentTime) (r : Record) :
    DeliveryRecord t r ↔ DeliveryRecord s r := by
  cases r <;> simp [DeliveryRecord, hr, hl, hc]

theorem DeliveryRecord.not_resp {s : State} {r : Record} (h : DeliveryRecord s r) : isResp r = false := by
  cases r <;> simp_all [DeliveryRecord, isResp]

theorem DeliveryRecord.not_event {s : State} {r : Record} (h : DeliveryRecord s r) :
    isEvent r = false := by
  cases r <;> simp_all [DeliveryRecord, isEvent]

theorem SymbolFrame.refl (s : State) : SymbolFrame s s := by
  constructor <;> first | rfl | exact ⟨[], by simp, by simp⟩

theorem SymbolFrame.trans {s t u : State} (a : SymbolFrame s t) (b : SymbolFrame t u) :
    SymbolFrame s u := by
  obtain ⟨ra, ha, pa⟩ := a.trace
  obtain ⟨rb, hb, pb⟩ := b.trace
  refine { params := b.params.trans a.params, rst := b.rst.trans a.rst, phase := b.phase.trans a.phase,
           cmd := b.cmd.trans a.cmd, trace := ⟨ra ++ rb, by rw [hb, ha, List.append_assoc], ?_⟩,
           flags := b.flags.trans a.flags, rate := b.rate.trans a.rate,
           filter := b.filter.trans a.filter, cache := b.cache.trans a.cache,
           power := b.power.trans a.power, agc := b.agc.trans a.agc, bwCur := b.bwCur.trans a.bwCur,
           omegaMax := b.omegaMax.trans a.omegaMax, registry := b.registry.trans a.registry,
           listeners := b.listeners.trans a.listeners, currentTime := b.currentTime.trans a.currentTime }
  intro r hr
  rcases List.mem_append.1 hr with h | h
  · exact pa r h
  · exact (DeliveryRecord.congr a.registry a.listeners a.currentTime r).1 (pb r h)

/-- A fold of steps that each keep the frame keeps it. -/
theorem SymbolFrame.foldl {α : Type} {f : State → α → State} (h : ∀ s x, SymbolFrame s (f s x))
    (xs : List α) (s : State) : SymbolFrame s (xs.foldl f s) := by
  induction xs generalizing s with
  | nil => exact .refl s
  | cons x xs ih => exact (h s x).trans (ih _)

/-- The frame as one equation between states. -/
theorem SymbolFrame.eq {s t : State} (h : SymbolFrame s t) :
    t = { s with
          loop := { t.loop with bwCur := s.loop.bwCur, omegaMax := s.loop.omegaMax }
          timing := t.timing
          dibitCount := t.dibitCount
          asm := t.asm
          trace := t.trace } := by
  cases h
  obtain ⟨_, _, _, _, _, _, _, _, _, _, _, ⟨_, _, _, _, _⟩, _, _, _, _, _, _⟩ := t
  simp_all

/-- A change of the symbol-processing fields alone. -/
theorem SymbolFrame.ofFields (s : State) (l : LoopState) (ti : TimingState) (n : Word)
    (a : AssemblerState) (hb : l.bwCur = s.loop.bwCur) (ho : l.omegaMax = s.loop.omegaMax) :
    SymbolFrame s { s with loop := l, timing := ti, dibitCount := n, asm := a } := by
  constructor <;> first | rfl | exact hb | exact ho | exact ⟨[], by simp, by simp⟩

theorem deliverBuffer_frame (bytes : List Byte) (s : State) : SymbolFrame s (deliverBuffer bytes s) := by
  rw [deliverBuffer_eq]
  constructor <;> first | rfl | skip
  refine ⟨_, rfl, ?_⟩
  intro r hr
  obtain ⟨id, hid, rfl⟩ := List.mem_map.1 hr
  exact hid

theorem finishBuffer_frame (s : State) : SymbolFrame s (finishBuffer s) := by
  unfold finishBuffer
  split
  · exact (deliverBuffer_frame (s.asm.buf.take s.params.bufBytes.toNat) s).trans
      (.ofFields _ _ _ _ _ rfl rfl)
  · exact .refl s

/-- Only the assembler and the trace change when a dibit is packed. -/
theorem packDibit_frame (d : Dibit) (s : State) : SymbolFrame s (packDibit d s) := by
  unfold packDibit
  dsimp only
  split
  · unfold storeByte
    exact SymbolFrame.trans (.ofFields _ _ _ _ _ rfl rfl) (finishBuffer_frame _)
  · exact .ofFields _ _ _ _ _ rfl rfl

theorem deliver_frame (d : Dibit) (s : State) (c : Consumer) (h : c ∈ s.registry.consumers) :
    SymbolFrame s (deliver d s c) := by
  cases c with
  | asm => exact packDibit_frame d s
  | framer =>
    constructor <;> first | rfl | exact ⟨_, rfl, by simp [DeliveryRecord]⟩
  | tap id =>
    constructor <;> first | rfl | exact ⟨_, rfl, by simpa [DeliveryRecord] using h⟩

theorem distribute_frame (d : Dibit) (s : State) : SymbolFrame s (distribute d s) := by
  have h : ∀ (cs : List Consumer) (t : State), (∀ c ∈ cs, c ∈ t.registry.consumers) →
      SymbolFrame t (cs.foldl (deliver d) t) := by
    intro cs
    induction cs with
    | nil => intro t _; exact .refl t
    | cons c cs ih =>
      intro t ht
      have hc := deliver_frame d t c (ht c (by simp))
      exact hc.trans (ih _ fun x hx => by rw [hc.registry]; exact ht x (by simp [hx]))
  exact h _ s fun _ h => h

/-- The state a symbol step hands to the distributor (rule R245). -/
def symbolUpdate (y : Cplx) (s : State) : State :=
  { s with
    timing := { s.timing with
      tau := fAdd (fAdd s.timing.tau s.rate.half)
        (timingAdjust s.params.kT s.rate.quarter (timingError s.timing.mid s.timing.yPrev y))
      yPrev := y }
    loop := loopUpdate s.params (phaseError (differential y s.timing.yPrev)) s.loop
    dibitCount := s.dibitCount + 1 }

theorem symbolStep_eq (y : Cplx) (s : State) :
    symbolStep y s = distribute (slice (differential y s.timing.yPrev)) (symbolUpdate y s) := rfl

theorem symbolStep_frame (y : Cplx) (s : State) : SymbolFrame s (symbolStep y s) := by
  have h : SymbolFrame s (symbolUpdate y s) := .ofFields s _ _ _ _ rfl rfl
  exact h.trans (distribute_frame _ _)

theorem strobePass_frame (z : Cplx) (s : State) : SymbolFrame s (strobePass z s) := by
  unfold strobePass
  dsimp only
  split
  · exact .ofFields _ _ _ _ _ rfl rfl
  · exact (symbolStep_frame (interpolate s.timing.tau s.timing.gPrev z) s).trans
      (.ofFields _ _ _ _ _ rfl rfl)

theorem strobeLoop_frame (n : Nat) (z : Cplx) (s : State) : SymbolFrame s (strobeLoop n z s) := by
  induction n generalizing s with
  | zero => exact .refl s
  | succ n ih =>
    unfold strobeLoop
    split
    · exact (strobePass_frame z s).trans (ih _)
    · exact .refl s

theorem gardnerPush_frame (z : Cplx) (s : State) : SymbolFrame s (gardnerPush z s) :=
  (strobeLoop_frame strobeBound z s).trans (.ofFields _ _ _ _ _ rfl rfl)

theorem demodSample_frame (s : State) (a : Cplx) : SymbolFrame s (demodSample s a) :=
  (gardnerPush_frame (derotate s.loop.phi a) s).trans (.ofFields _ _ _ _ _ rfl rfl)

/-- All that DemodBlock may change (rule R240). -/
theorem demodBlock_frame (s : State) (as : List Cplx) : SymbolFrame s (demodBlock s as) :=
  SymbolFrame.foldl demodSample_frame as s

/-! ## The strobe loop -/

/-- The loop has ended once the strobe lies beyond the new sample. -/
theorem strobeLoop_of_done {z : Cplx} {s : State} (h : fLe s.timing.tau fOne = false) (n : Nat) :
    strobeLoop n z s = s := by
  cases n <;> simp [strobeLoop, h]

theorem strobeLoop_succ {z : Cplx} {s : State} (h : fLe s.timing.tau fOne = true) (n : Nat) :
    strobeLoop (n + 1) z s = strobeLoop n z (strobePass z s) := by
  simp [strobeLoop, h]

/-- Passes add up. -/
theorem strobeLoop_add (m n : Nat) (z : Cplx) (s : State) :
    strobeLoop (m + n) z s = strobeLoop n z (strobeLoop m z s) := by
  induction m generalizing s with
  | zero => simp [strobeLoop]
  | succ m ih =>
    cases h : fLe s.timing.tau fOne with
    | true => rw [Nat.succ_add, strobeLoop_succ h, strobeLoop_succ h, ih]
    | false => simp [strobeLoop_of_done h]

/-- A bound that ends the loop may be raised. -/
theorem strobeLoop_of_le {m n : Nat} (hmn : m ≤ n) {z : Cplx} {s : State}
    (h : fLe (strobeLoop m z s).timing.tau fOne = false) :
    strobeLoop n z s = strobeLoop m z s := by
  obtain ⟨k, rfl⟩ := Nat.exists_eq_add_of_le hmn
  rw [strobeLoop_add, strobeLoop_of_done h]

/-! ## The power monitor -/

/-- The EVENT records of a sequence of power samples: one for each window they complete, if an event
listener is set (rules R172, R173). -/
def powerEvents (l : ListenerState) : PowerState → List Cplx → List Record
  | _, [] => []
  | p, f :: fs =>
    (match (powerSample p f).2 with
      | none => []
      | some est => if l.evtEn then [.event l.evtId .power est] else []) ++
    powerEvents l (powerSample p f).1 fs

theorem isEvent_of_powerEvents {l : ListenerState} {p : PowerState} {fs : List Cplx} {r : Record}
    (h : r ∈ powerEvents l p fs) : isEvent r = true := by
  induction fs generalizing p with
  | nil => simp [powerEvents] at h
  | cons f fs ih =>
    simp only [powerEvents, List.mem_append] at h
    rcases h with h | h
    · split at h
      · simp at h
      · split at h
        · simp_all [isEvent]
        · simp at h
    · exact ih h

/-- Power samples change the monitor's sum, count and last value, and emit their events, and do nothing
else. -/
theorem powerBlock_eq (s : State) (fs : List Cplx) :
    powerBlock s fs =
      { s with power := fs.foldl (fun p x => (powerSample p x).1) s.power
               trace := s.trace ++ powerEvents s.listeners s.power fs } := by
  induction fs generalizing s with
  | nil => simp [powerBlock, powerEvents]
  | cons f fs ih =>
    have hs : powerStep s f =
        { s with power := (powerSample s.power f).1
                 trace := s.trace ++ (match (powerSample s.power f).2 with
                   | none => []
                   | some est => if s.listeners.evtEn then [.event s.listeners.evtId .power est]
                     else []) } := by
      cases h : (powerSample s.power f).2 with
      | none => simp [powerStep, emitPower, h]
      | some est => cases hen : s.listeners.evtEn <;> simp [powerStep, emitPower, h, hen, emit]
    have hc : powerBlock s (f :: fs) = powerBlock (powerStep s f) fs := rfl
    rw [hc, ih, hs]
    simp [powerEvents]

@[simp] theorem powerSample_win (p : PowerState) (f : Cplx) : (powerSample p f).1.win = p.win := by
  simp only [powerSample]; split <;> rfl

@[simp] theorem powerSamples_win (p : PowerState) (fs : List Cplx) :
    (fs.foldl (fun p x => (powerSample p x).1) p).win = p.win := by
  induction fs generalizing p with
  | nil => rfl
  | cons f fs ih => simp [ih]

/-! ## The filter and the gain control -/

@[simp] theorem firBlock_h (fs : FilterState) (xs : List Cplx) : (firBlock fs xs).1.h = fs.h :=
  runStage_keeps (I := fun st : FilterState => st.h = fs.h) (fun _ _ h => h) xs rfl

@[simp] theorem firBlock_ntaps (fs : FilterState) (xs : List Cplx) :
    (firBlock fs xs).1.ntaps = fs.ntaps :=
  runStage_keeps (I := fun st : FilterState => st.ntaps = fs.ntaps) (fun _ _ h => h) xs rfl

@[simp] theorem agcSample_env_length (P : Config.Params) (a : AgcState) (x : Cplx) :
    (agcSample P a x).1.env.length = a.env.length := by simp [agcSample]

@[simp] theorem agcBlock_env_length (P : Config.Params) (a : AgcState) (fs : List Cplx) :
    (agcBlock P a fs).1.env.length = a.env.length :=
  runStage_keeps (I := fun st : AgcState => st.env.length = a.env.length)
    (fun st x h => by rw [agcSample_env_length, h]) fs rfl

/-! ## The whole block -/

/-- The datapath as its four stages, with every field it may change written out; the power monitor's
events stand before the records of the demodulator (rules R90, R145). -/
theorem datapath_eq (xs : List Cplx) (s : State) :
    ∃ recs, (∀ r ∈ recs, DeliveryRecord s r) ∧
      let f := (firBlock s.filter xs).2
      let u : State :=
        { s with
          filter := (firBlock s.filter xs).1
          power := f.foldl (fun p x => (powerSample p x).1) s.power
          agc := (agcBlock s.params s.agc f).1
          trace := s.trace ++ powerEvents s.listeners s.power f }
      let d := demodBlock u (agcBlock s.params s.agc f).2
      datapath xs s = d ∧ d.trace = s.trace ++ powerEvents s.listeners s.power f ++ recs := by
  obtain ⟨recs, ht, hr⟩ := (demodBlock_frame
        { s with
          filter := (firBlock s.filter xs).1
          power := (firBlock s.filter xs).2.foldl (fun p x => (powerSample p x).1) s.power
          agc := (agcBlock s.params s.agc (firBlock s.filter xs).2).1
          trace := s.trace ++ powerEvents s.listeners s.power (firBlock s.filter xs).2 }
        (agcBlock s.params s.agc (firBlock s.filter xs).2).2).trace
  refine ⟨recs, hr, ?_, ht⟩
  simp only [datapath, filterStage, agcStage]
  rw [powerBlock_eq]

/-! ## What symbol processing reads -/

/-- A framer record with another time; any other record as it is. -/
def retime (c : BitVec 64) : Record → Record
  | .framerIn gen d _ => .framerIn gen d c
  | .resp op st => .resp op st
  | .data w => .data w
  | .tap id d => .tap id d
  | .buf id bytes => .buf id bytes
  | .event id k v => .event id k v

/-- The state with everything replaced that symbol processing does not look at: the flags, the filter,
the power monitor, the gain control, the current time (with the times on the trace), and what stands on
the trace before. -/
def State.replaceOther (fl : StatusState) (fs : FilterState) (p : PowerState) (a : AgcState)
    (c : BitVec 64) (tr : List Record) (s : State) : State :=
  { s with
    flags := fl, filter := fs, power := p, agc := a, currentTime := c
    trace := tr ++ s.trace.map (retime c) }

section ReplaceOther

variable (fl : StatusState) (fs : FilterState) (p : PowerState) (a : AgcState) (c : BitVec 64)
  (tr : List Record)

theorem packDibit_replaceOther (d : Dibit) (s : State) :
    packDibit d (s.replaceOther fl fs p a c tr) = (packDibit d s).replaceOther fl fs p a c tr := by
  simp only [packDibit, storeByte, finishBuffer, deliverBuffer_eq, State.replaceOther]
  split
  · split <;> simp [retime]
  · simp

theorem deliver_replaceOther (d : Dibit) (s : State) (k : Consumer) :
    deliver d (s.replaceOther fl fs p a c tr) k = (deliver d s k).replaceOther fl fs p a c tr := by
  cases k with
  | asm => exact packDibit_replaceOther fl fs p a c tr d s
  | framer => simp [deliver, emit, State.replaceOther, retime]
  | tap id => simp [deliver, emit, State.replaceOther, retime]

theorem distribute_replaceOther (d : Dibit) (s : State) :
    distribute d (s.replaceOther fl fs p a c tr) =
      (distribute d s).replaceOther fl fs p a c tr := by
  have h : ∀ (ks : List Consumer) (t : State),
      ks.foldl (deliver d) (t.replaceOther fl fs p a c tr) =
        (ks.foldl (deliver d) t).replaceOther fl fs p a c tr := by
    intro ks
    induction ks with
    | nil => intro t; rfl
    | cons k ks ih => intro t; rw [List.foldl_cons, deliver_replaceOther, ih, List.foldl_cons]
  exact h _ s

theorem symbolStep_replaceOther (y : Cplx) (s : State) :
    symbolStep y (s.replaceOther fl fs p a c tr) =
      (symbolStep y s).replaceOther fl fs p a c tr :=
  distribute_replaceOther fl fs p a c tr (slice (differential y s.timing.yPrev)) (symbolUpdate y s)

theorem strobePass_replaceOther (z : Cplx) (s : State) :
    strobePass z (s.replaceOther fl fs p a c tr) =
      (strobePass z s).replaceOther fl fs p a c tr := by
  have hs := symbolStep_replaceOther fl fs p a c tr (interpolate s.timing.tau s.timing.gPrev z) s
  have ht : (s.replaceOther fl fs p a c tr).timing = s.timing := rfl
  have hr : (s.replaceOther fl fs p a c tr).rate = s.rate := rfl
  cases h : s.timing.kind with
  | mid => simp only [strobePass, ht, hr, h]; rfl
  | ontime => simp only [strobePass, ht, h, hs]; rfl

theorem strobeLoop_replaceOther (n : Nat) (z : Cplx) (s : State) :
    strobeLoop n z (s.replaceOther fl fs p a c tr) =
      (strobeLoop n z s).replaceOther fl fs p a c tr := by
  induction n generalizing s with
  | zero => rfl
  | succ n ih =>
    have ht : (s.replaceOther fl fs p a c tr).timing = s.timing := rfl
    cases h : fLe s.timing.tau fOne with
    | true =>
      rw [strobeLoop_succ h, strobeLoop_succ (by rw [ht]; exact h), strobePass_replaceOther, ih]
    | false => rw [strobeLoop_of_done h, strobeLoop_of_done (by rw [ht]; exact h)]

theorem demodSample_replaceOther (s : State) (x : Cplx) :
    demodSample (s.replaceOther fl fs p a c tr) x =
      (demodSample s x).replaceOther fl fs p a c tr := by
  have hl : (s.replaceOther fl fs p a c tr).loop = s.loop := rfl
  simp only [demodSample, gardnerPush, hl, strobeLoop_replaceOther]
  rfl

/-- DemodBlock neither reads nor writes what `State.replaceOther` replaces, but for the times of the
framer records. -/
theorem demodBlock_replaceOther (s : State) (xs : List Cplx) :
    demodBlock (s.replaceOther fl fs p a c tr) xs =
      (demodBlock s xs).replaceOther fl fs p a c tr := by
  unfold demodBlock
  induction xs generalizing s with
  | nil => rfl
  | cons x xs ih => rw [List.foldl_cons, demodSample_replaceOther, ih, List.foldl_cons]

end ReplaceOther

end Sys2Proof.Machine
end

