-- ==== Sys2Proof/Laws/Commands.lean ====
section
/-! SUPPORT. What each command can do, by cases: rejected, or carried out with the state it leaves.
Proofs cite these and unfold no meaning. -/

namespace Sys2Proof.Machine

open Sys2Proof.Safety

/-! ## Configuration -/

/-- All Configure can do (rule R323). -/
theorem configure_cases (rate : Word) (s : State) :
    (rateValid s.params rate = false ∧ configure rate s = (s, false)) ∨
    (rateValid s.params rate = true ∧ cacheFind rate s.cache.entries = none ∧
      (∀ v, design s.params rate = some v → designOk s.params v = false) ∧
      configure rate s =
        ({ s with cache := { s.cache with designCount := s.cache.designCount + 1 } }, false)) ∨
    (rateValid s.params rate = true ∧ ∃ v, cacheFind rate s.cache.entries = some v ∧
      configure rate s = (applyConfig rate v s, true)) ∨
    (rateValid s.params rate = true ∧ cacheFind rate s.cache.entries = none ∧
      ∃ v, design s.params rate = some v ∧ designOk s.params v = true ∧
        configure rate s =
          (applyConfig rate v
            { s with cache := { entries := cacheInsert rate v s.cache.entries
                                designCount := s.cache.designCount + 1 } }, true)) := by
  cases hr : rateValid s.params rate with
  | false => exact .inl ⟨rfl, by simp [configure, hr]⟩
  | true =>
    right
    rcases filterFor_cases s.params rate s.cache with ⟨v, hf, he⟩ | ⟨v, hf, hd, ho, he⟩ | ⟨hf, hd, he⟩
    · exact .inr (.inl ⟨rfl, v, hf, by simp [configure, hr, he]⟩)
    · exact .inr (.inr ⟨rfl, hf, v, hd, ho, by simp [configure, hr, he]⟩)
    · exact .inl ⟨rfl, hf, hd, by simp [configure, hr, he]⟩

/-- All SET_SAMPLE_RATE can do, by how Configure ends (rule R320). -/
theorem execSetSampleRate_cases (resv : BitVec 24) (rate : Word) (s : State) :
    (resv ≠ 0 ∧ execSetSampleRate resv rate s = .next (finish 0x02#8 .badArg s)) ∨
    (resv = 0 ∧ ∃ t, configure rate s = (t, false) ∧
      execSetSampleRate resv rate s = .next (finish 0x02#8 .config (configFail t))) ∨
    (resv = 0 ∧ ∃ t, configure rate s = (t, true) ∧
      execSetSampleRate resv rate s = .next (finish 0x02#8 .ok t)) := by
  rcases whenReservedZero_cases 0x02#8 resv s
    (match configure rate s with
     | (t, true) => complete 0x02#8 .ok t
     | (t, false) => complete 0x02#8 .config (configFail t)) with ⟨h, e⟩ | ⟨h, e⟩
  · right
    obtain ⟨⟨t, b⟩, hc⟩ : ∃ p, configure rate s = p := ⟨_, rfl⟩
    rw [hc] at e
    cases b with
    | false => exact .inl ⟨h, t, hc, by rw [execSetSampleRate, hc, e]; rfl⟩
    | true => exact .inr ⟨h, t, hc, by rw [execSetSampleRate, hc, e]; rfl⟩
  · exact .inl ⟨h, e⟩

/-! ## RECEIVE_BLOCK -/

theorem sampleFinite_all (xs : List Cplx) :
    xs.all sampleFinite = true ↔ ∀ x ∈ xs, isFinite x.re = true ∧ isFinite x.im = true := by
  simp [sampleFinite]

/-- All RECEIVE_BLOCK can do (rule R140): three rejections, or the datapath from the new time on. -/
theorem execReceiveBlock_cases (ts : BitVec 64) (xs : List Cplx) (s : State) :
    (xs = [] ∧ execReceiveBlock ts xs s = .next (finish 0x01#8 .emptyBlock s)) ∨
    (xs ≠ [] ∧ s.flags.valid = false ∧
      execReceiveBlock ts xs s = .next (finish 0x01#8 .notConfigured s)) ∨
    (xs ≠ [] ∧ s.flags.valid = true ∧ xs.all sampleFinite = false ∧
      execReceiveBlock ts xs s = .next (finish 0x01#8 .nonfinite s)) ∨
    (xs ≠ [] ∧ s.flags.valid = true ∧ xs.all sampleFinite = true ∧
      execReceiveBlock ts xs s =
        .next (finish 0x01#8 (if regresses ts s then .okTsRegress else .ok)
          (datapath xs (acceptTime ts s)))) := by
  by_cases hx : xs = []
  · exact .inl ⟨hx, by simp only [execReceiveBlock, if_pos hx, reject]⟩
  · right
    cases hv : s.flags.valid with
    | false => exact .inl ⟨hx, rfl, by simp [execReceiveBlock, hx, hv, reject]⟩
    | true =>
      right
      cases hf : xs.all sampleFinite with
      | false => exact .inl ⟨hx, rfl, rfl, by simp [execReceiveBlock, hx, hv, hf, reject]⟩
      | true => exact .inr ⟨hx, rfl, rfl, by simp [execReceiveBlock, hx, hv, hf, complete]⟩

/-! ## Every command -/

/-- How the state `u` on which a command is ended with status `st` may differ from the state `s` it found:
the parameters, the ports' inputs and the last status are as before, the trace has grown by records that
are no RESP, and under an error code nothing differs but a failed configuration's marks. -/
structure CommandFrame (i : Instr) (s : State) (st : Status) (u : State) : Prop where
  params : u.params = s.params
  rst : u.rst = s.rst
  phase : u.phase = s.phase
  cmd : u.cmd = s.cmd
  trace : ∃ recs, u.trace = s.trace ++ recs ∧ ∀ r ∈ recs, isResp r = false
  rejected : isErrorCode (statusCode st) = true →
    u = s ∨ (st = .config ∧ ∃ n,
      u = configFail { s with cache := { s.cache with designCount := n } })
  lastStatus : u.flags.lastStatus = s.flags.lastStatus

/-- A command that changes no field but the registry, the listeners, the loop or the flags. -/
theorem CommandFrame.ofFields (i : Instr) (s : State) (r : RegistryState) (l : ListenerState)
    (lp : LoopState) (f : StatusState) (hf : f.lastStatus = s.flags.lastStatus) :
    CommandFrame i s .ok { s with registry := r, listeners := l, loop := lp, flags := f } := by
  constructor <;> first | rfl | exact hf | exact ⟨[], by simp, by simp⟩ | skip
  intro h
  exact absurd h (by decide)

theorem CommandFrame.rejectedWith (i : Instr) (s : State) (st : Status) : CommandFrame i s st s := by
  constructor <;> first | rfl | exact ⟨[], by simp, by simp⟩ | exact fun _ => .inl rfl

/-- Every command ends in `finish` with its own opcode, on a state that its frame bounds (rules R360,
R363, R364). -/
theorem exec_frame (i : Instr) (s : State) :
    ∃ st u, exec i s = .next (finish (opcode i) st u) ∧ CommandFrame i s st u := by
  have resv : ∀ {n : Nat} (r : BitVec n) (k : Host.Outcome State Fault Refusal),
      (∃ st u, k = .next (finish (opcode i) st u) ∧ CommandFrame i s st u) →
      ∃ st u, whenReservedZero (opcode i) r s k = .next (finish (opcode i) st u) ∧
        CommandFrame i s st u := by
    intro n r k hk
    rcases whenReservedZero_cases (opcode i) r s k with ⟨-, e⟩ | ⟨-, e⟩
    · rw [e]; exact hk
    · exact ⟨_, _, e, .rejectedWith _ _ _⟩
  have rej : ∀ st, ∃ st' u, reject (opcode i) st s = .next (finish (opcode i) st' u) ∧
      CommandFrame i s st' u := fun st => ⟨st, s, rfl, .rejectedWith _ _ _⟩
  cases i with
  | nop arg => exact ⟨.ok, s, rfl, .rejectedWith _ _ _⟩
  | receiveBlock ts xs =>
    rcases execReceiveBlock_cases ts xs s with ⟨-, e⟩ | ⟨-, -, e⟩ | ⟨-, -, -, e⟩ | ⟨-, -, -, e⟩
    · exact ⟨_, _, e, .rejectedWith _ _ _⟩
    · exact ⟨_, _, e, .rejectedWith _ _ _⟩
    · exact ⟨_, _, e, .rejectedWith _ _ _⟩
    · refine ⟨_, _, e, ?_⟩
      obtain ⟨recs, hr, hd, ht⟩ := datapath_eq xs (acceptTime ts s)
      have hf := demodBlock_frame
        { acceptTime ts s with
          filter := (firBlock s.filter xs).1
          power := (firBlock s.filter xs).2.foldl (fun p x => (powerSample p x).1) s.power
          agc := (agcBlock s.params s.agc (firBlock s.filter xs).2).1
          trace := s.trace ++ powerEvents s.listeners s.power (firBlock s.filter xs).2 }
        (agcBlock s.params s.agc (firBlock s.filter xs).2).2
      have hd' : datapath xs (acceptTime ts s) = _ := hd
      refine { params := ?_, rst := ?_, phase := ?_, cmd := ?_, trace := ⟨powerEvents s.listeners s.power (firBlock s.filter xs).2 ++ recs, ?_, ?_⟩,
               rejected := ?_, lastStatus := ?_ }
      · rw [hd']; exact hf.params
      · rw [hd']; exact hf.rst
      · rw [hd']; exact hf.phase
      · rw [hd']; exact hf.cmd
      · rw [hd', ← List.append_assoc]; exact ht
      · intro r h
        rcases List.mem_append.1 h with h | h
        · have := isEvent_of_powerEvents h
          cases r <;> simp_all [isEvent, isResp]
        · exact (hr r h).not_resp
      · intro h
        exfalso
        revert h
        split <;> decide
      · rw [hd']
        have h : _ = (acceptTime ts s).flags := hf.flags
        exact (congrArg StatusState.lastStatus h).trans rfl
  | setSampleRate resv' rate =>
    rcases execSetSampleRate_cases resv' rate s with ⟨-, e⟩ | ⟨-, t, hc, e⟩ | ⟨-, t, hc, e⟩
    · exact ⟨_, _, e, .rejectedWith _ _ _⟩
    · refine ⟨_, _, e, ?_⟩
      rcases configure_cases rate s with ⟨-, h⟩ | ⟨-, -, -, h⟩ | ⟨-, v, -, h⟩ | ⟨-, -, v, -, -, h⟩ <;>
        rw [hc] at h <;> simp only [Prod.mk.injEq, Bool.false_eq_true, and_false, and_true] at h
      · subst h
        constructor <;> first | rfl | exact ⟨[], by simp, by simp⟩ | skip
        exact fun _ => .inr ⟨rfl, t.cache.designCount, rfl⟩
      · subst h
        constructor <;> first | rfl | exact ⟨[], by simp, by simp⟩ | skip
        exact fun _ => .inr ⟨rfl, _, rfl⟩
    · refine ⟨_, _, e, ?_⟩
      rcases configure_cases rate s with ⟨-, h⟩ | ⟨-, -, -, h⟩ | ⟨-, v, -, h⟩ | ⟨-, -, v, -, -, h⟩ <;>
        rw [hc] at h <;> simp only [Prod.mk.injEq, Bool.true_eq_false, and_false, and_true] at h <;>
        subst h <;>
        constructor <;> first | rfl | exact ⟨[], by simp, by simp⟩ | exact fun h => absurd h (by decide)
  | freqCorrectionChange fcv => exact ⟨.ok, _, rfl, .ofFields _ s _ _ _ _ rfl⟩
  | resetLoop r => exact resv r _ ⟨.ok, _, rfl, .ofFields _ s _ _ _ _ rfl⟩
  | setBandwidth r p => exact resv r _ ⟨.ok, _, rfl, .ofFields _ s _ _ _ _ rfl⟩
  | correctInversion r q =>
    refine resv r _ ?_
    cases rotationAngle q with
    | none => exact rej _
    | some a => exact ⟨.ok, _, rfl, .ofFields _ s _ _ _ _ rfl⟩
  | addConsumer r id =>
    refine resv r _ ?_
    split
    · exact rej _
    · split
      · exact rej _
      · exact ⟨.ok, _, rfl, .ofFields _ s _ _ _ _ rfl⟩
  | removeConsumer r id =>
    refine resv r _ ?_
    split
    · exact ⟨.ok, _, rfl, .ofFields _ s _ _ _ _ rfl⟩
    · exact rej _
  | addBufferListener r id =>
    refine resv r _ ?_
    split
    · exact rej _
    · split
      · exact rej _
      · exact ⟨.ok, _, rfl, .ofFields _ s _ _ _ _ rfl⟩
  | removeBufferListener r id =>
    refine resv r _ ?_
    split
    · exact ⟨.ok, _, rfl, .ofFields _ s _ _ _ _ rfl⟩
    · exact rej _
  | setEventListener r en id => exact resv r _ ⟨.ok, _, rfl, .ofFields _ s _ _ _ _ rfl⟩
  | setMessageListener r en id => exact resv r _ ⟨.ok, _, rfl, .ofFields _ s _ _ _ _ rfl⟩
  | flush r =>
    refine resv r _ ⟨.ok, _, rfl, ?_⟩
    unfold flushBuffer
    split
    · rw [deliverBuffer_eq]
      constructor <;> first | rfl | exact ⟨_, rfl, by simp [isResp]⟩ | exact fun h => absurd h (by decide)
    · constructor <;> first | rfl | exact ⟨[], by simp, by simp⟩ | exact fun h => absurd h (by decide)
  | readReg r n =>
    refine resv r _ ?_
    cases regValue n s with
    | none => exact rej _
    | some w =>
      refine ⟨.ok, _, rfl, ?_⟩
      constructor <;> first
        | rfl
        | exact ⟨[.data w], rfl, by simp [isResp]⟩
        | exact fun h => absurd h (by decide)
  | clearStatus r => exact resv r _ ⟨.ok, _, rfl, .ofFields _ s _ _ _ _ rfl⟩
  | illegal op arg => exact rej _

end Sys2Proof.Machine
end

