-- ==== Sys2Proof/Laws/Float.lean ====
section
/-! SUPPORT. Bit-level laws of the binary32 operations: signs, magnitudes, classes, and what one
rounding does. -/

namespace Sys2Proof.Machine

/-! ## Sign and magnitude bits -/

theorem fMagBits_lt (x : F32) : fMagBits x < 2 ^ 31 := Nat.mod_lt _ (by decide)

theorem fSign_eq (x : F32) : fSign x = decide (2 ^ 31 ≤ x.toNat) := by
  simp [fSign, BitVec.msb_eq_decide]

theorem toNat_eq (x : F32) : x.toNat = (if fSign x then 2 ^ 31 else 0) + fMagBits x := by
  rw [fSign_eq, fMagBits]
  have := x.isLt
  simp only [decide_eq_true_eq]
  split <;> omega

theorem f32_ext {x y : F32} (hs : fSign x = fSign y) (hm : fMagBits x = fMagBits y) : x = y :=
  BitVec.eq_of_toNat_eq (by rw [toNat_eq x, toNat_eq y, hs, hm])

theorem fPack_toNat {n : Bool} {b : Nat} (hb : b < 2 ^ 31) :
    (fPack n b).toNat = (if n then 2 ^ 31 else 0) + b := by
  cases n <;> simp [fPack] <;> omega

theorem fSign_fPack {n : Bool} {b : Nat} (hb : b < 2 ^ 31) : fSign (fPack n b) = n := by
  rw [fSign_eq, fPack_toNat hb]
  cases n
  · simp; omega
  · simp

theorem fMagBits_fPack {n : Bool} {b : Nat} (hb : b < 2 ^ 31) : fMagBits (fPack n b) = b := by
  rw [fMagBits, fPack_toNat hb]
  cases n <;> simp <;> omega

@[simp] theorem fMagBits_fNeg (x : F32) : fMagBits (fNeg x) = fMagBits x := by
  simp [fMagBits, fNeg, BitVec.toNat_xor, Nat.xor_mod_two_pow (n := 31)]

@[simp] theorem fSign_fNeg (x : F32) : fSign (fNeg x) = !fSign x := by
  have h : (0x80000000#32).msb = true := by decide
  simp only [fSign, fNeg, BitVec.msb_xor, h, Bool.xor_true]

@[simp] theorem fMagBits_fAbs (x : F32) : fMagBits (fAbs x) = fMagBits x := by
  have h : x.toNat &&& 0x7FFFFFFF = x.toNat % 2 ^ 31 := Nat.and_two_pow_sub_one_eq_mod _ 31
  simp [fMagBits, fAbs, BitVec.toNat_and, h]

@[simp] theorem fSign_fAbs (x : F32) : fSign (fAbs x) = false := by
  have h : (0x7FFFFFFF#32).msb = false := by decide
  simp only [fSign, fAbs, BitVec.msb_and, h, Bool.and_false]

/-! ## Classes -/

@[simp] theorem isNaN_fNeg (x : F32) : isNaN (fNeg x) = isNaN x := by simp [isNaN]
@[simp] theorem isInf_fNeg (x : F32) : isInf (fNeg x) = isInf x := by simp [isInf]
@[simp] theorem isZero_fNeg (x : F32) : isZero (fNeg x) = isZero x := by simp [isZero]
@[simp] theorem isFinite_fNeg (x : F32) : isFinite (fNeg x) = isFinite x := by simp [isFinite]
@[simp] theorem isNaN_fAbs (x : F32) : isNaN (fAbs x) = isNaN x := by simp [isNaN]
@[simp] theorem isInf_fAbs (x : F32) : isInf (fAbs x) = isInf x := by simp [isInf]
@[simp] theorem isZero_fAbs (x : F32) : isZero (fAbs x) = isZero x := by simp [isZero]
@[simp] theorem isFinite_fAbs (x : F32) : isFinite (fAbs x) = isFinite x := by simp [isFinite]

/-- A value is finite, infinite or NaN. -/
theorem class_cases (x : F32) :
    (isFinite x = true ∧ isInf x = false ∧ isNaN x = false) ∨
    (isFinite x = false ∧ isInf x = true ∧ isNaN x = false) ∨
    (isFinite x = false ∧ isInf x = false ∧ isNaN x = true) := by
  simp only [isFinite, isInf, isNaN, decide_eq_true_eq, decide_eq_false_iff_not]
  omega

theorem isNaN_of_finite {x : F32} (h : isFinite x = true) : isNaN x = false := by
  rcases class_cases x with c | c | c <;> simp_all

theorem isInf_of_finite {x : F32} (h : isFinite x = true) : isInf x = false := by
  rcases class_cases x with c | c | c <;> simp_all

theorem isFinite_iff (x : F32) : isFinite x = true ↔ isInf x = false ∧ isNaN x = false := by
  rcases class_cases x with c | c | c <;> simp_all

/-! ## Magnitudes -/

/-- The magnitude that magnitude bits stand for, in units of 2^-149. -/
def magOf (b : Nat) : Nat :=
  if b / 2 ^ 23 = 0 then b % 2 ^ 23 else (2 ^ 23 + b % 2 ^ 23) * 2 ^ (b / 2 ^ 23 - 1)

theorem fMag_eq (x : F32) : fMag x = magOf (fMagBits x) := by
  have h : x.toNat % 2 ^ 31 % 2 ^ 23 = x.toNat % 2 ^ 23 := Nat.mod_mod_of_dvd _ (by decide)
  unfold fMag magOf fExp fFrac fMagBits
  rw [h]

/-- Significand `m` with unit exponent `k`, in the form the rounding builds it. -/
theorem magOf_mul {k m : Nat} (hm : m ≤ 2 ^ 24) (hk : k = 0 ∨ 2 ^ 23 ≤ m) :
    magOf (k * 2 ^ 23 + m) = m * 2 ^ k := by
  unfold magOf
  rcases Nat.lt_or_ge m (2 ^ 23) with h | h
  · obtain rfl : k = 0 := by omega
    rw [if_pos (by omega)]
    omega
  · rcases Nat.lt_or_ge m (2 ^ 24) with h' | h'
    · have e1 : (k * 2 ^ 23 + m) / 2 ^ 23 = k + 1 := by omega
      have e2 : (k * 2 ^ 23 + m) % 2 ^ 23 = m - 2 ^ 23 := by omega
      rw [e1, e2, if_neg (by omega)]
      rw [Nat.add_sub_cancel, show 2 ^ 23 + (m - 2 ^ 23) = m by omega]
    · have e1 : (k * 2 ^ 23 + m) / 2 ^ 23 = k + 2 := by omega
      have e2 : (k * 2 ^ 23 + m) % 2 ^ 23 = 0 := by omega
      rw [e1, e2, if_neg (by omega)]
      obtain rfl : m = 2 ^ 24 := by omega
      rw [show k + 2 - 1 = k + 1 by omega, Nat.pow_succ]
      ring

theorem magOf_lt_succ (b : Nat) : magOf b < magOf (b + 1) := by
  have h : ∀ b, ∃ k m, b = k * 2 ^ 23 + m ∧ m < 2 ^ 24 ∧ (k = 0 ∨ 2 ^ 23 ≤ m) := by
    intro b
    rcases Nat.lt_or_ge b (2 ^ 23) with h | h
    · exact ⟨0, b, by omega, by omega, .inl rfl⟩
    · exact ⟨b / 2 ^ 23 - 1, b % 2 ^ 23 + 2 ^ 23, by omega, by omega, .inr (by omega)⟩
  obtain ⟨k, m, rfl, hm, hk⟩ := h b
  rw [Nat.add_assoc, magOf_mul (by omega) hk, magOf_mul (by omega) (by omega)]
  exact Nat.mul_lt_mul_of_pos_right (Nat.lt_succ_self m) (Nat.two_pow_pos k)

theorem magOf_strictMono : StrictMono magOf := strictMono_nat_of_lt_succ magOf_lt_succ

theorem magOf_lt {a b : Nat} : magOf a < magOf b ↔ a < b := magOf_strictMono.lt_iff_lt
theorem magOf_le {a b : Nat} : magOf a ≤ magOf b ↔ a ≤ b := magOf_strictMono.le_iff_le
theorem magOf_inj {a b : Nat} : magOf a = magOf b ↔ a = b := magOf_strictMono.injective.eq_iff

@[simp] theorem magOf_zero : magOf 0 = 0 := by decide

theorem magOf_eq_zero {b : Nat} : magOf b = 0 ↔ b = 0 := magOf_inj (b := 0)

/-! ## One rounding -/

/-- The magnitude bits of `num / den` rounded to nearest even, with no overflow to infinity. -/
def roundUnbounded (num den : Nat) : Nat :=
  let k := Nat.log2 (num / den) - 23
  let d := den * 2 ^ k
  let q := num / d
  let r := num % d
  k * 2 ^ 23 + (if d < 2 * r ∨ (2 * r = d ∧ q % 2 = 1) then q + 1 else q)

theorem roundBits_eq (num den : Nat) :
    roundBits num den = min (roundUnbounded num den) 0x7F800000 := rfl

theorem roundBits_le (num den : Nat) : roundBits num den ≤ 0x7F800000 := Nat.min_le_right _ _

theorem roundBits_lt (num den : Nat) : roundBits num den < 2 ^ 31 :=
  Nat.lt_of_le_of_lt (roundBits_le num den) (by decide)

/-- The rounded result and the two values it was chosen from: neighbours `b` and `b + 1` around
`num / den`, the nearer one, and the even one of two that are equally near. -/
theorem roundUnbounded_spec (num : Nat) {den : Nat} (hden : 0 < den) :
    ∃ b, magOf b * den ≤ num ∧ num < magOf (b + 1) * den ∧
      ((roundUnbounded num den = b ∧
          (2 * num < (magOf b + magOf (b + 1)) * den ∨
            (2 * num = (magOf b + magOf (b + 1)) * den ∧ b % 2 = 0))) ∨
        (roundUnbounded num den = b + 1 ∧
          ((magOf b + magOf (b + 1)) * den < 2 * num ∨
            (2 * num = (magOf b + magOf (b + 1)) * den ∧ (b + 1) % 2 = 0)))) := by
  obtain ⟨k, hk⟩ : ∃ k, k = Nat.log2 (num / den) - 23 := ⟨_, rfl⟩
  obtain ⟨d, hd⟩ : ∃ d, d = den * 2 ^ k := ⟨_, rfl⟩
  obtain ⟨q, hq⟩ : ∃ q, q = num / d := ⟨_, rfl⟩
  obtain ⟨r, hr⟩ : ∃ r, r = num % d := ⟨_, rfl⟩
  have hdpos : 0 < d := by rw [hd]; exact Nat.mul_pos hden (Nat.two_pow_pos k)
  have hdiv : num = d * q + r := by rw [hq, hr]; exact (Nat.div_add_mod num d).symm
  have hrd : r < d := by rw [hr]; exact Nat.mod_lt _ hdpos
  have hq' : q = num / den / 2 ^ k := by rw [hq, hd, Nat.div_div_eq_div_mul]
  have hq24 : q < 2 ^ 24 := by
    rw [hq', Nat.div_lt_iff_lt_mul (Nat.two_pow_pos k), ← Nat.pow_add]
    refine Nat.lt_of_lt_of_le Nat.lt_log2_self (Nat.pow_le_pow_right (by decide) (by omega))
  have hkq : k = 0 ∨ 2 ^ 23 ≤ q := by
    rcases Nat.eq_zero_or_pos k with h | h
    · exact .inl h
    · right
      have hv : num / den ≠ 0 := by
        intro h0
        rw [h0] at hk
        simp at hk
        omega
      rw [hq', Nat.le_div_iff_mul_le (Nat.two_pow_pos k), ← Nat.pow_add]
      have := Nat.log2_self_le hv
      rwa [show 23 + k = Nat.log2 (num / den) by omega]
  have hres : roundUnbounded num den =
      k * 2 ^ 23 + (if d < 2 * r ∨ (2 * r = d ∧ q % 2 = 1) then q + 1 else q) := by
    simp only [roundUnbounded, ← hk, ← hd, ← hq, ← hr]
  have m0 : magOf (k * 2 ^ 23 + q) * den = q * d := by
    rw [magOf_mul (by omega) hkq, hd]; ring
  have m1 : magOf (k * 2 ^ 23 + q + 1) * den = (q + 1) * d := by
    rw [Nat.add_assoc, magOf_mul (by omega) (by omega), hd]; ring
  refine ⟨k * 2 ^ 23 + q, ?_, ?_, ?_⟩
  · rw [m0, hdiv]; nlinarith
  · rw [m1, hdiv]; nlinarith
  · rw [Nat.add_mul, m0, m1, hres, hdiv]
    have e : q * d + (q + 1) * d = 2 * (d * q) + d := by ring
    rw [e]
    split
    · next h => right; refine ⟨(Nat.add_assoc _ _ _).symm, ?_⟩; omega
    · next h => left; refine ⟨rfl, ?_⟩; omega

/-- A representable value at or below the exact one stays at or below the rounded one. -/
theorem le_roundUnbounded {num den b : Nat} (hden : 0 < den) (h : magOf b * den ≤ num) :
    b ≤ roundUnbounded num den := by
  obtain ⟨c, -, h1, h2⟩ := roundUnbounded_spec num hden
  have : b < c + 1 := magOf_lt.1 (Nat.lt_of_mul_lt_mul_right (Nat.lt_of_le_of_lt h h1))
  omega

/-- A representable value at or above the exact one stays at or above the rounded one. -/
theorem roundUnbounded_le {num den b : Nat} (hden : 0 < den) (h : num ≤ magOf b * den) :
    roundUnbounded num den ≤ b := by
  obtain ⟨c, h0, h1, h2⟩ := roundUnbounded_spec num hden
  have hcb : c ≤ b := magOf_le.1 (Nat.le_of_mul_le_mul_right (Nat.le_trans h0 h) hden)
  rcases Nat.eq_or_lt_of_le hcb with rfl | hlt
  · have : num = magOf c * den := Nat.le_antisymm h h0
    rw [Nat.add_mul] at h2
    omega
  · omega

/-- A representable value is its own rounding. -/
theorem roundUnbounded_exact {num den b : Nat} (hden : 0 < den) (h : num = magOf b * den) :
    roundUnbounded num den = b :=
  Nat.le_antisymm (roundUnbounded_le hden h.le) (le_roundUnbounded hden h.ge)

/-- Rounding keeps order: `a / b ≤ c / d` rounds to magnitude bits in the same order. -/
theorem roundUnbounded_mono {a b c d : Nat} (hb : 0 < b) (hd : 0 < d) (h : a * d ≤ c * b) :
    roundUnbounded a b ≤ roundUnbounded c d := by
  obtain ⟨e, h0, h1, h2⟩ := roundUnbounded_spec a hb
  obtain ⟨f, g0, g1, g2⟩ := roundUnbounded_spec c hd
  have hef : e ≤ f := by
    have : magOf e * b * d < magOf (f + 1) * d * b :=
      calc magOf e * b * d ≤ a * d := Nat.mul_le_mul_right d h0
        _ ≤ c * b := h
        _ < magOf (f + 1) * d * b := Nat.mul_lt_mul_of_pos_right g1 hb
    have : magOf e * (b * d) < magOf (f + 1) * (b * d) := by
      rwa [Nat.mul_assoc, Nat.mul_assoc _ d b, Nat.mul_comm d b] at this
    have := magOf_lt.1 (Nat.lt_of_mul_lt_mul_right this)
    omega
  rcases Nat.eq_or_lt_of_le hef with rfl | hlt
  · -- the same two neighbours: only a round-up of the smaller and a round-down of the greater
    rcases h2 with ⟨h2, -⟩ | ⟨h2, h3⟩
    · omega
    rcases g2 with ⟨g2, g3⟩ | ⟨g2, -⟩
    · exfalso
      have p : (magOf e + magOf (e + 1)) * b * d ≤ 2 * a * d :=
        Nat.mul_le_mul_right d (by omega)
      have q : 2 * c * b ≤ (magOf e + magOf (e + 1)) * d * b := Nat.mul_le_mul_right b (by omega)
      have key : (magOf e + magOf (e + 1)) * b * d = (magOf e + magOf (e + 1)) * d * b := by ring
      have s1 : 2 * a * d = 2 * (a * d) := by ring
      have s2 : 2 * c * b = 2 * (c * b) := by ring
      have eq1 : 2 * a * d = (magOf e + magOf (e + 1)) * b * d := by omega
      have eq2 : 2 * c * b = (magOf e + magOf (e + 1)) * d * b := by omega
      have f1 : 2 * a = (magOf e + magOf (e + 1)) * b := Nat.eq_of_mul_eq_mul_right hd eq1
      have f2 : 2 * c = (magOf e + magOf (e + 1)) * d := Nat.eq_of_mul_eq_mul_right hb eq2
      omega
    · omega
  · omega

theorem roundBits_mono {a b c d : Nat} (hb : 0 < b) (hd : 0 < d) (h : a * d ≤ c * b) :
    roundBits a b ≤ roundBits c d := by
  have := roundUnbounded_mono hb hd h
  simp only [roundBits_eq]
  omega

@[simp] theorem fSign_fRound (n : Bool) (num den : Nat) : fSign (fRound n num den) = n :=
  fSign_fPack (roundBits_lt num den)

@[simp] theorem fMagBits_fRound (n : Bool) (num den : Nat) :
    fMagBits (fRound n num den) = roundBits num den :=
  fMagBits_fPack (roundBits_lt num den)

/-- A rounding never makes a NaN. -/
@[simp] theorem isNaN_fRound (n : Bool) (num den : Nat) : isNaN (fRound n num den) = false := by
  have := roundBits_le num den
  simp [isNaN]
  omega

end Sys2Proof.Machine
end

