-- ==== Sys2Proof/Laws/PerInstr.lean ====
section
/-! SUPPORT. Laws of the encoding, one lemma per command. -/

namespace Sys2Proof

/-! ## The fields of a command word -/

@[simp] theorem headerOp_append (op : Byte) (arg : BitVec 24) : headerOp (op ++ arg) = op :=
  BitVec.extractLsb'_append_eq_left

@[simp] theorem headerArg_append (op : Byte) (arg : BitVec 24) : headerArg (op ++ arg) = arg :=
  BitVec.extractLsb'_append_eq_right

@[simp] theorem encodeSamples_length (xs : List Cplx) : (encodeSamples xs).length = 2 * xs.length := by
  induction xs with
  | nil => rfl
  | cons x xs ih => simp [encodeSamples, ih]; omega

/-- The sample words of a block read back, whatever follows. -/
@[simp] theorem takeSamples_encodeSamples (xs : List Cplx) (rest : List Word) :
    takeSamples xs.length (encodeSamples xs ++ rest) = some (xs, rest) := by
  induction xs with
  | nil => rfl
  | cons x xs ih => simp [encodeSamples, takeSamples, ih]

end Sys2Proof

namespace Sys2Proof.Laws.HeaderOpcode

/-- The first word of a well-formed command holds its opcode and its ARG (rule R100), and as many payload
words follow as that word calls for (rule R104). -/
def Statement (i : Instr) : Prop :=
  i.wf = true →
    ∃ w ws, encode i = w :: ws ∧ headerOp w = opcode i ∧ headerArg w = encodeArg i ∧
      ws.length = payloadWords w

/-- The command word always has the command's opcode and ARG; what is left is to count the payload. -/
theorem of_length {i : Instr}
    (h : i.wf = true → (encodePayload i).length = payloadWords (encodeHeader i)) : Statement i :=
  fun hw => ⟨encodeHeader i, encodePayload i, rfl, headerOp_append _ _, headerArg_append _ _, h hw⟩

/-- A command of any opcode but 0x01 and 0x02 has no payload. -/
theorem of_no_payload {i : Instr} (h1 : (opcode i).toNat ≠ 1) (h2 : (opcode i).toNat ≠ 2)
    (hp : encodePayload i = []) : Statement i := by
  refine of_length fun _ => ?_
  rw [hp, payloadWords, encodeHeader, headerOp_append]
  split
  · contradiction
  · contradiction
  · rfl

theorem nop (arg : BitVec 24) : Statement (.nop arg) :=
  of_no_payload (by simp [opcode]) (by simp [opcode]) rfl

theorem receiveBlock (ts : BitVec 64) (samples : List Cplx) : Statement (.receiveBlock ts samples) := by
  refine of_length fun hw => ?_
  have hl : samples.length < 2 ^ 24 := by simpa [Instr.wf] using hw
  have ha : (BitVec.ofNat 24 samples.length).toNat = samples.length := by
    rw [BitVec.toNat_ofNat, Nat.mod_eq_of_lt hl]
  have ho : headerOp (encodeHeader (.receiveBlock ts samples)) = 0x01#8 := headerOp_append _ _
  have hg : headerArg (encodeHeader (.receiveBlock ts samples)) = BitVec.ofNat 24 samples.length :=
    headerArg_append _ _
  have h1 : (0x01#8).toNat = 1 := rfl
  simp only [payloadWords, ho, hg, h1, ha, encodePayload, List.length_cons, encodeSamples_length]
  omega

theorem setSampleRate (resv : BitVec 24) (rate : Word) : Statement (.setSampleRate resv rate) := by
  refine of_length fun _ => ?_
  have ho : headerOp (encodeHeader (.setSampleRate resv rate)) = 0x02#8 := headerOp_append _ _
  have h2 : (0x02#8).toNat = 2 := rfl
  simp only [payloadWords, ho, h2, encodePayload, List.length_singleton]

theorem freqCorrectionChange (fcv : BitVec 24) : Statement (.freqCorrectionChange fcv) :=
  of_no_payload (by simp [opcode]) (by simp [opcode]) rfl

theorem resetLoop (resv : BitVec 24) : Statement (.resetLoop resv) :=
  of_no_payload (by simp [opcode]) (by simp [opcode]) rfl

theorem setBandwidth (resv : BitVec 22) (preset : BitVec 2) : Statement (.setBandwidth resv preset) :=
  of_no_payload (by simp [opcode]) (by simp [opcode]) rfl

theorem correctInversion (resv : BitVec 22) (rot : BitVec 2) : Statement (.correctInversion resv rot) :=
  of_no_payload (by simp [opcode]) (by simp [opcode]) rfl

theorem addConsumer (resv : BitVec 16) (id : Byte) : Statement (.addConsumer resv id) :=
  of_no_payload (by simp [opcode]) (by simp [opcode]) rfl

theorem removeConsumer (resv : BitVec 16) (id : Byte) : Statement (.removeConsumer resv id) :=
  of_no_payload (by simp [opcode]) (by simp [opcode]) rfl

theorem addBufferListener (resv : BitVec 16) (id : Byte) : Statement (.addBufferListener resv id) :=
  of_no_payload (by simp [opcode]) (by simp [opcode]) rfl

theorem removeBufferListener (resv : BitVec 16) (id : Byte) :
    Statement (.removeBufferListener resv id) :=
  of_no_payload (by simp [opcode]) (by simp [opcode]) rfl

theorem setEventListener (resv : BitVec 15) (en : BitVec 1) (id : Byte) :
    Statement (.setEventListener resv en id) :=
  of_no_payload (by simp [opcode]) (by simp [opcode]) rfl

theorem setMessageListener (resv : BitVec 15) (en : BitVec 1) (id : Byte) :
    Statement (.setMessageListener resv en id) :=
  of_no_payload (by simp [opcode]) (by simp [opcode]) rfl

theorem flush (resv : BitVec 24) : Statement (.flush resv) :=
  of_no_payload (by simp [opcode]) (by simp [opcode]) rfl

theorem readReg (resv : BitVec 16) (num : Byte) : Statement (.readReg resv num) :=
  of_no_payload (by simp [opcode]) (by simp [opcode]) rfl

theorem clearStatus (resv : BitVec 24) : Statement (.clearStatus resv) :=
  of_no_payload (by simp [opcode]) (by simp [opcode]) rfl

theorem illegal (op : Byte) (arg : BitVec 24) : Statement (.illegal op arg) := by
  intro hw
  have h : 0x10 ≤ op.toNat := by simpa [Instr.wf] using hw
  exact of_no_payload (i := .illegal op arg) (by simp only [opcode]; omega)
    (by simp only [opcode]; omega) rfl hw

end Sys2Proof.Laws.HeaderOpcode
end

