-- ==== Sys2Proof/Laws/Rounding.lean ====
section
/-! SUPPORT. The binary32 operations on values: comparison is the order of the values, and a rounded
result lies on the same side of a binary32 value as the exact one does. -/

namespace Sys2Proof.Machine

open Sys2Proof.Safety

/-! ## Values -/

theorem fScaled_eq (x : F32) :
    fScaled x = if fSign x then -(magOf (fMagBits x) : Int) else (magOf (fMagBits x) : Int) := by
  rw [fScaled, fMag_eq]

theorem fValue_eq (x : F32) :
    fValue x = (if fSign x then -(magOf (fMagBits x) : ℚ) else (magOf (fMagBits x) : ℚ)) / 2 ^ 149 := by
  rw [fValue, fScaled_eq]
  split <;> simp

theorem fValue_nonneg {x : F32} (h : fSign x = false) : 0 ≤ fValue x := by
  rw [fValue_eq, h]
  simp only [Bool.false_eq_true, if_false]
  positivity

theorem fValue_nonpos {x : F32} (h : fSign x = true) : fValue x ≤ 0 := by
  rw [fValue_eq, h, if_pos rfl, neg_div]
  have : (0 : ℚ) ≤ (magOf (fMagBits x) : ℚ) / 2 ^ 149 := by positivity
  linarith

@[simp] theorem fValue_posZero : fValue posZero = 0 := by
  have h : fScaled posZero = 0 := by decide
  simp [fValue, h]

@[simp] theorem fValue_fOne : fValue fOne = 1 := by
  have h : fScaled fOne = 2 ^ 149 := by decide
  rw [fValue, h]
  norm_num

@[simp] theorem fValue_fNegOne : fValue fNegOne = -1 := by
  have h : fScaled fNegOne = -2 ^ 149 := by decide
  rw [fValue, h]
  norm_num

@[simp] theorem fValue_fNeg (x : F32) : fValue (fNeg x) = -fValue x := by
  rw [fValue_eq, fValue_eq, fSign_fNeg, fMagBits_fNeg]
  cases fSign x <;> simp [neg_div]

@[simp] theorem fValue_fAbs (x : F32) : fValue (fAbs x) = |fValue x| := by
  cases h : fSign x with
  | false =>
    rw [abs_of_nonneg (fValue_nonneg h), fValue_eq, fValue_eq, fSign_fAbs, fMagBits_fAbs, h]
  | true =>
    rw [abs_of_nonpos (fValue_nonpos h), fValue_eq, fValue_eq, fSign_fAbs, fMagBits_fAbs, h]
    simp [neg_div]

theorem fValue_eq_zero_iff (x : F32) : fValue x = 0 ↔ isZero x = true := by
  have h : (magOf (fMagBits x) : ℚ) = 0 ↔ fMagBits x = 0 := by
    rw [Nat.cast_eq_zero, magOf_eq_zero]
  rw [fValue_eq, isZero, decide_eq_true_eq, ← h]
  split <;> simp

/-! ## Comparison -/

theorem fKey_le_iff (x y : F32) : fKey x ≤ fKey y ↔ fValue x ≤ fValue y := by
  have hp : (0 : ℚ) < 2 ^ 149 := by positivity
  have h0 : ∀ b, (magOf b : ℚ) = 0 ↔ b = 0 := by
    intro b; rw [Nat.cast_eq_zero, magOf_eq_zero]
  rw [fKey, fKey, fValue_eq, fValue_eq, div_le_div_iff_of_pos_right hp]
  have hxn : (0 : ℚ) ≤ magOf (fMagBits x) := Nat.cast_nonneg _
  have hyn : (0 : ℚ) ≤ magOf (fMagBits y) := Nat.cast_nonneg _
  cases fSign x <;> cases fSign y <;>
    simp only [Bool.false_eq_true, if_true, if_false, neg_le_neg_iff, Nat.cast_le, magOf_le]
  · constructor
    · intro h
      have hx : fMagBits x = 0 := by omega
      have hy : fMagBits y = 0 := by omega
      simp [hx, hy]
    · intro h
      have hx := (h0 (fMagBits x)).1 (by linarith)
      have hy := (h0 (fMagBits y)).1 (by linarith)
      omega
  · constructor
    · intro _; linarith
    · intro _; omega

theorem fKey_lt_iff (x y : F32) : fKey x < fKey y ↔ fValue x < fValue y := by
  rw [← not_le, ← not_le, fKey_le_iff]

/-- On operands that are not NaN, `<=` is the order of the values; the values of infinities are those
their bits would have as numbers, beyond every finite value. -/
theorem fLe_iff {a b : F32} (ha : isNaN a = false) (hb : isNaN b = false) :
    fLe a b = true ↔ fValue a ≤ fValue b := by
  simp [fLe, ha, hb, fKey_le_iff]

theorem fLt_iff {a b : F32} (ha : isNaN a = false) (hb : isNaN b = false) :
    fLt a b = true ↔ fValue a < fValue b := by
  simp [fLt, ha, hb, fKey_lt_iff]

theorem isNaN_of_fLe {a b : F32} (h : fLe a b = true) : isNaN a = false ∧ isNaN b = false := by
  simp only [fLe, Bool.and_eq_true, Bool.not_eq_true'] at h
  exact h.1

theorem isNaN_of_fLt {a b : F32} (h : fLt a b = true) : isNaN a = false ∧ isNaN b = false := by
  simp only [fLt, Bool.and_eq_true, Bool.not_eq_true'] at h
  exact h.1

theorem fKey_le_of_fLe {a b : F32} (h : fLe a b = true) : fKey a ≤ fKey b := by
  simp only [fLe, Bool.and_eq_true, decide_eq_true_eq] at h
  exact h.2

/-- A value between two finite ones is finite. -/
theorem isFinite_of_between {a b c : F32} (ha : isFinite a = true) (hc : isFinite c = true)
    (h1 : fLe a b = true) (h2 : fLe b c = true) : isFinite b = true := by
  have k1 := fKey_le_of_fLe h1
  have k2 := fKey_le_of_fLe h2
  simp only [isFinite, decide_eq_true_eq] at *
  unfold fKey at k1 k2
  split at k1 <;> split at k1 <;> split at k2 <;> split at k2 <;>
    first | contradiction | omega

/-! ## Rounding -/

/-- The exact value that `fRound n num den` rounds. -/
def exactValue (n : Bool) (num den : Nat) : ℚ :=
  (if n then -((num : ℚ) / den) else (num : ℚ) / den) / 2 ^ 149

theorem fRound_le {n : Bool} {num den : Nat} (hden : 0 < den) {c : F32} (hc : isFinite c = true)
    (h : exactValue n num den ≤ fValue c) : fLe (fRound n num den) c = true := by
  have hp : (0 : ℚ) < 2 ^ 149 := by positivity
  have hd : (0 : ℚ) < den := by exact_mod_cast hden
  rw [exactValue, fValue_eq, div_le_div_iff_of_pos_right hp] at h
  have hq : (0 : ℚ) ≤ (num : ℚ) / den := by positivity
  have hm : (0 : ℚ) ≤ magOf (fMagBits c) := Nat.cast_nonneg _
  have hfin : fMagBits c < 0x7F800000 := by simpa [isFinite] using hc
  simp only [fLe, isNaN_fRound, isNaN_of_finite hc, fKey, fSign_fRound, fMagBits_fRound]
  cases n <;> cases hs : fSign c <;>
    simp only [hs, Bool.false_eq_true, if_true, if_false] at h <;>
    simp only [Bool.not_false, Bool.and_self, Bool.true_and, decide_eq_true_eq, Bool.false_eq_true,
      if_true, if_false]
  · have h' : num ≤ magOf (fMagBits c) * den := by
      rw [div_le_iff₀ hd] at h
      exact_mod_cast h
    have := roundUnbounded_le hden h'
    rw [roundBits_eq]
    omega
  · have hz : (num : ℚ) / den = 0 := by linarith
    have hn : num = 0 := by
      rcases (div_eq_zero_iff).1 hz with h0 | h0
      · exact_mod_cast h0
      · exact absurd h0 hd.ne'
    have hb : roundUnbounded num den ≤ 0 := roundUnbounded_le hden (by simp [hn])
    have hc0 : magOf (fMagBits c) = magOf 0 := by
      have : (magOf (fMagBits c) : ℚ) = 0 := by linarith
      rw [magOf_zero]; exact_mod_cast this
    have := magOf_inj.1 hc0
    rw [roundBits_eq]
    omega
  · omega
  · have h' : magOf (fMagBits c) * den ≤ num := by
      rw [neg_le_neg_iff, le_div_iff₀ hd] at h
      exact_mod_cast h
    have := le_roundUnbounded hden h'
    rw [roundBits_eq]
    omega

theorem exactValue_not (n : Bool) (num den : Nat) :
    exactValue (!n) num den = -exactValue n num den := by
  cases n <;> simp [exactValue, neg_div]

theorem fRound_not (n : Bool) (num den : Nat) : fRound (!n) num den = fNeg (fRound n num den) :=
  f32_ext (by simp) (by simp)

theorem fLe_fNeg (a b : F32) : fLe (fNeg a) (fNeg b) = fLe b a := by
  have h : ∀ x, fKey (fNeg x) = -fKey x := by
    intro x; simp only [fKey, fSign_fNeg, fMagBits_fNeg]; cases fSign x <;> simp
  simp only [fLe, isNaN_fNeg, h, neg_le_neg_iff, Bool.and_comm]

theorem fNeg_fNeg (x : F32) : fNeg (fNeg x) = x := f32_ext (by simp) (by simp)

theorem le_fRound {n : Bool} {num den : Nat} (hden : 0 < den) {c : F32} (hc : isFinite c = true)
    (h : fValue c ≤ exactValue n num den) : fLe c (fRound n num den) = true := by
  have := fRound_le (n := !n) hden (c := fNeg c) (by simpa using hc)
    (by rw [exactValue_not, fValue_fNeg]; linarith)
  rwa [fRound_not, fLe_fNeg] at this

/-! ## The operations -/

theorem fAdd_finite {a b : F32} (ha : isFinite a = true) (hb : isFinite b = true) :
    (fValue a + fValue b = 0 ∧ isZero (fAdd a b) = true) ∨
      ∃ n num, exactValue n num 1 = fValue a + fValue b ∧ fAdd a b = fRound n num 1 := by
  have hs : fValue a + fValue b = ((fScaled a + fScaled b : Int) : ℚ) / 2 ^ 149 := by
    simp only [fValue]; push_cast; ring
  by_cases h0 : fScaled a + fScaled b = 0
  · left
    refine ⟨by simp [hs, h0], ?_⟩
    simp only [fAdd, isNaN_of_finite ha, isNaN_of_finite hb, isInf_of_finite ha, isInf_of_finite hb, h0,
      Bool.or_self, Bool.false_eq_true, if_false, if_true]
    cases fSign a <;> cases fSign b <;> decide
  · right
    refine ⟨decide (fScaled a + fScaled b < 0), (fScaled a + fScaled b).natAbs, ?_, ?_⟩
    · rw [hs, exactValue]
      congr 1
      by_cases hn : fScaled a + fScaled b < 0
      · simp only [hn, decide_true, if_true, Nat.cast_natAbs, abs_of_neg hn]
        push_cast; ring
      · simp only [hn, decide_false, Bool.false_eq_true, if_false, Nat.cast_natAbs,
          abs_of_nonneg (not_lt.1 hn)]
        push_cast; ring
    · simp [fAdd, isNaN_of_finite ha, isNaN_of_finite hb, isInf_of_finite ha, isInf_of_finite hb, h0]

theorem isNaN_of_isZero {x : F32} (h : isZero x = true) : isNaN x = false := by
  simp only [isZero, isNaN, decide_eq_true_eq, decide_eq_false_iff_not] at *; omega

theorem fAdd_le {a b c : F32} (ha : isFinite a = true) (hb : isFinite b = true)
    (hc : isFinite c = true) (h : fValue a + fValue b ≤ fValue c) : fLe (fAdd a b) c = true := by
  rcases fAdd_finite ha hb with ⟨h0, hz⟩ | ⟨n, num, he, hr⟩
  · rw [fLe_iff (isNaN_of_isZero hz) (isNaN_of_finite hc), (fValue_eq_zero_iff _).2 hz]
    linarith
  · rw [hr]; exact fRound_le Nat.one_pos hc (by linarith)

theorem le_fAdd {a b c : F32} (ha : isFinite a = true) (hb : isFinite b = true)
    (hc : isFinite c = true) (h : fValue c ≤ fValue a + fValue b) : fLe c (fAdd a b) = true := by
  rcases fAdd_finite ha hb with ⟨h0, hz⟩ | ⟨n, num, he, hr⟩
  · rw [fLe_iff (isNaN_of_finite hc) (isNaN_of_isZero hz), (fValue_eq_zero_iff _).2 hz]
    linarith
  · rw [hr]; exact le_fRound Nat.one_pos hc (by linarith)

theorem fSub_le {a b c : F32} (ha : isFinite a = true) (hb : isFinite b = true)
    (hc : isFinite c = true) (h : fValue a - fValue b ≤ fValue c) : fLe (fSub a b) c = true :=
  fAdd_le ha (by simpa using hb) hc (by rw [fValue_fNeg]; linarith)

theorem le_fSub {a b c : F32} (ha : isFinite a = true) (hb : isFinite b = true)
    (hc : isFinite c = true) (h : fValue c ≤ fValue a - fValue b) : fLe c (fSub a b) = true :=
  le_fAdd ha (by simpa using hb) hc (by rw [fValue_fNeg]; linarith)

theorem fMul_finite {a b : F32} (ha : isFinite a = true) (hb : isFinite b = true) :
    exactValue (fSign a != fSign b) (fMag a * fMag b) (2 ^ 149) = fValue a * fValue b ∧
      fMul a b = fRound (fSign a != fSign b) (fMag a * fMag b) (2 ^ 149) := by
  constructor
  · simp only [exactValue, fValue, fScaled]
    cases fSign a <;> cases fSign b <;> simp <;> ring
  · simp [fMul, isNaN_of_finite ha, isNaN_of_finite hb, isInf_of_finite ha, isInf_of_finite hb]

theorem fMul_le {a b c : F32} (ha : isFinite a = true) (hb : isFinite b = true)
    (hc : isFinite c = true) (h : fValue a * fValue b ≤ fValue c) : fLe (fMul a b) c = true := by
  obtain ⟨he, hr⟩ := fMul_finite ha hb
  rw [hr]; exact fRound_le (Nat.two_pow_pos _) hc (by linarith)

theorem le_fMul {a b c : F32} (ha : isFinite a = true) (hb : isFinite b = true)
    (hc : isFinite c = true) (h : fValue c ≤ fValue a * fValue b) : fLe c (fMul a b) = true := by
  obtain ⟨he, hr⟩ := fMul_finite ha hb
  rw [hr]; exact le_fRound (Nat.two_pow_pos _) hc (by linarith)

theorem fMag_pos {b : F32} (hz : isZero b = false) : 0 < fMag b := by
  rw [fMag_eq, ← magOf_zero, magOf_lt]
  simp only [isZero, decide_eq_false_iff_not] at hz
  omega

theorem fDiv_finite {a b : F32} (ha : isFinite a = true) (hb : isFinite b = true)
    (hz : isZero b = false) :
    exactValue (fSign a != fSign b) (fMag a * 2 ^ 149) (fMag b) = fValue a / fValue b ∧
      fDiv a b = fRound (fSign a != fSign b) (fMag a * 2 ^ 149) (fMag b) := by
  have hpos : (0 : ℚ) < fMag b := by exact_mod_cast fMag_pos hz
  constructor
  · simp only [exactValue, fValue, fScaled]
    cases fSign a <;> cases fSign b <;> simp <;> field_simp <;> norm_num
  · simp [fDiv, isNaN_of_finite ha, isNaN_of_finite hb, isInf_of_finite ha, isInf_of_finite hb, hz]

theorem fDiv_le {a b c : F32} (ha : isFinite a = true) (hb : isFinite b = true)
    (hz : isZero b = false) (hc : isFinite c = true) (h : fValue a / fValue b ≤ fValue c) :
    fLe (fDiv a b) c = true := by
  obtain ⟨he, hr⟩ := fDiv_finite ha hb hz
  rw [hr]; exact fRound_le (fMag_pos hz) hc (he.trans_le h)

theorem le_fDiv {a b c : F32} (ha : isFinite a = true) (hb : isFinite b = true)
    (hz : isZero b = false) (hc : isFinite c = true) (h : fValue c ≤ fValue a / fValue b) :
    fLe c (fDiv a b) = true := by
  obtain ⟨he, hr⟩ := fDiv_finite ha hb hz
  rw [hr]; exact le_fRound (fMag_pos hz) hc (h.trans_eq he.symm)

/-! ## Helper functions -/

/-- A clamp between bounds that are numbers in order lies between them. -/
theorem fClamp_mem {x lo hi : F32} (hx : isNaN x = false) (h : fLe lo hi = true) :
    fLe lo (fClamp x lo hi) = true ∧ fLe (fClamp x lo hi) hi = true := by
  obtain ⟨hlo, hhi⟩ := isNaN_of_fLe h
  unfold fClamp
  split
  · exact ⟨h, by simp [fLe, hhi]⟩
  · next h1 =>
    split
    · exact ⟨by simp [fLe, hlo], h⟩
    · next h2 =>
      rw [fLt_iff hhi hx, not_lt] at h1
      rw [fLt_iff hx hlo, not_lt] at h2
      exact ⟨(fLe_iff hlo hx).2 h2, (fLe_iff hx hhi).2 h1⟩

theorem isNaN_nan0 (x : F32) : isNaN (nan0 x) = false := by
  unfold nan0
  split
  · decide
  · next h => simpa using h

/-! ## One rounding, on values -/

/-- A rounded magnitude is nearest to the exact one among all magnitudes, and has an even last bit if
another is equally near. -/
theorem roundUnbounded_nearest (num : Nat) {den : Nat} (hden : 0 < den) (c : Nat) :
    |(magOf (roundUnbounded num den) : ℚ) - num / den| ≤ |(magOf c : ℚ) - num / den| ∧
      (|(magOf (roundUnbounded num den) : ℚ) - num / den| = |(magOf c : ℚ) - num / den| →
        magOf c ≠ magOf (roundUnbounded num den) → roundUnbounded num den % 2 = 0) := by
  obtain ⟨b, h0, h1, h⟩ := roundUnbounded_spec num hden
  have hd : (0 : ℚ) < den := by exact_mod_cast hden
  obtain ⟨q, hq⟩ : ∃ q : ℚ, q = num / den := ⟨_, rfl⟩
  have hn : (num : ℚ) = q * den := by rw [hq]; field_simp
  have h0' : (magOf b : ℚ) ≤ q := by rw [hq, le_div_iff₀ hd]; exact_mod_cast h0
  have h1' : q < (magOf (b + 1) : ℚ) := by rw [hq, div_lt_iff₀ hd]; exact_mod_cast h1
  have hc : (magOf c : ℚ) ≤ magOf b ∨ (magOf (b + 1) : ℚ) ≤ magOf c := by
    rcases Nat.lt_or_ge b c with g | g
    · right; exact_mod_cast magOf_le.2 g
    · left; exact_mod_cast magOf_le.2 g
  have lo : 2 * num ≤ (magOf b + magOf (b + 1)) * den → 2 * q ≤ magOf b + magOf (b + 1) := by
    intro g
    have : (2 * num : ℚ) ≤ (magOf b + magOf (b + 1)) * den := by exact_mod_cast g
    rw [hn] at this
    nlinarith
  have hi : (magOf b + magOf (b + 1)) * den ≤ 2 * num → magOf b + magOf (b + 1) ≤ 2 * q := by
    intro g
    have : ((magOf b + magOf (b + 1)) * den : ℚ) ≤ 2 * num := by exact_mod_cast g
    rw [hn] at this
    nlinarith
  have tie : 2 * q = magOf b + magOf (b + 1) → 2 * num = (magOf b + magOf (b + 1)) * den := by
    intro g
    have : (2 * num : ℚ) = (magOf b + magOf (b + 1)) * den := by rw [hn, ← g]; ring
    exact_mod_cast this
  have ne : ∀ e, magOf c ≠ magOf e → (magOf c : ℚ) ≠ magOf e := fun e g => by exact_mod_cast g
  rw [← hq]
  rcases h with ⟨hr, h⟩ | ⟨hr, h⟩
  · have hl : 2 * q ≤ magOf b + magOf (b + 1) := lo (by omega)
    rw [hr, abs_of_nonpos (by linarith : (magOf b : ℚ) - q ≤ 0)]
    rcases hc with hc | hc
    · rw [abs_of_nonpos (by linarith)]
      exact ⟨by linarith, fun he hne => absurd (by linarith) (ne b hne)⟩
    · rw [abs_of_nonneg (by linarith)]
      refine ⟨by linarith, fun he _ => ?_⟩
      have := tie (by linarith)
      omega
  · have hl : magOf b + magOf (b + 1) ≤ 2 * q := hi (by omega)
    rw [hr, abs_of_nonneg (by linarith : (0 : ℚ) ≤ magOf (b + 1) - q)]
    rcases hc with hc | hc
    · rw [abs_of_nonpos (by linarith)]
      refine ⟨by linarith, fun he _ => ?_⟩
      have := tie (by linarith)
      omega
    · rw [abs_of_nonneg (by linarith)]
      exact ⟨by linarith, fun he hne => absurd (by linarith) (ne (b + 1) hne)⟩

/-- A rounding stays below infinity exactly when twice the exact value stays below the two values
around the overflow threshold, the greatest finite one and the next power of two. -/
theorem roundBits_lt_inf_iff (num : Nat) {den : Nat} (hden : 0 < den) :
    roundBits num den < 0x7F800000 ↔ 2 * num < (magOf 0x7F7FFFFF + magOf 0x7F800000) * den := by
  rw [roundBits_eq]
  obtain ⟨b, h0, h1, h⟩ := roundUnbounded_spec num hden
  have mono : ∀ {i j}, i ≤ j → magOf i * den ≤ magOf j * den := fun g =>
    Nat.mul_le_mul_right den (magOf_le.2 g)
  have hlt : magOf 0x7F7FFFFF * den < magOf 0x7F800000 * den :=
    Nat.mul_lt_mul_of_pos_right (magOf_lt.2 (by decide)) hden
  simp only [Nat.add_mul] at h ⊢
  rcases Nat.lt_trichotomy b 0x7F7FFFFF with hb | rfl | hb
  · have := mono (show b + 1 ≤ 0x7F7FFFFF by omega)
    omega
  · simp only [Nat.reduceAdd] at h h1
    omega
  · have := mono (show 0x7F800000 ≤ b by omega)
    omega

theorem magOf_around_overflow :
    ((magOf 0x7F7FFFFF + magOf 0x7F800000 : Nat) : ℚ) = 2 * (overflowBound * 2 ^ 149) := by
  rw [show magOf 0x7F7FFFFF + magOf 0x7F800000 = (2 ^ 25 - 1) * 2 ^ 126 * 2 ^ 127 by decide +kernel,
    overflowBound]
  push_cast
  norm_num

theorem abs_exactValue (n : Bool) (num den : Nat) :
    |exactValue n num den| = (num : ℚ) / den / 2 ^ 149 := by
  cases n <;> simp [exactValue, abs_div, abs_neg]

/-- All that one rounding does: the nearest value, the even one of two, or the infinity of its sign. -/
theorem fRound_roundsTo (n : Bool) (num : Nat) {den : Nat} (hden : 0 < den) :
    RoundsTo (fRound n num den) (exactValue n num den) := by
  have hd : (0 : ℚ) < den := by exact_mod_cast hden
  have hiff := roundBits_lt_inf_iff num hden
  have hb : |exactValue n num den| < overflowBound ↔ roundBits num den < 0x7F800000 := by
    rw [hiff, abs_exactValue, div_lt_iff₀ (by positivity), div_lt_iff₀ hd]
    have : (2 * num < (magOf 0x7F7FFFFF + magOf 0x7F800000) * den) ↔
        (2 * num : ℚ) < ((magOf 0x7F7FFFFF + magOf 0x7F800000 : Nat) : ℚ) * den := by
      exact_mod_cast Iff.rfl
    rw [this, magOf_around_overflow]
    constructor <;> intro h <;> linarith
  have hle := roundBits_le num den
  refine ⟨fun h => ?_, fun h => ?_⟩
  · have hfin := hb.1 h
    have heq : roundBits num den = roundUnbounded num den := by rw [roundBits_eq] at hfin ⊢; omega
    refine ⟨by simpa [isFinite] using hfin, fun y _ => ?_⟩
    have hp : (0 : ℚ) < 2 ^ 149 := by positivity
    obtain ⟨v1, v2⟩ := roundUnbounded_nearest num hden (fMagBits y)
    obtain ⟨z1, z2⟩ := roundUnbounded_nearest num hden 0
    rw [← heq] at v1 v2 z1 z2
    have hq : (0 : ℚ) ≤ num / den := by positivity
    have hy : (0 : ℚ) ≤ magOf (fMagBits y) := by positivity
    have hev : roundBits num den % 2 = 0 → (fRound n num den).getLsbD 0 = false := by
      intro g
      have : (fRound n num den).toNat % 2 = 0 := by
        rw [toNat_eq, fMagBits_fRound]; split <;> omega
      simp [BitVec.getLsbD, Nat.testBit_zero, this]
    -- the distance from the exact value to any value, by its magnitude and the side it lies on
    have dist : ∀ x : F32, |fValue x - exactValue n num den| =
        |(if fSign x = n then (magOf (fMagBits x) : ℚ) else -magOf (fMagBits x)) - num / den| /
          2 ^ 149 := by
      intro x
      conv_rhs => rhs; rw [← abs_of_pos hp]
      rw [← abs_div]
      rw [fValue_eq, exactValue]
      cases hx : fSign x <;> cases n <;> simp only [Bool.false_eq_true, if_true, if_false, reduceCtorEq]
      · congr 1; ring
      · rw [← abs_neg]; congr 1; ring
      · congr 1; ring
      · rw [← abs_neg]; congr 1; ring
    have val : ∀ x : F32, fSign x = n → magOf (fMagBits x) = magOf (roundBits num den) →
        fValue x = fValue (fRound n num den) := by
      intro x hs hm
      rw [fValue_eq, fValue_eq, hs, hm, fSign_fRound, fMagBits_fRound]
    rw [dist y, dist (fRound n num den), fSign_fRound, if_pos rfl, fMagBits_fRound,
      div_le_div_iff_of_pos_right hp, div_left_inj' hp.ne']
    by_cases hs : fSign y = n
    · rw [if_pos hs]
      exact ⟨v1, fun he hne => hev (v2 he fun hm => hne (val y hs hm))⟩
    · rw [if_neg hs, abs_of_nonpos (by linarith : -(magOf (fMagBits y) : ℚ) - num / den ≤ 0)]
      rw [magOf_zero, Nat.cast_zero, abs_of_nonpos (by linarith : (0 : ℚ) - num / den ≤ 0)] at z1 z2
      refine ⟨by linarith, fun he hne => hev (z2 (by linarith) fun hm => hne ?_)⟩
      have h0 : (magOf (fMagBits y) : ℚ) = 0 := by linarith
      rw [fValue_eq, fValue_eq, fMagBits_fRound, ← hm, h0]
      simp
  · have : ¬ roundBits num den < 0x7F800000 := fun c => absurd (hb.2 c) (not_lt.2 h)
    refine ⟨by simp only [isInf, fMagBits_fRound, decide_eq_true_eq]; omega, ?_⟩
    have hpos : (0 : ℚ) < num / den / 2 ^ 149 := by
      rw [← abs_exactValue n]
      exact lt_of_lt_of_le (by norm_num [overflowBound]) h
    rw [fSign_fRound]
    cases n
    · simp only [Bool.false_eq_true, false_iff, exactValue, if_false]; linarith
    · simp only [exactValue, if_true, true_iff, neg_div]; linarith

/-- A zero is the rounded zero, of either sign. -/
theorem roundsTo_zero {r : F32} (h : isZero r = true) : RoundsTo r 0 := by
  have hv : fValue r = 0 := (fValue_eq_zero_iff r).2 h
  refine ⟨fun _ => ⟨?_, fun y _ => ?_⟩, fun g => absurd g (by norm_num [overflowBound])⟩
  · simp [isZero] at h; simp [isFinite, h]
  · rw [hv, sub_zero, sub_zero, abs_zero]
    exact ⟨abs_nonneg _, fun g hne => absurd (abs_eq_zero.1 g.symm) hne⟩

end Sys2Proof.Machine
end

