-- ==== Sys2Proof/Machine/AsmText.lean ====
section
/-! DEFINITION. The characters of an assembler line (rule R112): comments, operands and their
spellings, read into the lines of Machine/Assembler.lean (assumption log 16). -/

namespace Sys2Proof.Machine

/-- Space and tab separate the mnemonic from its operands and pad them. -/
def isBlank (c : Char) : Bool := c == ' ' || c == '\t'

/-- A token without the blanks around it. -/
def trimBlanks (cs : List Char) : List Char :=
  (((cs.dropWhile isBlank).reverse).dropWhile isBlank).reverse

/-- `;` starts a comment (rule R112). -/
def stripComment (cs : List Char) : List Char := cs.takeWhile (· != ';')

/-- The pieces between separators; always at least one. -/
def splitAtChar (sep : Char) : List Char → List (List Char)
  | [] => [[]]
  | c :: cs =>
    match splitAtChar sep cs with
    | [] => [[c]]
    | p :: ps => if c == sep then [] :: p :: ps else (c :: p) :: ps

/-- The value of a digit of a base of at most 16. -/
def digitOf (base : Nat) (c : Char) : Option Nat :=
  let n := c.toNat
  let d := if 48 ≤ n ∧ n ≤ 57 then some (n - 48)
    else if 65 ≤ n ∧ n ≤ 70 then some (n - 55)
    else if 97 ≤ n ∧ n ≤ 102 then some (n - 87)
    else none
  d.filter (· < base)

/-- Digits after what has been read. -/
def readDigits (base : Nat) : Nat → List Char → Option Nat
  | acc, [] => some acc
  | acc, c :: cs =>
    match digitOf base c with
    | some d => readDigits base (acc * base + d) cs
    | none => none

/-- At least one digit. -/
def readNumeral (base : Nat) (cs : List Char) : Option Nat :=
  if cs.isEmpty then none else readDigits base 0 cs

/-- An unsigned number: decimal, or hexadecimal after `0x`. -/
def readUnsigned (cs : List Char) : Option Nat :=
  match cs with
  | '0' :: 'x' :: ds => readNumeral 16 ds
  | ds => readNumeral 10 ds

/-- A leading minus sign, and the rest. -/
def readSign : List Char → Bool × List Char
  | '-' :: ds => (true, ds)
  | ds => (false, ds)

/-- A signed decimal number. -/
def readSigned (cs : List Char) : Option Int :=
  match readSign cs with
  | (neg, ds) => (readNumeral 10 ds).map fun n => if neg then -(n : Int) else (n : Int)

/-- `n / 10 ^ k` with a sign, where binary32 represents it exactly (rule R112). -/
def exactDecimal (neg : Bool) (n k : Nat) : Option F32 :=
  let bits := roundBits (n * 2 ^ 149) (10 ^ k)
  if bits < 0x7F800000 ∧ fMag (fPack false bits) * 10 ^ k = n * 2 ^ 149 then some (fPack neg bits)
  else none

/-- A sample component: `f32:0x` and eight hexadecimal digits, or a decimal literal that binary32
represents exactly (rule R112). -/
def readF32 (cs : List Char) : Option F32 :=
  match cs with
  | 'f' :: '3' :: '2' :: ':' :: '0' :: 'x' :: ds =>
    if ds.length = 8 then (readNumeral 16 ds).map (BitVec.ofNat 32) else none
  | _ =>
    match readSign cs with
    | (neg, ds) =>
      match splitAtChar '.' ds with
      | [whole] => (readNumeral 10 whole).bind fun n => exactDecimal neg n 0
      | [whole, frac] =>
        match readNumeral 10 whole, readNumeral 10 frac with
        | some a, some b => exactDecimal neg (a * 10 ^ frac.length + b) frac.length
        | _, _ => none
      | _ => none

/-- The pairs `(i, q)` of a block, their operands split at the commas. -/
def readPairs : List (List Char) → Option (List Cplx)
  | [] => some []
  | [_] => none
  | i :: q :: rest =>
    match i, q.reverse with
    | '(' :: i', ')' :: q' =>
      match readF32 (trimBlanks i'), readF32 (trimBlanks q'.reverse), readPairs rest with
      | some re, some im, some xs => some (⟨re, im⟩ :: xs)
      | _, _, _ => none
    | _, _ => none

/-- The register names, register 0x00 first (rule R52). -/
def registerNames : List String :=
  ["STATUS", "SAMPLE_RATE", "SPS", "NCO_PHASE", "NCO_FREQ", "LOCK_METRIC", "LOOP_BW"] ++
  ["OMEGA_MAX", "AGC_GAIN", "POWER_LAST", "POWER_COUNT", "TIMING_TAU", "TIMING_KIND", "DIBIT_COUNT"] ++
  ["ASM_FILL", "BUFFERS_COMPLETED", "DESIGN_COUNT", "CACHE_SIZE", "TAP_COUNT", "TIME_LO", "TIME_HI"] ++
  ["CONSUMER_COUNT", "FRAMER_GEN", "BUF_LISTENER_COUNT", "EVT_LISTENER", "MSG_LISTENER"] ++
  ["PREV_SYMBOL_RE", "PREV_SYMBOL_IM"]

/-- The operand of READ_REG: a number or a register name (rule R112). -/
def readRegister (cs : List Char) : Option Nat :=
  match readUnsigned cs with
  | some n => some n
  | none => registerNames.findIdx? (· == String.ofList cs)

/-- `on, id` or `off` (rule R112). -/
def readListener (ops : List (List Char)) : Option ListenerOperand :=
  match ops with
  | [w, id] => if String.ofList w == "on" then (readUnsigned id).map .on else none
  | [w] => if String.ofList w == "off" then some .off else none
  | _ => none

/-- The one operand of a command that takes one number. -/
def oneNumber (line : Nat → AsmLine) (ops : List (List Char)) : Option AsmLine :=
  match ops with
  | [n] => (readUnsigned n).map line
  | _ => none

/-- A command or pseudo-instruction by its mnemonic and operands (rules R112, R113). -/
def readCommand (mnemonic : String) (ops : List (List Char)) : Option AsmLine :=
  match mnemonic with
  | "NOP" => if ops = [] then some .nop else none
  | "RECEIVE_BLOCK" =>
    match ops with
    | ts :: pairs =>
      match readNumeral 10 ts, readPairs pairs with
      | some t, some xs => some (.receiveBlock t xs)
      | _, _ => none
    | [] => none
  | "SET_SAMPLE_RATE" => oneNumber .setSampleRate ops
  | "FREQ_CORRECTION_CHANGE" =>
    match ops with
    | [] => some (.freqCorrectionChange 0)
    | [v] => (readSigned v).map .freqCorrectionChange
    | _ => none
  | "RESET_LOOP" => if ops = [] then some .resetLoop else none
  | "SET_BANDWIDTH" => oneNumber .setBandwidth ops
  | "CORRECT_INVERSION" => oneNumber .correctInversion ops
  | "ADD_CONSUMER" => oneNumber .addConsumer ops
  | "REMOVE_CONSUMER" => oneNumber .removeConsumer ops
  | "ADD_BUFFER_LISTENER" => oneNumber .addBufferListener ops
  | "REMOVE_BUFFER_LISTENER" => oneNumber .removeBufferListener ops
  | "SET_EVENT_LISTENER" => (readListener ops).map .setEventListener
  | "SET_MESSAGE_LISTENER" => (readListener ops).map .setMessageListener
  | "FLUSH" => if ops = [] then some .flush else none
  | "READ_REG" =>
    match ops with
    | [n] => (readRegister n).map .readReg
    | _ => none
  | "CLEAR_STATUS" => if ops = [] then some .clearStatus else none
  | "RESET" => if ops = [] then some .pseudoReset else none
  | "READ_STATUS" => if ops = [] then some .pseudoReadStatus else none
  | "DETACH_EVENTS" => if ops = [] then some .pseudoDetachEvents else none
  | "DETACH_MESSAGES" => if ops = [] then some .pseudoDetachMessages else none
  | "TEARDOWN" => if ops = [] then some .pseudoTeardown else none
  | "INVERT" => if ops = [] then some .pseudoInvert else none
  | _ => none

/-- The operands after a mnemonic, separated by commas (rule R112). -/
def operandsOf (cs : List Char) : List (List Char) :=
  if trimBlanks cs = [] then [] else (splitAtChar ',' cs).map trimBlanks

/-- One line of text without its comment. -/
def readLine (cs : List Char) : Option AsmLine :=
  let t := trimBlanks (stripComment cs)
  readCommand (String.ofList (t.takeWhile fun c => !isBlank c)) (operandsOf (t.dropWhile fun c => !isBlank c))

/-- The words of one line of text: none where it is no command, no words where it is blank or all comment. -/
def assembleText (line : String) : Option (List Word) :=
  let cs := line.toList
  if trimBlanks (stripComment cs) = [] then some [] else (readLine cs).bind assembleLine

/-- A program: one command per line (rule R112). -/
def assembleProgram : List String → Option (List Word)
  | [] => some []
  | l :: ls =>
    match assembleText l, assembleProgram ls with
    | some ws, some rest => some (ws ++ rest)
    | _, _ => none

end Sys2Proof.Machine
end

