-- ==== Sys2Proof/Tests/Slice0.lean ====
section
/-! SUPPORT. Tests: well-formedness, the decoding of words written out from the spec's encoding tables,
one or two steps of each command with the results of `95_test_vectors.md`, and for every statement with
hypotheses a state and operands that meet them. -/

namespace Sys2Proof.Tests

open Sys2Proof Sys2Proof.Machine Sys2Proof.Safety

/-! ## Helpers -/

/-- A running core configured at a rate, with the premise of `95_test_vectors.md` section 0 that the
filter is [1.0]. -/
def tunedTo (rate : Word) : State :=
  { configured rate [0x3F800000#32] { entries := [(rate, [0x3F800000#32])], designCount := 1#32 }
      State.reset with phase := .running }

/-- A configured core at 36000 Hz: two samples per symbol. -/
def tuned : State := tunedTo 36000#32

/-- The state a command leaves. -/
def after (i : Instr) (s : State) : State :=
  match exec i s with
  | .next t => t
  | .fault _ => s
  | .refused _ => s

theorem exec_after (i : Instr) (s : State) : exec i s = .next (after i s) := by
  obtain ⟨st, u, h, -⟩ := exec_frame i s
  simp [after, h]

/-- The state after a step. -/
def stepped (s : State) : State :=
  match step s with
  | .next t => t
  | .fault _ => s
  | .refused _ => s

/-- The contents of a register. -/
def reg (n : Byte) (s : State) : Option Word := regValue n s

/-- `n` samples that are +0.0. -/
def silence (n : Nat) : List Cplx := List.replicate n Cplx.zero

/-! ## Well-formedness: an ill-formed term for each check -/

/-- A block of 2^24 samples or more has no L. -/
theorem test_wf_refuses_long_block (n : Nat) (h : 2 ^ 24 ≤ n) (x : Cplx) :
    (Instr.receiveBlock 0 (List.replicate n x)).wf = false := by
  simp only [Instr.wf, List.length_replicate, decide_eq_false_iff_not]
  omega

theorem test_wf_refuses_defined_opcode_as_illegal : (Instr.illegal 0x0F 0).wf = false := by decide

theorem test_wf_takes_first_illegal_opcode : (Instr.illegal 0x10 0).wf = true := by decide

/-! ## Decoding, every constructor (vectors E) -/

theorem test_decode_nop : decode [0x00ABCDEF#32] = .ok (.nop 0xABCDEF, []) := by decide

theorem test_decode_receiveBlock :
    decode [0x01000001#32, 0x000003E8#32, 0x00000002#32, 0x3F800000#32, 0xBF800000#32, 0x04000000#32] =
      .ok (.receiveBlock 0x2000003E8 [⟨0x3F800000#32, 0xBF800000#32⟩], [0x04000000#32]) := by decide

theorem test_decode_empty_receiveBlock :
    decode [0x01000000#32, 0x00000005#32, 0x00000000#32] = .ok (.receiveBlock 5 [], []) := by decide

theorem test_decode_setSampleRate :
    decode [0x02000001#32, 0x00008CA0#32] = .ok (.setSampleRate 1 36000, []) := by decide

theorem test_decode_freqCorrectionChange :
    decode [0x03FFFF9C#32] = .ok (.freqCorrectionChange 0xFFFF9C, []) ∧
      (fcvValue 0xFFFF9C).toInt = -100 := by decide

theorem test_decode_resetLoop : decode [0x04000001#32] = .ok (.resetLoop 1, []) := by decide

theorem test_decode_setBandwidth : decode [0x05000006#32] = .ok (.setBandwidth 1 2, []) := by decide

theorem test_decode_correctInversion :
    decode [0x0600000F#32] = .ok (.correctInversion 3 3, []) := by decide

theorem test_decode_addConsumer : decode [0x07000105#32] = .ok (.addConsumer 1 5, []) := by decide

theorem test_decode_removeConsumer : decode [0x08000005#32] = .ok (.removeConsumer 0 5, []) := by decide

theorem test_decode_addBufferListener :
    decode [0x09000003#32] = .ok (.addBufferListener 0 3, []) := by decide

theorem test_decode_removeBufferListener :
    decode [0x0A000003#32] = .ok (.removeBufferListener 0 3, []) := by decide

theorem test_decode_setEventListener :
    decode [0x0B0003FF#32] = .ok (.setEventListener 1 1 255, []) := by decide

theorem test_decode_setMessageListener :
    decode [0x0C000105#32] = .ok (.setMessageListener 0 1 5, []) := by decide

theorem test_decode_flush : decode [0x0D000001#32] = .ok (.flush 1, []) := by decide

theorem test_decode_readReg : decode [0x0E000102#32] = .ok (.readReg 1 2, []) := by decide

theorem test_decode_clearStatus : decode [0x0F000000#32] = .ok (.clearStatus 0, []) := by decide

theorem test_decode_illegal :
    decode [0x10000000#32] = .ok (.illegal 0x10 0, []) ∧
      decode [0xFF123456#32] = .ok (.illegal 0xFF 0x123456, []) := by decide

theorem test_decode_waits :
    decode [] = .error .noCommandWord ∧ decode [0x02000000#32] = .error .payloadIncomplete ∧
      decode [0x01000001#32, 0#32, 0#32, 0#32] = .error .payloadIncomplete := by decide

/-! ## Assembly (rules R112, R113) -/

theorem test_assemble_lines :
    assembleLine (.setSampleRate 25000) = some [0x02000000#32, 0x000061A8#32] ∧
      assembleLine (.freqCorrectionChange (-100)) = some [0x03FFFF9C#32] ∧
      assembleLine (.setEventListener (.on 7)) = some [0x0B000107#32] ∧
      assembleLine (.receiveBlock 1000 [⟨0x3F800000#32, 0#32⟩]) =
        some [0x01000001#32, 0x000003E8#32, 0#32, 0x3F800000#32, 0#32] := by decide

theorem test_assemble_pseudo :
    assembleLine .pseudoInvert = some [0x06000002#32] ∧
      assembleLine .pseudoDetachMessages = some [0x0C000000#32] ∧
      assembleLine .pseudoReadStatus = some [0x0E000000#32] := by decide

/-- The lines and the words of `95_test_vectors.md` programs P1 to P3. -/
theorem test_text_lines :
    assembleText "SET_SAMPLE_RATE 25000        ; 02000000 000061A8" = some [0x02000000#32, 0x000061A8#32] ∧
      assembleText "READ_REG LOCK_METRIC" = some [0x0E000005#32] ∧
      assembleText "READ_REG 0x1B" = some [0x0E00001B#32] ∧
      assembleText "SET_EVENT_LISTENER on, 7" = some [0x0B000107#32] ∧
      assembleText "SET_EVENT_LISTENER off" = some [0x0B000000#32] ∧
      assembleText "  ; a comment" = some [] ∧
      assembleText "SET_BANDWIDTH 4" = none ∧
      assembleText "CORRECT_INVERSION 1" = some [0x06000001#32] ∧
      assembleText "CORRECT_INVERSION 0" = none := by decide +kernel

theorem test_text_block :
    assembleText "RECEIVE_BLOCK 2000, (3,4), (f32:0xBF3504F3, -0.5)" =
        some [0x01000002#32, 0x000007D0#32, 0#32, 0x40400000#32, 0x40800000#32, 0xBF3504F3#32,
          0xBF000000#32] ∧
      assembleText "RECEIVE_BLOCK 1, (0.1, 0)" = none ∧
      assembleProgram ["RESET", "INVERT", ""] = some [0x04000000#32, 0x06000002#32] := by decide +kernel

/-! ## Words placed where the step takes them -/

theorem test_table_word :
    decodeTableWord 32 0x0B000107 = some (.setEventListener 0 1 7) ∧
      decodeTableWord 32 0x01000000 = some (.receiveBlock 0 []) := by decide

theorem test_fetch_word_runs :
    (stepped (State.reset.withFetchWord 32 0x0C000105)).listeners.msgId = 5#8 := by decide

/-! ## Reset -/

/-- The first column of rule R54: nothing is configured, and the framer is not attached. -/
theorem test_reset_status : reg 0x00 State.reset = some 0x00000000#32 := by decide

/-- The registers after a configuration at 50000 Hz are those of vector 0.1. -/
theorem test_registers_at_50000 :
    reg 0x00 (tunedTo 50000#32) = some 0x00000011#32 ∧ reg 0x02 (tunedTo 50000#32) = some 0x4031C71C#32 ∧
      reg 0x06 (tunedTo 50000#32) = some 0x00000101#32 ∧ reg 0x07 (tunedTo 50000#32) = some 0x3F20D97C#32 ∧
      reg 0x0B (tunedTo 50000#32) = some 0x3FB1C71C#32 := by decide +kernel

/-- Reset strikes after two of a READ_REG's records could be out: the DATA record is, the RESP is not. -/
theorem test_reset_during_command :
    (stepped { tuned with rst := .during 1 2, cmd := [0x0E000001#32] }).trace = [.data 36000#32] ∧
      (stepped { tuned with rst := .during 1 2, cmd := [0x0E000001#32] }).flags.valid = false := by
  decide +kernel

/-! ## The commands -/

theorem test_nop : (after (.nop 0xABCDEF) tuned).trace = [.resp 0x00 0x00] := by decide +kernel

/-- Vector T1.6: four zero samples at 25000 Hz give two dibits 0. -/
theorem test_receiveBlock_records :
    (after (.receiveBlock 10 (silence 4)) (tunedTo 25000#32)).trace =
      [.framerIn 1 0 10, .framerIn 1 0 10, .resp 0x01 0x00] := by decide +kernel

theorem test_receiveBlock_timing :
    (after (.receiveBlock 10 (silence 4)) (tunedTo 25000#32)).timing.tau = 0x3E2AAAA0#32 ∧
      (after (.receiveBlock 10 (silence 4)) (tunedTo 25000#32)).timing.kind = .ontime := by
  decide +kernel

/-- Vector T1.1: a rate already in the cache calls no design, and 10000 Hz is no valid rate. -/
theorem test_setSampleRate_cached :
    (after (.setSampleRate 0 36000) tuned).cache.designCount = 1#32 ∧
      (after (.setSampleRate 0 36000) tuned).trace = [.resp 0x02 0x00] := by decide +kernel

theorem test_setSampleRate_invalid :
    reg 0x00 (after (.setSampleRate 0 10000) tuned) = some 0x0000061A#32 := by decide +kernel

theorem test_freqCorrectionChange :
    (after (.freqCorrectionChange 0xFFFF9C)
        { tuned with loop := { tuned.loop with omega := 0x3F000000#32, bwCur := 3 } }).loop.omega = 0#32 := by
  decide +kernel

theorem test_resetLoop :
    reg 0x06 (after (.resetLoop 0) { tuned with loop := { tuned.loop with bwCur := 3 } }) =
      some 0x00000101#32 := by decide +kernel

theorem test_resetLoop_reserved :
    (after (.resetLoop 1) tuned).trace = [.resp 0x04 0x02] := by decide +kernel

/-- Vector E: LOOP_BW then reads 0x00000102. -/
theorem test_setBandwidth : reg 0x06 (after (.setBandwidth 0 2) tuned) = some 0x00000102#32 := by
  decide +kernel

/-- Vectors C: one symbol's rotation at 36000 Hz, and the clamp at 50000 Hz. -/
theorem test_correctInversion :
    reg 0x04 (after (.correctInversion 0 1) tuned) = some 0x3F490FDB#32 := by decide +kernel

theorem test_correctInversion_clamped :
    reg 0x04 (after (.correctInversion 0 2) (tunedTo 50000#32)) = some 0x3F20D97C#32 := by decide +kernel

theorem test_addConsumer :
    (after (.addConsumer 0 5) tuned).registry.consumers = [.asm, .framer, .tap 5] := by decide +kernel

/-- Vector D: a duplicate is found before a full table. -/
theorem test_addConsumer_duplicate_when_full :
    (after (.addConsumer 0 3)
        { tuned with registry := { tuned.registry with
            consumers := [.asm, .framer, .tap 1, .tap 2, .tap 3, .tap 4, .tap 5, .tap 6] } }).trace =
      [.resp 0x07 0x08] := by decide +kernel

theorem test_removeConsumer_absent :
    (after (.removeConsumer 0 7) tuned).trace = [.resp 0x08 0x09] := by decide +kernel

theorem test_removeConsumer :
    (after (.removeConsumer 0 1) (after (.addConsumer 0 2) (after (.addConsumer 0 1) tuned))).registry.consumers =
      [.asm, .framer, .tap 2] := by decide +kernel

theorem test_addBufferListener :
    (after (.addBufferListener 0 3) tuned).listeners.bufListeners = [3] := by decide +kernel

theorem test_addBufferListener_full :
    (after (.addBufferListener 0 8)
        { tuned with listeners := { tuned.listeners with bufListeners := [0, 1, 2, 3, 4, 5, 6, 7] } }).trace =
      [.resp 0x09 0x07] := by decide +kernel

theorem test_removeBufferListener :
    (after (.removeBufferListener 0 3)
        { tuned with listeners := { tuned.listeners with bufListeners := [4, 3] } }).listeners.bufListeners =
      [4] := by decide +kernel

theorem test_removeBufferListener_absent :
    (after (.removeBufferListener 0 9) tuned).trace = [.resp 0x0A 0x09] := by decide +kernel

theorem test_setEventListener : reg 0x18 (after (.setEventListener 0 1 255) tuned) = some 0x000001FF#32 := by
  decide +kernel

theorem test_setMessageListener :
    reg 0x19 (after (.setMessageListener 0 1 5) tuned) = some 0x00000105#32 := by decide +kernel

/-- Vector B: one byte and one pending dibit are flushed to two listeners. -/
theorem test_flush :
    (after (.flush 0)
        { tuned with
          asm := { tuned.asm with buf := [0x36, 0x00], fill := 1, part := 0x01, pcnt := 1 }
          listeners := { tuned.listeners with bufListeners := [3, 4] } }).trace =
      [.buf 3 [0x36], .buf 4 [0x36], .resp 0x0D 0x00] := by decide +kernel

theorem test_readReg : (after (.readReg 0 0x02) tuned).trace = [.data 0x40000000#32, .resp 0x0E 0x00] := by
  decide +kernel

theorem test_readReg_reserved :
    (after (.readReg 0 0x1C) tuned).trace = [.resp 0x0E 0x02] ∧
      (after (.readReg 0 0x1C) tuned).flags.lastStatus = 0x00#8 := by decide +kernel

theorem test_clearStatus :
    reg 0x00 (after (.clearStatus 0) (after (.illegal 0x10 0) tuned)) = some 0x00000011#32 := by
  decide +kernel

theorem test_illegal :
    (after (.illegal 0xFF 0x123456) tuned).trace = [.resp 0xFF 0x01] ∧
      (after (.illegal 0xFF 0x123456) tuned).flags.lastStatus = 0x01#8 := by decide +kernel

/-! ## The datapath's functions (vectors F, A, C, G, S, B) -/

theorem test_fir_overflow_to_nan :
    (firBlock (installFilter [0x40000000#32, 0x40000000#32])
      [⟨0x7F7FFFFF#32, 0#32⟩, ⟨0xFF7FFFFF#32, 0#32⟩]).2 =
      [⟨0x7F800000#32, 0#32⟩, ⟨0x7FC00000#32, 0#32⟩] := by decide +kernel

theorem test_agc_example :
    (agcSample Config.defaults State.reset.agc ⟨0x40400000#32, 0x40800000#32⟩).2 =
      ⟨0x3F19999A#32, 0x3F4CCCCD#32⟩ := by decide +kernel

theorem test_phase_error :
    phaseError ⟨0x40000000#32, 0x3F800000#32⟩ = 0xBEAAAAAB#32 ∧
      phaseError ⟨0x7F800000#32, 0x7F800000#32⟩ = 0#32 := by decide +kernel

theorem test_symbol_step_timing :
    (symbolStep ⟨0x3F800000#32, 0#32⟩
        { tuned with timing := { tuned.timing with
            mid := ⟨0x3F000000#32, 0#32⟩, yPrev := ⟨0xBF800000#32, 0#32⟩, tau := 0x3F800000#32 } }).timing.tau =
      0x3FFC0000#32 := by decide +kernel

theorem test_slice :
    slice ⟨0x7FC00000#32, 0xBF800000#32⟩ = 2#2 ∧ slice ⟨0xBF800000#32, 0x80000000#32⟩ = 1#2 := by
  decide +kernel

/-- The pending dibit of program P2 of `95_test_vectors.md`: after nine dibits S.part is 0x01. -/
theorem test_pack_byte :
    packedBytes [1, 2, 3, 0] = [0x6C] ∧ pendingByte [0, 1, 2, 3, 3, 2, 1, 0, 1] = 0x01 ∧
      pendingByte [3, 2, 1] = 0x39 := by decide

theorem test_valid_rate_edges :
    rateValid Config.defaults 10000#32 = false ∧ rateValid Config.defaults 10001#32 = true ∧
      rateValid Config.defaults 16777216#32 = true ∧ rateValid Config.defaults 16777217#32 = false := by
  decide +kernel

/-! ## Witnesses: the hypotheses of the statements can be met -/

theorem test_witness_encoding :
    (Instr.receiveBlock 1 [⟨1#32, 2#32⟩]).wf = true ∧ (Instr.illegal 0xFF 0xFFFFFF).wf = true ∧
      decode [0x01000001#32, 1#32, 0#32, 1#32, 2#32] = .ok (.receiveBlock 1 [⟨1#32, 2#32⟩], []) := by decide

theorem test_witness_step :
    tuned.rst = .released ∧ tuned.phase = .running ∧
      decode [0x05000002#32] = .ok (.setBandwidth 0 2, []) ∧ (Instr.setBandwidth 0 2).wf = true ∧
      decode tuned.cmd = .error .noCommandWord := by decide +kernel

/-- A rejection with the lowest and with the highest error code, and a failed configuration. -/
theorem test_witness_rejected :
    (∃ t, exec (.illegal 0x10 0) tuned = .next t ∧ t.trace = tuned.trace ++ [] ++ [.resp 0x10 0x01]) ∧
      (∃ t, exec (.removeConsumer 0 7) tuned = .next t ∧ t.trace = tuned.trace ++ [] ++ [.resp 0x08 0x09]) ∧
      (∃ t, exec (.setSampleRate 0 0) tuned = .next t ∧
        t.trace = tuned.trace ++ [] ++ [.resp 0x02 0x06]) :=
  ⟨⟨after (.illegal 0x10 0) tuned, exec_after _ _, by decide +kernel⟩,
    ⟨after (.removeConsumer 0 7) tuned, exec_after _ _, by decide +kernel⟩,
    ⟨after (.setSampleRate 0 0) tuned, exec_after _ _, by decide +kernel⟩⟩

/-- Every field of reserved bits takes a value that is not 0. -/
theorem test_witness_reserved :
    (1 : BitVec 24) ≠ 0 ∧ (1 : BitVec 22) ≠ 0 ∧ (1 : BitVec 16) ≠ 0 ∧ (1 : BitVec 15) ≠ 0 := by decide

theorem test_witness_reset :
    ({ tuned with rst := .asserted } : State).rst = .asserted ∧ paramsOk Config.defaults = true ∧
      decode [0x00000000#32] = .ok (.nop 0, []) := by decide +kernel

/-- A reset before the command's last word, and one after its DATA record. -/
theorem test_witness_reset_during :
    (∃ t, decode [0x02000000#32, 36000#32] = .ok (.setSampleRate 0 36000, []) ∧
      exec (.setSampleRate 0 36000) { tuned with rst := .during 1 0, cmd := [] } = .next t) ∧
      (∃ t, decode [0x0E000001#32] = .ok (.readReg 0 1, []) ∧
        exec (.readReg 0 1) { tuned with rst := .during 1 1, cmd := [] } = .next t) :=
  ⟨⟨after (.setSampleRate 0 36000) { tuned with rst := .during 1 0, cmd := [] }, by decide, exec_after _ _⟩,
    ⟨after (.readReg 0 1) { tuned with rst := .during 1 1, cmd := [] }, by decide, exec_after _ _⟩⟩

/-- A configured core with a whole command on its port is good, bounded and on time, and it steps. -/
theorem test_witness_invariants :
    StateOk { tuned with cmd := [0x04000000#32] } ∧ LoopOk { tuned with cmd := [0x04000000#32] } ∧
      TimingOk { tuned with cmd := [0x04000000#32] } := by decide +kernel

theorem test_witness_step_answers :
    ∃ t, step { tuned with cmd := [0x04000000#32] } = .next t :=
  ⟨after (.resetLoop 0) { tuned with cmd := [] }, exec_after (.resetLoop 0) { tuned with cmd := [] }⟩

theorem test_witness_sticky :
    (∀ r, Instr.nop 0 ≠ .clearStatus r) ∧ (∃ t, exec (.nop 0) tuned = .next t) :=
  ⟨fun _ => by simp, ⟨after (.nop 0) tuned, exec_after _ _⟩⟩

theorem test_witness_cache :
    cacheFind 36000#32 tuned.cache.entries = some [0x3F800000#32] ∧
      rateValid tuned.params 36000#32 = true ∧ rateValid tuned.params 50000#32 = true ∧
      cacheFind 50000#32 tuned.cache.entries = none ∧ rateValid tuned.params 0#32 = false := by
  decide +kernel

/-- Both ends of the illegal range, and both ends of the register map. -/
theorem test_witness_ranges :
    0x10 ≤ (0x10#8).toNat ∧ 0x10 ≤ (0xFF#8).toNat ∧
      (registerTable tuned)[(0x00#8).toNat]? = some 0x11#32 ∧
      (registerTable tuned)[(0x1B#8).toNat]? = some 0#32 ∧ 0x1C ≤ (0x1C#8).toNat ∧
      0x1C ≤ (0xFF#8).toNat := by decide +kernel

theorem test_witness_registries :
    RegistryOk (after (.addConsumer 0 5) tuned) ∧
      ListenersOk (after (.addBufferListener 0 3) tuned) := by decide +kernel

/-- The three rejections of RECEIVE_BLOCK and an accepted block. -/
theorem test_witness_blocks :
    State.reset.flags.valid = false ∧ tuned.flags.valid = true ∧ silence 1 ≠ [] ∧
      isFinite (0x7F800000#32) = false ∧ (silence 2).all sampleFinite = true := by decide +kernel

theorem test_witness_block_runs :
    ∃ t, exec (.receiveBlock 10 (silence 2)) tuned = .next t :=
  ⟨after (.receiveBlock 10 (silence 2)) tuned, exec_after _ _⟩

theorem test_witness_datapath :
    [0x3F800000#32].length < 2 ^ 32 ∧
      (silence 3600).length = tuned.power.win.toNat ∧ tuned.power.cnt = 0#32 ∧ tuned.power.acc = 0#32 ∧
      tuned.registry.consumers.count .framer = 1 := by decide +kernel

theorem test_witness_timing :
    tuned.params = Config.defaults ∧ rateValid tuned.params tuned.rate.sampleRate = true ∧
      tuned.rate = rateFor tuned.params tuned.rate.sampleRate ∧ fLt posZero tuned.timing.tau = true := by
  decide +kernel

theorem test_witness_distributor :
    tuned.registry.consumers = .asm :: [.framer] ∧ Consumer.asm ∉ [Consumer.framer] ∧
      AssemblerOk tuned ∧ tuned.asm.fill = 0#32 ∧ tuned.asm.part = 0#8 ∧ tuned.asm.pcnt = 0#2 := by
  decide +kernel

/-- A tie, and exact values on both sides of the overflow threshold and on it, with both signs. -/
theorem test_witness_arithmetic :
    isFinite (0x3F800000#32) = true ∧ isFinite (0x33800000#32) = true ∧
      fAdd 0x3F800000#32 0x33800000#32 = 0x3F800000#32 ∧ isZero (0x33800000#32) = false ∧
      fSign 0x3F800000#32 = false ∧ isFinite (0x7F7FFFFF#32) = true ∧
      fAdd 0x7F7FFFFF#32 0x72FFFFFF#32 = 0x7F7FFFFF#32 ∧
      fAdd 0x7F7FFFFF#32 0x73000000#32 = 0x7F800000#32 ∧
      fSub 0xFF7FFFFF#32 0x73000000#32 = 0xFF800000#32 := by decide +kernel

theorem test_witness_overflow :
    |fValue 0x7F7FFFFF#32 + fValue 0x72FFFFFF#32| < overflowBound ∧
      overflowBound ≤ |fValue 0x7F7FFFFF#32 + fValue 0x73000000#32| := by decide +kernel

/-- A gain ring of AGC_WINDOW slots with the write index at either end. -/
theorem test_witness_agc :
    tuned.agc.env.length = tuned.params.agcWindow.toNat ∧
      (0#32).toNat < tuned.params.agcWindow.toNat ∧ (31#32).toNat < tuned.params.agcWindow.toNat ∧
      paramsOk tuned.params = true := by decide +kernel

end Sys2Proof.Tests
end

section
/-! PROOFS. One step of the machine, by cases (rules R5, R32, R390 to R396), and the constancy of the
parameters (rule R8). -/

namespace Sys2Proof.Machine

open Sys2Proof.Safety

/-! ## One step -/

theorem step_of_running {s : State} (hr : s.rst = .released) (hp : s.phase = .running) :
    step s = runCommand s := by simp only [step, hr, hp]

theorem step_of_boot {s : State} (hr : s.rst = .released) (hp : s.phase = .boot) :
    step s = bootStep s := by simp only [step, hr, hp]

theorem runCommand_of_decode {s : State} {i : Instr} {rest : List Word}
    (h : decode s.cmd = .ok (i, rest)) : runCommand s = exec i { s with cmd := rest } := by
  simp only [runCommand, h]

theorem runCommand_of_error {s : State} {e : DecodeError} (h : decode s.cmd = .error e) :
    runCommand s = .next s := by simp only [runCommand, h]

/-- A held reset is `hardReset` with some words left on the port. -/
theorem holdReset_eq (s : State) : ∃ ws, holdReset s = hardReset { s with cmd := ws } := by
  cases h : s.phase with
  | boot =>
    refine ⟨s.cmd, ?_⟩
    simp only [holdReset, h]
    rfl
  | running => exact ⟨discardPartial s.cmd, by simp only [holdReset, h]⟩

/-- A reset in the middle of a command is `hardReset` with some words left on the port and some records
out. -/
theorem abandonCommand_eq (words records : Nat) (s : State) :
    ∃ ws tr, abandonCommand words records s = hardReset { s with cmd := ws, trace := tr } := by
  unfold abandonCommand
  split
  · exact ⟨_, _, rfl⟩
  · split
    · exact ⟨_, _, rfl⟩
    · split <;> exact ⟨_, _, rfl⟩

/-- All that a step which answers a state can be: a reset, its release, a command, or waiting for one. -/
theorem step_cases {s t : State} (h : step s = .next t) :
    (s.rst ≠ .released ∧ ∃ ws tr, t = hardReset { s with cmd := ws, trace := tr }) ∨
    (s.rst = .released ∧ s.phase = .boot ∧ paramsOk s.params = true ∧ t = resetRelease s) ∨
    (s.rst = .released ∧ s.phase = .running ∧
      ∃ i rest, decode s.cmd = .ok (i, rest) ∧ exec i { s with cmd := rest } = .next t) ∨
    (s.rst = .released ∧ s.phase = .running ∧ (∃ e, decode s.cmd = .error e) ∧ t = s) := by
  obtain ⟨ws, hw⟩ := holdReset_eq s
  obtain ⟨r, hr⟩ : ∃ r, s.rst = r := ⟨_, rfl⟩
  obtain ⟨p, hp⟩ : ∃ p, s.phase = p := ⟨_, rfl⟩
  cases r with
  | asserted =>
    simp only [step, hr, Host.Outcome.next.injEq] at h
    exact .inl ⟨by simp [hr], ws, s.trace, h ▸ hw⟩
  | during words records =>
    refine .inl ⟨by simp [hr], ?_⟩
    cases p with
    | boot =>
      simp only [step, hr, hp, Host.Outcome.next.injEq] at h
      exact ⟨ws, s.trace, h ▸ hw⟩
    | running =>
      simp only [step, hr, hp, Host.Outcome.next.injEq] at h
      exact h ▸ abandonCommand_eq words records s
  | released =>
    right
    cases p with
    | boot =>
      rw [step_of_boot hr hp, bootStep] at h
      split at h
      · next hok => exact .inl ⟨hr, hp, hok, (Host.Outcome.next.inj h).symm⟩
      · cases h
    | running =>
      rw [step_of_running hr hp] at h
      cases hd : decode s.cmd with
      | ok c => exact .inr (.inl ⟨hr, hp, c.1, c.2, rfl, (runCommand_of_decode hd).symm.trans h⟩)
      | error e =>
        rw [runCommand_of_error hd] at h
        exact .inr (.inr ⟨hr, hp, ⟨e, rfl⟩, (Host.Outcome.next.inj h).symm⟩)

/-! ## The parameters -/

theorem exec_params {i : Instr} {s t : State} (h : exec i s = .next t) : t.params = s.params := by
  obtain ⟨st, u, he, hf⟩ := exec_frame i s
  obtain rfl : finish (opcode i) st u = t := Host.Outcome.next.inj (he.symm.trans h)
  exact hf.params

theorem configure_params (rate : Word) (s : State) : (configure rate s).1.params = s.params := by
  rcases configure_cases rate s with ⟨-, e⟩ | ⟨-, -, -, e⟩ | ⟨-, v, -, e⟩ | ⟨-, -, v, -, -, e⟩ <;>
    rw [e] <;> rfl

theorem resetRelease_params (s : State) : (resetRelease s).params = s.params := by
  have h := configure_params s.params.initialRate s
  unfold resetRelease
  split <;> next e => rw [e] at h; exact h

/-- Settles O6: the reset line and the phase choose `runCommand`, which runs what the decoder read. -/
theorem stepRunsDecodedCommand : Obligations.StepRunsDecodedCommand := by
  unfold Obligations.StepRunsDecodedCommand
  intro s i rest hr hp hd _
  rw [step_of_running hr hp, runCommand_of_decode hd]

/-- Settles O16, by the four kinds of step. -/
theorem parametersNeverChange : Obligations.ParametersNeverChange := by
  unfold Obligations.ParametersNeverChange
  intro s t h
  rcases step_cases h with ⟨-, ws, tr, rfl⟩ | ⟨-, -, -, rfl⟩ | ⟨-, -, i, rest, -, he⟩ | ⟨-, -, -, rfl⟩
  · rfl
  · exact resetRelease_params s
  · exact (exec_params he).trans rfl
  · rfl

end Sys2Proof.Machine
end

section
/-! PROOFS. The binary32 operations: canonical NaN results (rule R13), and results rounded to nearest
(rule R12). -/

namespace Sys2Proof.Machine

open Sys2Proof.Safety

/-! ## NaN results -/

/-- A result as rule R13 wants it: a NaN only in the canonical form. -/
def CanonicalNaN (r : F32) : Prop := isNaN r = true → r = qNaN

theorem CanonicalNaN.of_qNaN : CanonicalNaN qNaN := fun _ => rfl

theorem CanonicalNaN.of_not {r : F32} (h : isNaN r = false) : CanonicalNaN r := fun hr =>
  absurd (hr.symm.trans h) (by decide)

theorem CanonicalNaN.of_fRound (n : Bool) (num den : Nat) : CanonicalNaN (fRound n num den) :=
  .of_not (isNaN_fRound n num den)

/-- A sign before the bits of a magnitude up to infinity makes no NaN. -/
theorem CanonicalNaN.of_fPack (n : Bool) {b : Nat} (hb : b ≤ 0x7F800000) : CanonicalNaN (fPack n b) := by
  refine .of_not ?_
  rw [isNaN, fMagBits_fPack (by omega)]
  exact decide_eq_false (by omega)

theorem canonicalNaN_fAdd (a b : F32) : CanonicalNaN (fAdd a b) := by
  unfold fAdd
  split
  · exact .of_qNaN
  · next h =>
    obtain ⟨ha, hb⟩ : isNaN a = false ∧ isNaN b = false := by simpa using h
    split
    · split
      · exact .of_qNaN
      · exact .of_not ha
    · split
      · exact .of_not hb
      · dsimp only
        split
        · split <;> exact .of_not (by decide)
        · exact .of_fRound _ _ _

theorem canonicalNaN_fMul (a b : F32) : CanonicalNaN (fMul a b) := by
  unfold fMul
  dsimp only
  split
  · exact .of_qNaN
  · split
    · split
      · exact .of_qNaN
      · exact .of_fPack _ le_rfl
    · split
      · split
        · exact .of_qNaN
        · exact .of_fPack _ le_rfl
      · exact .of_fRound _ _ _

theorem canonicalNaN_fDiv (a b : F32) : CanonicalNaN (fDiv a b) := by
  unfold fDiv
  dsimp only
  split
  · exact .of_qNaN
  · split
    · split
      · exact .of_qNaN
      · exact .of_fPack _ le_rfl
    · split
      · exact .of_fPack _ (Nat.zero_le _)
      · split
        · split
          · exact .of_qNaN
          · exact .of_fPack _ le_rfl
        · exact .of_fRound _ _ _

theorem canonicalNaN_fSqrt (a : F32) : CanonicalNaN (fSqrt a) := by
  unfold fSqrt
  split
  · exact .of_qNaN
  · next h =>
    have ha : isNaN a = false := by simpa using h
    split
    · exact .of_not ha
    · split
      · exact .of_qNaN
      · split
        · exact .of_not ha
        · exact .of_fRound _ _ _

/-- Settles O59: every branch of an operation answers `qNaN`, an operand that is no NaN, or a pattern
with the magnitude bits of a number. -/
theorem nanResultsAreCanonical : Obligations.NanResultsAreCanonical := by
  unfold Obligations.NanResultsAreCanonical
  exact fun a b => ⟨canonicalNaN_fAdd a b, canonicalNaN_fAdd a (fNeg b), canonicalNaN_fMul a b,
    canonicalNaN_fDiv a b, canonicalNaN_fSqrt a⟩

/-! ## The rounding of the four operations -/

theorem fAdd_roundsTo {a b : F32} (ha : isFinite a = true) (hb : isFinite b = true) :
    RoundsTo (fAdd a b) (fValue a + fValue b) := by
  rcases fAdd_finite ha hb with ⟨h0, hz⟩ | ⟨n, num, he, hr⟩
  · rw [h0]; exact roundsTo_zero hz
  · rw [← he, hr]; exact fRound_roundsTo n num Nat.one_pos

theorem fSub_roundsTo {a b : F32} (ha : isFinite a = true) (hb : isFinite b = true) :
    RoundsTo (fSub a b) (fValue a - fValue b) := by
  have h := fAdd_roundsTo (b := fNeg b) ha (by simpa using hb)
  rwa [fValue_fNeg, ← sub_eq_add_neg] at h

theorem fMul_roundsTo {a b : F32} (ha : isFinite a = true) (hb : isFinite b = true) :
    RoundsTo (fMul a b) (fValue a * fValue b) := by
  obtain ⟨he, hr⟩ := fMul_finite ha hb
  rw [← he, hr]
  exact fRound_roundsTo _ _ (Nat.two_pow_pos _)

theorem fDiv_roundsTo {a b : F32} (ha : isFinite a = true) (hb : isFinite b = true)
    (hz : isZero b = false) : RoundsTo (fDiv a b) (fValue a / fValue b) := by
  obtain ⟨he, hr⟩ := fDiv_finite ha hb hz
  rw [← he, hr]
  exact fRound_roundsTo _ _ (fMag_pos hz)

/-- Settles O57: each operation is one rounding of the exact rational, or an exact zero. -/
theorem arithmeticRoundsToNearestEven : Obligations.ArithmeticRoundsToNearestEven := by
  unfold Obligations.ArithmeticRoundsToNearestEven
  exact fun a b ha hb =>
    ⟨fAdd_roundsTo ha hb, fSub_roundsTo ha hb, fMul_roundsTo ha hb, fDiv_roundsTo ha hb⟩

/-! ## Integers -/

/-- Every integer up to 2^24, scaled by a power of two from 2^23 up, is a binary32 magnitude. -/
theorem exists_magOf_eq {n e : Nat} (hn : n ≤ 2 ^ 24) (he : 23 ≤ e) :
    ∃ b ≤ (e + 2) * 2 ^ 23, magOf b = n * 2 ^ e := by
  rcases Nat.eq_zero_or_pos n with rfl | hpos
  · exact ⟨0, Nat.zero_le _, by simp⟩
  · -- shift the significand up until its leading bit stands at bit 23
    obtain ⟨i, hi⟩ : ∃ i, i = 23 - Nat.log2 n := ⟨_, rfl⟩
    have hlow : 2 ^ 23 ≤ n * 2 ^ i :=
      calc 2 ^ 23 ≤ 2 ^ (Nat.log2 n + i) := Nat.pow_le_pow_right (by decide) (by omega)
        _ = 2 ^ Nat.log2 n * 2 ^ i := Nat.pow_add _ _ _
        _ ≤ n * 2 ^ i := Nat.mul_le_mul_right _ (Nat.log2_self_le (by omega))
    have hhigh : n * 2 ^ i ≤ 2 ^ 24 := by
      rcases Nat.eq_zero_or_pos i with h0 | h0
      · simpa [h0] using hn
      · calc n * 2 ^ i ≤ 2 ^ (Nat.log2 n + 1) * 2 ^ i :=
              Nat.mul_le_mul_right _ Nat.lt_log2_self.le
          _ = 2 ^ 24 := by rw [← Nat.pow_add]; congr 1; omega
    refine ⟨(e - i) * 2 ^ 23 + n * 2 ^ i, by omega, ?_⟩
    rw [magOf_mul hhigh (.inr hlow), Nat.mul_assoc, ← Nat.pow_add]
    congr 2
    omega

/-- A representable magnitude is not changed by the rounding. -/
theorem fRound_exact {n : Bool} {num den b : Nat} (hden : 0 < den) (hb : b < 0x7F800000)
    (h : num = magOf b * den) :
    isFinite (fRound n num den) = true ∧ fValue (fRound n num den) = exactValue n num den := by
  have hd : (den : ℚ) ≠ 0 := by exact_mod_cast hden.ne'
  have hr : roundBits num den = b := by rw [roundBits_eq, roundUnbounded_exact hden h]; omega
  refine ⟨by simpa [isFinite, hr] using hb, ?_⟩
  rw [fValue_eq, exactValue, fSign_fRound, fMagBits_fRound, hr, h, Nat.cast_mul,
    mul_div_cancel_right₀ _ hd]

/-- Settles O60: `n` times 2^149 units is a magnitude below infinity, so nothing is rounded. -/
theorem smallIntegersConvertExactly : Obligations.SmallIntegersConvertExactly := by
  unfold Obligations.SmallIntegersConvertExactly
  intro n hn
  obtain ⟨b, hb, hm⟩ := exists_magOf_eq (e := 149) hn (by decide)
  obtain ⟨hfin, hval⟩ := fRound_exact (n := false) Nat.one_pos
    (show b < 0x7F800000 by omega) (show n * 2 ^ 149 = magOf b * 1 by rw [hm, Nat.mul_one])
  refine ⟨hfin, hval.trans ?_⟩
  simp only [exactValue, Bool.false_eq_true, if_false, Nat.cast_mul, Nat.cast_pow, Nat.cast_ofNat,
    Nat.cast_one, div_one]
  exact mul_div_cancel_right₀ _ (by positivity)

end Sys2Proof.Machine
end

section
/-! PROOFS. The square root (rules R12, R182): its integer root, and why a sticky bit below that root is
enough to round the real one. -/

namespace Sys2Proof.Machine

open Sys2Proof.Safety

/-! ## Magnitudes near a real -/

/-- Every magnitude from 2^24 units up is even. -/
theorem even_magOf {b : Nat} (hb : 2 ^ 24 ≤ b) : magOf b % 2 = 0 := by
  have hexp : b / 2 ^ 23 - 1 = b / 2 ^ 23 - 2 + 1 := by omega
  rw [magOf, if_neg (by omega), hexp, pow_succ 2 (b / 2 ^ 23 - 2), ← Nat.mul_assoc,
    Nat.mul_mod_left]

/-- Between two neighbours, the one on `t`'s side of their middle is nearest to `t` of all. -/
theorem abs_magOf_sub_le {b e : Nat} {t : ℝ} (h0 : (magOf b : ℝ) ≤ t) (h1 : t ≤ magOf (b + 1))
    (he : (e = b ∧ 2 * t ≤ magOf b + magOf (b + 1)) ∨ (e = b + 1 ∧ magOf b + magOf (b + 1) ≤ 2 * t))
    (c : Nat) : |(magOf e : ℝ) - t| ≤ |(magOf c : ℝ) - t| := by
  have hc : (magOf c : ℝ) ≤ magOf b ∨ (magOf (b + 1) : ℝ) ≤ magOf c := by
    rcases Nat.lt_or_ge b c with g | g
    · right; exact_mod_cast magOf_le.2 g
    · left; exact_mod_cast magOf_le.2 g
  have hdist : t - magOf b ≤ |(magOf c : ℝ) - t| ∨ magOf (b + 1) - t ≤ |(magOf c : ℝ) - t| := by
    rcases hc with hc | hc
    · left; rw [abs_of_nonpos (by linarith)]; linarith
    · right; rw [abs_of_nonneg (by linarith)]; linarith
  rcases he with ⟨rfl, he⟩ | ⟨rfl, he⟩
  · rw [abs_of_nonpos (by linarith)]
    rcases hdist with h | h <;> linarith
  · rw [abs_of_nonneg (by linarith)]
    rcases hdist with h | h <;> linarith

/-- Rounding with a sticky bit: the whole part `r` of a real `t`, doubled, with a last bit `s` that may be
clear only if `t` is whole, rounds to the magnitude nearest to `t`. From 2^24 units up the middle between
neighbours is whole, so that the last bit tells on which side of it `t` lies. -/
theorem roundUnbounded_sticky_nearest {r s : Nat} {t : ℝ} (hr : 2 ^ 24 ≤ r) (hs : s ≤ 1)
    (h0 : (r : ℝ) ≤ t) (h1 : t < r + 1) (hw : s = 0 → t = r) (c : Nat) :
    |(magOf (roundUnbounded (2 * r + s) 2) : ℝ) - t| ≤ |(magOf c : ℝ) - t| := by
  obtain ⟨b, hlow, hhigh, hb⟩ := roundUnbounded_spec (2 * r + s) Nat.two_pos
  have hbr : magOf b ≤ r := by omega
  have hrb : r + 1 ≤ magOf (b + 1) := by omega
  have hb24 : 2 ^ 24 ≤ b := by
    have h24 : magOf (2 ^ 24) = 2 ^ 24 := magOf_mul (k := 0) le_rfl (.inl rfl)
    exact Nat.le_of_lt_succ (magOf_lt.1 (show magOf (2 ^ 24) < magOf (b + 1) by omega))
  have heven := even_magOf hb24
  have heven' : magOf (b + 1) % 2 = 0 := even_magOf (by omega)
  have hbr' : (magOf b : ℝ) ≤ r := by exact_mod_cast hbr
  have hrb' : (r : ℝ) + 1 ≤ magOf (b + 1) := by exact_mod_cast hrb
  refine abs_magOf_sub_le (hbr'.trans h0) (h1.le.trans hrb') ?_ c
  rcases hb with ⟨e, h⟩ | ⟨e, h⟩
  · refine .inl ⟨e, ?_⟩
    rcases Nat.le_one_iff_eq_zero_or_eq_one.1 hs with rfl | rfl
    · have : 2 * r ≤ magOf b + magOf (b + 1) := by omega
      have : (2 * r : ℝ) ≤ magOf b + magOf (b + 1) := by exact_mod_cast this
      rw [hw rfl]; exact this
    · have : 2 * r + 2 ≤ magOf b + magOf (b + 1) := by omega
      have : (2 * r + 2 : ℝ) ≤ magOf b + magOf (b + 1) := by exact_mod_cast this
      linarith
  · refine .inr ⟨e, ?_⟩
    have : magOf b + magOf (b + 1) ≤ 2 * r := by omega
    have : (magOf b + magOf (b + 1) : ℝ) ≤ 2 * r := by exact_mod_cast this
    linarith

/-! ## The integer root -/

/-- The integer whose root `fSqrt` takes: the root of `a` is the root of `rootArg a` units of 2^-149. -/
def rootArg (a : F32) : Nat := fMag a * 2 ^ 149

/-- What `fSqrt` rounds, in halves of a unit: the floor of the root of `n`, and the sticky bit. -/
def rootNum (n : Nat) : Nat := 2 * Nat.sqrt n + (if Nat.sqrt n * Nat.sqrt n = n then 0 else 1)

theorem natSqrt_eq_sqrt {fuel n : Nat} (h : n < 4 ^ fuel) : natSqrt fuel n = Nat.sqrt n := by
  induction fuel generalizing n with
  | zero =>
    obtain rfl : n = 0 := by omega
    rfl
  | succ fuel ih =>
    rw [natSqrt, ih (n := n / 4) (by rw [Nat.pow_succ] at h; omega)]
    obtain ⟨s, hs⟩ : ∃ s, s = Nat.sqrt (n / 4) := ⟨_, rfl⟩
    have hlow : s * s ≤ n / 4 := hs ▸ Nat.sqrt_le (n / 4)
    have hhigh : n / 4 < (s + 1) * (s + 1) := hs ▸ Nat.lt_succ_sqrt (n / 4)
    simp only [← hs]
    split
    · next h0 => simp [h0]
    · split
      · next hr =>
        refine Nat.eq_sqrt.2 ⟨hr, ?_⟩
        rw [show (2 * s + 1 + 1) * (2 * s + 1 + 1) = 4 * ((s + 1) * (s + 1)) by ring]
        omega
      · next hr =>
        refine Nat.eq_sqrt.2 ⟨?_, not_le.1 hr⟩
        rw [show 2 * s * (2 * s) = 4 * (s * s) by ring]
        omega

theorem magOf_inf : magOf 0x7F800000 = 2 ^ 23 * 2 ^ 254 :=
  magOf_mul (k := 254) (by decide) (.inr le_rfl)

theorem rootArg_lt {a : F32} (ha : isFinite a = true) : rootArg a < 4 ^ 213 := by
  have hb : fMagBits a < 0x7F800000 := by simpa [isFinite] using ha
  have hm : fMag a < 2 ^ 23 * 2 ^ 254 := by
    rw [fMag_eq, ← magOf_inf]
    exact magOf_lt.2 hb
  calc rootArg a < 2 ^ 23 * 2 ^ 254 * 2 ^ 149 := Nat.mul_lt_mul_of_pos_right hm (Nat.two_pow_pos 149)
    _ = 4 ^ 213 := by norm_num

theorem fSqrt_eq {a : F32} (ha : isFinite a = true) (hs : fSign a = false) (hz : isZero a = false) :
    fSqrt a = fRound false (rootNum (rootArg a)) 2 := by
  have hfuel : rootArg a < 4 ^ 256 :=
    (rootArg_lt ha).trans_le (Nat.pow_le_pow_right (by decide) (by decide))
  simp only [fSqrt, isNaN_of_finite ha, isInf_of_finite ha, hs, hz, Bool.false_eq_true, if_false]
  rw [← rootArg, natSqrt_eq_sqrt hfuel, ← rootNum]

/-- The real root of a value without a sign, in units of 2^-149. -/
theorem sqrt_fValue {a : F32} (hs : fSign a = false) :
    Real.sqrt (fValue a : ℝ) = Real.sqrt (rootArg a : ℝ) / 2 ^ 149 := by
  have h : (fValue a : ℝ) = (rootArg a : ℝ) / (2 ^ 149) ^ 2 := by
    simp only [fValue, fScaled, hs, rootArg, Bool.false_eq_true, if_false, Rat.cast_div, Rat.cast_pow,
      Rat.cast_ofNat, Rat.cast_natCast, Int.cast_natCast, Nat.cast_mul, Nat.cast_pow, Nat.cast_ofNat]
    field_simp
  rw [h, Real.sqrt_div (by positivity), Real.sqrt_sq (by positivity)]

theorem roundBits_rootNum {n : Nat} (hn : n < 4 ^ 213) :
    roundBits (rootNum n) 2 < 0x7F800000 ∧ roundBits (rootNum n) 2 = roundUnbounded (rootNum n) 2 := by
  have hroot : Nat.sqrt n < 2 ^ 213 := Nat.sqrt_lt'.2 (by rwa [Nat.pow_right_comm])
  have hle : rootNum n ≤ 2 * Nat.sqrt n + 1 := by unfold rootNum; split <;> omega
  have hfin : roundBits (rootNum n) 2 < 0x7F800000 := by
    rw [roundBits_lt_inf_iff _ Nat.two_pos, magOf_inf]
    omega
  refine ⟨hfin, ?_⟩
  rw [roundBits_eq] at hfin ⊢
  omega

/-! ## The rounded root -/

/-- The rounded root is a magnitude nearest to the real one. -/
theorem roundUnbounded_rootNum_nearest {n : Nat} (hn : 2 ^ 48 ≤ n) (c : Nat) :
    |(magOf (roundUnbounded (rootNum n) 2) : ℝ) - Real.sqrt n| ≤ |(magOf c : ℝ) - Real.sqrt n| := by
  refine roundUnbounded_sticky_nearest (Nat.le_sqrt'.2 (by rwa [← Nat.pow_mul])) (by split <;> omega)
    Real.nat_sqrt_le_real_sqrt Real.real_sqrt_lt_nat_sqrt_succ (fun h => ?_) c
  have hsq : Nat.sqrt n * Nat.sqrt n = n := by
    by_contra hne
    rw [if_neg hne] at h
    exact absurd h (by decide)
  conv_lhs => rw [← hsq]
  rw [Nat.cast_mul, Real.sqrt_mul_self (Nat.cast_nonneg _)]

/-- The distance of a value from a real given in units of 2^-149. -/
theorem abs_fValue_sub (x : F32) (t : ℝ) :
    |(fValue x : ℝ) - t / 2 ^ 149| =
      |(if fSign x then -(magOf (fMagBits x) : ℝ) else magOf (fMagBits x)) - t| / 2 ^ 149 := by
  have hv : (fValue x : ℝ) =
      (if fSign x then -(magOf (fMagBits x) : ℝ) else magOf (fMagBits x)) / 2 ^ 149 := by
    rw [fValue_eq]
    cases fSign x <;> simp
  rw [hv, ← sub_div, abs_div, abs_of_pos (by positivity : (0 : ℝ) < 2 ^ 149)]

/-- Settles O58: the magnitude nearest to the root among magnitudes is nearest among values, since a
value with a sign lies beyond zero. -/
theorem squareRootRoundsToNearest : Obligations.SquareRootRoundsToNearest := by
  unfold Obligations.SquareRootRoundsToNearest
  intro a y ha hs _
  cases hz : isZero a with
  | true =>
    have hr : fSqrt a = a := by simp [fSqrt, isNaN_of_finite ha, hz]
    rw [hr, (fValue_eq_zero_iff a).2 hz]
    simp [ha]
  | false =>
    obtain ⟨hfin, hbits⟩ := roundBits_rootNum (rootArg_lt ha)
    have hn : 2 ^ 48 ≤ rootArg a :=
      calc 2 ^ 48 ≤ 1 * 2 ^ 149 := by decide
        _ ≤ rootArg a := Nat.mul_le_mul_right _ (fMag_pos hz)
    have hnear := roundUnbounded_rootNum_nearest hn
    rw [← hbits] at hnear
    rw [fSqrt_eq ha hs hz]
    refine ⟨by simpa [isFinite] using hfin, ?_⟩
    rw [sqrt_fValue hs, abs_fValue_sub, abs_fValue_sub, fSign_fRound, fMagBits_fRound,
      div_le_div_iff_of_pos_right (by positivity), if_neg Bool.false_ne_true]
    cases fSign y with
    | false => exact hnear (fMagBits y)
    | true =>
      have hzero := hnear 0
      have hroot := Real.sqrt_nonneg (rootArg a : ℝ)
      have hy : (0 : ℝ) ≤ magOf (fMagBits y) := Nat.cast_nonneg _
      rw [magOf_zero, Nat.cast_zero, zero_sub, abs_neg, abs_of_nonneg hroot] at hzero
      rw [if_pos rfl, abs_of_nonpos (by linarith : -(magOf (fMagBits y) : ℝ) - _ ≤ 0)]
      linarith

end Sys2Proof.Machine
end

section
/-! PROOFS. The packed registers, bit by bit (rules R51, R52). -/

namespace Sys2Proof.Machine

/-! ## STATUS -/

/-- A flag's word has one bit, at the flag's place, if the flag is set. -/
theorem getElem_flagBit (b : Bool) (k : Nat) {n : Nat} (hn : n < 32) :
    (flagBit b k)[n] = (b && decide (n = k)) := by
  cases b with
  | false => simp [flagBit]
  | true =>
    have h : flagBit true k = BitVec.twoPow 32 k := (BitVec.twoPow_eq 32 k).symm
    simp [h, BitVec.getElem_twoPow]

/-- Bit `n` of STATUS: a flag below bit 8, then the last status. -/
theorem getElem_statusWord (s : State) {n : Nat} (hn : n < 32) :
    (statusWord s)[n] =
      (s.flags.valid && decide (n = 0) || s.flags.cfgErr && decide (n = 1) ||
        s.flags.tsRegress && decide (n = 2) || s.flags.cmdErr && decide (n = 3) ||
        s.framerAttached && decide (n = 4) ||
        decide (s.listeners.bufListeners ≠ []) && decide (n = 5) ||
        s.listeners.evtEn && decide (n = 6) || s.listeners.msgEn && decide (n = 7) ||
        !decide (n < 8) && s.flags.lastStatus.getLsbD (n - 8)) := by
  simp [statusWord, getElem_flagBit]

theorem getElem_statusWord_add_eight (s : State) {n : Nat} (hn : 8 + n < 32) :
    (statusWord s)[8 + n] = s.flags.lastStatus.getLsbD n := by
  have hne : ∀ k < 8, 8 + n ≠ k := by omega
  simp [getElem_statusWord, hne]

/-- Settles O35, clause by clause from the bits of STATUS. -/
theorem statusRegisterBits : Obligations.StatusRegisterBits := by
  unfold Obligations.StatusRegisterBits
  intro s
  refine ⟨?_, ?_, ?_, ?_, ?_, ?_, ?_, ?_, ?lastStatus, ?zeros⟩
  case lastStatus =>
    ext n hn
    simp [BitVec.getLsbD_eq_getElem (show 8 + n < 32 by omega), getElem_statusWord_add_eight, hn]
  case zeros =>
    ext n hn
    rw [BitVec.getElem_extractLsb', show 16 + n = 8 + (8 + n) by omega,
      BitVec.getLsbD_eq_getElem (by omega), getElem_statusWord_add_eight]
    simp
  all_goals simp [getElem_statusWord, State.framerAttached]

/-! ## The other packed registers -/

theorem loopBwWord_eq (s : State) :
    loopBwWord s = 0#22 ++ (s.params.bwDefault ++ (0#6 ++ s.loop.bwCur)) := by
  unfold loopBwWord
  apply BitVec.eq_of_getLsbD_eq
  intro n hn
  rw [BitVec.getLsbD_append (x := 0#22), BitVec.getLsbD_append (x := s.params.bwDefault),
    BitVec.getLsbD_append]
  simp only [BitVec.getLsbD_or, BitVec.getLsbD_shiftLeft, BitVec.getLsbD_setWidth]
  grind

/-- The enable stands above the eight bits of the id. -/
theorem listenerWord_eq (en : Bool) (id : Byte) :
    listenerWord en id = 0#23 ++ (BitVec.ofBool en ++ id) := by
  apply BitVec.eq_of_getLsbD_eq
  intro n hn
  rw [BitVec.getLsbD_append (x := 0#23), BitVec.getLsbD_append, BitVec.getLsbD_eq_getElem hn]
  rcases Nat.lt_trichotomy n 8 with h | rfl | h
  · simp [listenerWord, getElem_flagBit, h, h.ne, show n < 9 by omega]
  · simp [listenerWord, getElem_flagBit]
  · simp [listenerWord, getElem_flagBit, h.ne', show ¬ n < 9 by omega, BitVec.getLsbD_of_ge _ _ h.le]

theorem getLsbD_asmFillWord (s : State) (n : Nat) :
    (asmFillWord s).getLsbD n =
      if n < 16 then s.asm.fill.getLsbD n
      else if n < 18 then s.asm.pcnt.getLsbD (n - 16)
      else if n < 24 then false
      else s.asm.part.getLsbD (n - 24) := by
  unfold asmFillWord
  rw [BitVec.getLsbD_append (x := s.asm.part), BitVec.getLsbD_append (x := 0#6), BitVec.getLsbD_append]
  grind [BitVec.getLsbD_setWidth]

/-- Settles O36: two registers as concatenations, ASM_FILL field by field from its bits. -/
theorem packedRegisterFields : Obligations.PackedRegisterFields := by
  unfold Obligations.PackedRegisterFields
  intro s
  refine ⟨loopBwWord_eq s, ?kind, ?fill, ?pcnt, ?zeros, ?part, listenerWord_eq⟩
  case kind => cases h : s.timing.kind <;> simp [timingKindWord, h]
  all_goals
    ext n hn
    rw [BitVec.getElem_extractLsb', getLsbD_asmFillWord]
  case fill => simp [hn]
  case pcnt => simp [show 16 + n < 18 by omega, BitVec.getLsbD_eq_getElem hn]
  case zeros => simp [show ¬ 18 + n < 16 by omega, show 18 + n < 24 by omega]
  case part =>
    simp [show ¬ 24 + n < 16 by omega, show ¬ 24 + n < 18 by omega, BitVec.getLsbD_eq_getElem hn]

end Sys2Proof.Machine
end

section
/-! PROOFS. What a command leaves behind before its completion bookkeeping, command by command, and
that only CLEAR_STATUS clears a sticky flag (rules R34, R51). -/

namespace Sys2Proof.Machine

open Sys2Proof.Safety

/-! ## Configuration -/

theorem cacheFind_mem {rate : Word} {v : List F32} {es : List (Word × List F32)}
    (h : cacheFind rate es = some v) : (rate, v) ∈ es := by
  induction es with
  | nil => simp [cacheFind] at h
  | cons e es ih =>
    obtain ⟨r, w⟩ := e
    simp only [cacheFind] at h
    split at h
    · next hr => simp_all
    · exact List.mem_cons_of_mem _ (ih h)

/-- A failed configuration counts its DESIGN call, if there was one, and changes nothing else. -/
theorem configure_eq_false {rate : Word} {s t : State} (h : configure rate s = (t, false)) :
    ∃ n, t = { s with cache := { s.cache with designCount := n } } := by
  rcases configure_cases rate s with ⟨-, e⟩ | ⟨-, -, -, e⟩ | ⟨-, v, -, e⟩ | ⟨-, -, v, -, -, e⟩ <;>
    rw [h, Prod.mk.injEq] at e <;> obtain ⟨e, hb⟩ := e
  · exact ⟨s.cache.designCount, e⟩
  · exact ⟨_, e⟩
  · cases hb
  · cases hb

/-- A successful configuration had a valid rate, and installs a vector that was cached for it or is a
good design stored for it. -/
theorem configure_eq_true {rate : Word} {s t : State} (h : configure rate s = (t, true)) :
    rateValid s.params rate = true ∧ ∃ v c, t = applyConfig rate v { s with cache := c } ∧
      ((cacheFind rate s.cache.entries = some v ∧ c = s.cache) ∨
        (cacheFind rate s.cache.entries = none ∧ designOk s.params v = true ∧
          c = { entries := cacheInsert rate v s.cache.entries
                designCount := s.cache.designCount + 1 })) := by
  rcases configure_cases rate s with ⟨-, e⟩ | ⟨-, -, -, e⟩ | ⟨hr, v, hf, e⟩ | ⟨hr, hf, v, -, ho, e⟩ <;>
    rw [h, Prod.mk.injEq] at e <;> obtain ⟨e, hb⟩ := e
  · cases hb
  · cases hb
  · exact ⟨hr, v, s.cache, e, .inl ⟨hf, rfl⟩⟩
  · exact ⟨hr, v, _, e, .inr ⟨hf, ho, rfl⟩⟩

/-! ## Every command -/

/-- The state a command leaves to its completion bookkeeping: the state it found, or its effect under
the conditions on which it is carried out. -/
inductive CommandEffect (s : State) : Instr → State → Prop
  | unchanged (i : Instr) : CommandEffect s i s
  | block {ts : BitVec 64} {xs : List Cplx} (nonempty : xs ≠ []) (valid : s.flags.valid = true)
      (finite : xs.all sampleFinite = true) :
      CommandEffect s (.receiveBlock ts xs) (datapath xs (acceptTime ts s))
  | configFailed {rate : Word} {t : State} (h : configure rate s = (t, false)) :
      CommandEffect s (.setSampleRate 0 rate) (configFail t)
  | configured {rate : Word} {t : State} (h : configure rate s = (t, true)) :
      CommandEffect s (.setSampleRate 0 rate) t
  | frequencyCorrected (fcv : BitVec 24) :
      CommandEffect s (.freqCorrectionChange fcv) { s with loop := loopReset s.params s.loop }
  | loopCleared : CommandEffect s (.resetLoop 0) { s with loop := loopReset s.params s.loop }
  | bandwidthSet (preset : BitVec 2) :
      CommandEffect s (.setBandwidth 0 preset) { s with loop := { s.loop with bwCur := preset } }
  | inversionCorrected {rot : BitVec 2} {r : F32} (angle : rotationAngle rot = some r) :
      CommandEffect s (.correctInversion 0 rot) { s with loop := inversionStep s.rate.sps r s.loop }
  | consumerAdded {id : Byte} (fresh : Consumer.tap id ∉ s.registry.consumers)
      (room : tapCount s.registry.consumers ≠ s.params.maxTapsExt.toNat) :
      CommandEffect s (.addConsumer 0 id)
        { s with registry := { s.registry with consumers := s.registry.consumers ++ [.tap id] } }
  | consumerRemoved {id : Byte} (found : Consumer.tap id ∈ s.registry.consumers) :
      CommandEffect s (.removeConsumer 0 id)
        { s with registry := { s.registry with consumers := s.registry.consumers.erase (.tap id) } }
  | bufListenerAdded {id : Byte} (fresh : id ∉ s.listeners.bufListeners)
      (room : s.listeners.bufListeners.length ≠ s.params.maxBufListeners.toNat) :
      CommandEffect s (.addBufferListener 0 id)
        { s with listeners := { s.listeners with bufListeners := s.listeners.bufListeners ++ [id] } }
  | bufListenerRemoved {id : Byte} (found : id ∈ s.listeners.bufListeners) :
      CommandEffect s (.removeBufferListener 0 id)
        { s with listeners := { s.listeners with bufListeners := s.listeners.bufListeners.erase id } }
  | eventListenerSet (en : BitVec 1) (id : Byte) :
      CommandEffect s (.setEventListener 0 en id)
        { s with listeners := { s.listeners with evtEn := enBit en, evtId := id } }
  | messageListenerSet (en : BitVec 1) (id : Byte) :
      CommandEffect s (.setMessageListener 0 en id)
        { s with listeners := { s.listeners with msgEn := enBit en, msgId := id } }
  | flushed :
      CommandEffect s (.flush 0) { flushBuffer s with asm := emptyAssembler (flushBuffer s).asm }
  | registerRead {num : Byte} {w : Word} (value : regValue num s = some w) :
      CommandEffect s (.readReg 0 num) (emit (.data w) s)
  | statusCleared :
      CommandEffect s (.clearStatus 0)
        { s with flags := { s.flags with cfgErr := false, tsRegress := false, cmdErr := false } }

/-- A command ends on one of its effects. -/
abbrev EndsOnEffect (i : Instr) (s : State) (o : Host.Outcome State Fault Refusal) : Prop :=
  ∃ op st u, o = .next (finish op st u) ∧ CommandEffect s i u

theorem endsOnEffect_reject (i : Instr) (s : State) (op : Byte) (st : Status) :
    EndsOnEffect i s (reject op st s) := ⟨op, st, s, rfl, .unchanged i⟩

theorem endsOnEffect_complete {i : Instr} {s u : State} (op : Byte) (st : Status)
    (h : CommandEffect s i u) : EndsOnEffect i s (complete op st u) := ⟨op, st, u, rfl, h⟩

/-- The reserved-bit check: with a set bit the command is rejected, so only the command with its bits 0
remains. -/
theorem endsOnEffect_whenReservedZero {n : Nat} {i : BitVec n → Instr} {s : State} {op : Byte}
    {k : Host.Outcome State Fault Refusal} (h : EndsOnEffect (i 0) s k) (resv : BitVec n) :
    EndsOnEffect (i resv) s (whenReservedZero op resv s k) := by
  rcases whenReservedZero_cases op resv s k with ⟨rfl, e⟩ | ⟨-, e⟩
  · rw [e]; exact h
  · rw [e]; exact endsOnEffect_reject _ _ _ _

theorem exec_endsOnEffect (i : Instr) (s : State) : EndsOnEffect i s (exec i s) := by
  cases i with
  | nop arg => exact endsOnEffect_complete _ _ (.unchanged _)
  | receiveBlock ts xs =>
    show EndsOnEffect _ s (execReceiveBlock ts xs s)
    rcases execReceiveBlock_cases ts xs s with ⟨-, e⟩ | ⟨-, -, e⟩ | ⟨-, -, -, e⟩ | ⟨hx, hv, hf, e⟩ <;> rw [e]
    · exact endsOnEffect_reject _ _ _ _
    · exact endsOnEffect_reject _ _ _ _
    · exact endsOnEffect_reject _ _ _ _
    · exact endsOnEffect_complete _ _ (.block hx hv hf)
  | setSampleRate resv rate =>
    show EndsOnEffect _ s (execSetSampleRate resv rate s)
    rcases execSetSampleRate_cases resv rate s with ⟨-, e⟩ | ⟨rfl, t, hc, e⟩ | ⟨rfl, t, hc, e⟩ <;> rw [e]
    · exact endsOnEffect_reject _ _ _ _
    · exact endsOnEffect_complete _ _ (.configFailed hc)
    · exact endsOnEffect_complete _ _ (.configured hc)
  | freqCorrectionChange fcv => exact endsOnEffect_complete _ _ (.frequencyCorrected fcv)
  | resetLoop resv =>
    exact endsOnEffect_whenReservedZero (i := .resetLoop) (endsOnEffect_complete _ _ .loopCleared) resv
  | setBandwidth resv preset =>
    exact endsOnEffect_whenReservedZero (i := (.setBandwidth · preset))
      (endsOnEffect_complete _ _ (.bandwidthSet preset)) resv
  | correctInversion resv rot =>
    refine endsOnEffect_whenReservedZero (i := (.correctInversion · rot)) ?_ resv
    cases h : rotationAngle rot with
    | none => exact endsOnEffect_reject _ _ _ _
    | some r => exact endsOnEffect_complete _ _ (.inversionCorrected h)
  | addConsumer resv id =>
    refine endsOnEffect_whenReservedZero (i := (.addConsumer · id)) ?_ resv
    split
    · exact endsOnEffect_reject _ _ _ _
    · next fresh =>
      split
      · exact endsOnEffect_reject _ _ _ _
      · next room => exact endsOnEffect_complete _ _ (.consumerAdded fresh room)
  | removeConsumer resv id =>
    refine endsOnEffect_whenReservedZero (i := (.removeConsumer · id)) ?_ resv
    split
    · next found => exact endsOnEffect_complete _ _ (.consumerRemoved found)
    · exact endsOnEffect_reject _ _ _ _
  | addBufferListener resv id =>
    refine endsOnEffect_whenReservedZero (i := (.addBufferListener · id)) ?_ resv
    split
    · exact endsOnEffect_reject _ _ _ _
    · next fresh =>
      split
      · exact endsOnEffect_reject _ _ _ _
      · next room => exact endsOnEffect_complete _ _ (.bufListenerAdded fresh room)
  | removeBufferListener resv id =>
    refine endsOnEffect_whenReservedZero (i := (.removeBufferListener · id)) ?_ resv
    split
    · next found => exact endsOnEffect_complete _ _ (.bufListenerRemoved found)
    · exact endsOnEffect_reject _ _ _ _
  | setEventListener resv en id =>
    exact endsOnEffect_whenReservedZero (i := (.setEventListener · en id))
      (endsOnEffect_complete _ _ (.eventListenerSet en id)) resv
  | setMessageListener resv en id =>
    exact endsOnEffect_whenReservedZero (i := (.setMessageListener · en id))
      (endsOnEffect_complete _ _ (.messageListenerSet en id)) resv
  | flush resv =>
    exact endsOnEffect_whenReservedZero (i := .flush) (endsOnEffect_complete _ _ .flushed) resv
  | readReg resv num =>
    refine endsOnEffect_whenReservedZero (i := (.readReg · num)) ?_ resv
    cases h : regValue num s with
    | none => exact endsOnEffect_reject _ _ _ _
    | some w => exact endsOnEffect_complete _ _ (.registerRead h)
  | clearStatus resv =>
    exact endsOnEffect_whenReservedZero (i := .clearStatus) (endsOnEffect_complete _ _ .statusCleared) resv
  | illegal op arg => exact endsOnEffect_reject _ _ _ _

/-- All that a command which answers a state can do: one of its effects, then its bookkeeping. -/
theorem exec_effect {i : Instr} {s t : State} (h : exec i s = .next t) :
    ∃ op st u, t = finish op st u ∧ CommandEffect s i u := by
  obtain ⟨op, st, u, e, hu⟩ := exec_endsOnEffect i s
  exact ⟨op, st, u, Host.Outcome.next.inj (h.symm.trans e), hu⟩

/-! ## What RECEIVE_BLOCK and FLUSH leave alone -/

/-- The state DemodBlock takes from the other three stages (rule R145). -/
def beforeDemod (xs : List Cplx) (s : State) : State :=
  { s with
    filter := (firBlock s.filter xs).1
    power := (firBlock s.filter xs).2.foldl (fun p x => (powerSample p x).1) s.power
    agc := (agcBlock s.params s.agc (firBlock s.filter xs).2).1
    trace := s.trace ++ powerEvents s.listeners s.power (firBlock s.filter xs).2 }

theorem datapath_eq_demodBlock (xs : List Cplx) (s : State) :
    datapath xs s =
      demodBlock (beforeDemod xs s) (agcBlock s.params s.agc (firBlock s.filter xs).2).2 := by
  obtain ⟨-, -, h, -⟩ := datapath_eq xs s
  exact h

theorem datapath_frame (xs : List Cplx) (s : State) :
    SymbolFrame (beforeDemod xs s) (datapath xs s) := by
  rw [datapath_eq_demodBlock]
  exact demodBlock_frame _ _

theorem datapath_flags (xs : List Cplx) (s : State) : (datapath xs s).flags = s.flags :=
  (datapath_frame xs s).flags

theorem flushBuffer_frame (s : State) : SymbolFrame s (flushBuffer s) := by
  unfold flushBuffer
  split
  · exact deliverBuffer_frame _ s
  · exact .refl s

theorem flushed_frame (s : State) :
    SymbolFrame s { flushBuffer s with asm := emptyAssembler (flushBuffer s).asm } :=
  (flushBuffer_frame s).trans
    (.ofFields (flushBuffer s) (flushBuffer s).loop (flushBuffer s).timing (flushBuffer s).dibitCount _
      rfl rfl)

/-! ## The flags -/

/-- What the flags keep under command `i`. -/
structure FlagFrame (i : Instr) (f g : StatusState) : Prop where
  cfgErr : f.cfgErr = true → g.cfgErr = true
  tsRegress : f.tsRegress = true → g.tsRegress = true
  cmdErr : f.cmdErr = true → g.cmdErr = true
  configWriter : (∀ resv rate, i ≠ .setSampleRate resv rate) → g.valid = f.valid ∧ g.cfgErr = f.cfgErr
  regressWriter : (∀ ts xs, i ≠ .receiveBlock ts xs) → g.tsRegress = f.tsRegress

theorem FlagFrame.refl (i : Instr) (f : StatusState) : FlagFrame i f f where
  cfgErr := id
  tsRegress := id
  cmdErr := id
  configWriter _ := ⟨rfl, rfl⟩
  regressWriter _ := rfl

/-- The bookkeeping may set CMD_ERR and writes no other sticky flag. -/
theorem FlagFrame.finish {i : Instr} {f : StatusState} {u : State} (h : FlagFrame i f u.flags)
    (op : Byte) (st : Status) : FlagFrame i f (finish op st u).flags where
  cfgErr := h.cfgErr
  tsRegress := h.tsRegress
  cmdErr hc := by simp [h.cmdErr hc]
  configWriter := h.configWriter
  regressWriter := h.regressWriter

theorem CommandEffect.flagFrame {i : Instr} {s u : State} (h : CommandEffect s i u)
    (hi : ∀ resv, i ≠ .clearStatus resv) : FlagFrame i s.flags u.flags := by
  cases h with
  | @block ts xs _ _ _ =>
    rw [datapath_flags, acceptTime_flags]
    exact { cfgErr := id, tsRegress := fun h => by simp [h], cmdErr := id,
            configWriter := fun _ => ⟨rfl, rfl⟩, regressWriter := fun h => absurd rfl (h ts xs) }
  | @configFailed rate t hc =>
    obtain ⟨n, rfl⟩ := configure_eq_false hc
    exact { cfgErr := fun _ => rfl, tsRegress := id, cmdErr := id,
            configWriter := fun h => absurd rfl (h 0 rate), regressWriter := fun _ => rfl }
  | @configured rate t hc =>
    obtain ⟨-, v, c, rfl, -⟩ := configure_eq_true hc
    exact { cfgErr := id, tsRegress := id, cmdErr := id,
            configWriter := fun h => absurd rfl (h 0 rate), regressWriter := fun _ => rfl }
  | statusCleared => exact absurd rfl (hi 0)
  | flushed => rw [(flushed_frame s).flags]; exact .refl _ _
  | _ => exact .refl _ _

/-- Settles O21, by the effect of each command and its bookkeeping. -/
theorem stickyFlagsAreClearedOnlyByClearStatus : Obligations.StickyFlagsAreClearedOnlyByClearStatus := by
  unfold Obligations.StickyFlagsAreClearedOnlyByClearStatus
  intro i s t hi h
  obtain ⟨op, st, u, rfl, hu⟩ := exec_effect h
  obtain ⟨hcfg, hts, hcmd, hvalid, hregress⟩ := (hu.flagFrame hi).finish op st
  exact ⟨hcfg, hts, hcmd, hvalid, hregress⟩

end Sys2Proof.Machine
end

section
/-! PROOFS. The reset values (rule R54), and the invariant of the state: its parts at reset, under each
command and under every step (rules R37, R38, R40, R44, R46, R47, R282). -/

namespace Sys2Proof.Machine

open Sys2Proof.Safety

/-! ## Reset -/

/-- Settles O11: every field of the reset record, read at the default parameters. -/
theorem resetValuesAreTheFirstColumn : Obligations.ResetValuesAreTheFirstColumn := by
  unfold Obligations.ResetValuesAreTheFirstColumn
  exact ⟨rfl, rfl, rfl, rfl, rfl, rfl, rfl, rfl, rfl, rfl, rfl, rfl, rfl⟩

/-- The sizes that rule R9 bounds. -/
theorem sizes_of_paramsOk {P : Config.Params} (h : paramsOk P = true) :
    1 ≤ P.bufBytes.toNat ∧ 1 ≤ P.agcWindow.toNat ∧ 1 ≤ P.powerDiv.toNat := by
  simp only [paramsOk, Bool.and_eq_true, decide_eq_true_eq] at h
  omega

theorem stateOk_resetWith {P : Config.Params} (h : paramsOk P = true) :
    StateOk (State.resetWith P) := by
  obtain ⟨hbuf, hagc, -⟩ := sizes_of_paramsOk h
  have registry : RegistryOk (State.resetWith P) :=
    ⟨rfl, List.nodup_singleton _, Nat.zero_le _⟩
  have listeners : ListenersOk (State.resetWith P) := ⟨List.nodup_nil, Nat.zero_le _⟩
  have cache : CacheOk (State.resetWith P) := ⟨List.Pairwise.nil, by simp [State.resetWith]⟩
  have assembler : AssemblerOk (State.resetWith P) := ⟨List.length_replicate, hbuf, Nat.one_pos⟩
  have agc : AgcOk (State.resetWith P) := ⟨List.length_replicate, hagc⟩
  have configured : ConfiguredOk (State.resetWith P) := fun hv => absurd hv Bool.false_ne_true
  exact ⟨h, registry, listeners, cache, ⟨rfl, rfl, rfl⟩, assembler, agc, configured⟩

/-- What stands on the reset line, the port and the trace is no part of the invariant. -/
theorem stateOk_hardReset {s : State} (h : paramsOk s.params = true) : StateOk (hardReset s) :=
  stateOk_resetWith h

/-- Settles O19: the default parameters meet rule R9, and the loop's reset values are within bounds. -/
theorem resetStateIsOk : Obligations.ResetStateIsOk := by
  unfold Obligations.ResetStateIsOk
  have params : paramsOk Config.defaults = true := by decide
  have loop : LoopBounded State.reset.loop := by decide
  exact ⟨stateOk_resetWith params, ⟨params, rfl, loop⟩, rfl, fun hv => absurd hv Bool.false_ne_true⟩

/-! ## The registry and the listeners -/

theorem registryOk_attachFramer {s : State} (h : RegistryOk s) :
    RegistryOk { s with registry := attachFramer s.registry } := by
  obtain ⟨hasm, hnodup, htaps⟩ := h
  obtain ⟨cs, hcs⟩ := List.head?_eq_some_iff.1 hasm
  refine ⟨?_, ?_, ?_⟩
  · simp [attachFramer, hcs]
  · exact (hnodup.filter _).append (List.nodup_singleton _) (List.disjoint_singleton.2 (by simp))
  · calc tapCount (attachFramer s.registry).consumers
        = tapCount (s.registry.consumers.filter fun c => decide (c ≠ .framer)) := by
          simp [tapCount, attachFramer, isTap]
      _ ≤ tapCount s.registry.consumers := List.filter_sublist.countP_le
      _ ≤ s.params.maxTapsExt.toNat := htaps

theorem registryOk_addTap {s : State} {id : Byte} (h : RegistryOk s)
    (fresh : Consumer.tap id ∉ s.registry.consumers)
    (room : tapCount s.registry.consumers ≠ s.params.maxTapsExt.toNat) :
    RegistryOk { s with registry :=
      { s.registry with consumers := s.registry.consumers ++ [.tap id] } } := by
  obtain ⟨hasm, hnodup, htaps⟩ := h
  refine ⟨by simp [hasm], hnodup.append (List.nodup_singleton _) (List.disjoint_singleton.2 fresh), ?_⟩
  have hcount : tapCount (s.registry.consumers ++ [.tap id]) = tapCount s.registry.consumers + 1 := by
    simp [tapCount, isTap]
  exact hcount.trans_le (Nat.lt_of_le_of_ne htaps room)

theorem registryOk_eraseTap {s : State} (h : RegistryOk s) (id : Byte) :
    RegistryOk { s with registry :=
      { s.registry with consumers := s.registry.consumers.erase (.tap id) } } := by
  obtain ⟨hasm, hnodup, htaps⟩ := h
  obtain ⟨cs, hcs⟩ := List.head?_eq_some_iff.1 hasm
  exact ⟨by simp [hcs], hnodup.erase _, (List.erase_sublist.countP_le).trans htaps⟩

theorem listenersOk_add {s : State} {id : Byte} (h : ListenersOk s)
    (fresh : id ∉ s.listeners.bufListeners)
    (room : s.listeners.bufListeners.length ≠ s.params.maxBufListeners.toNat) :
    ListenersOk { s with listeners :=
      { s.listeners with bufListeners := s.listeners.bufListeners ++ [id] } } := by
  obtain ⟨hnodup, hlen⟩ := h
  exact ⟨hnodup.append (List.nodup_singleton _) (List.disjoint_singleton.2 fresh),
    List.length_append.trans_le (Nat.lt_of_le_of_ne hlen room)⟩

theorem listenersOk_erase {s : State} (h : ListenersOk s) (id : Byte) :
    ListenersOk { s with listeners :=
      { s.listeners with bufListeners := s.listeners.bufListeners.erase id } } := by
  obtain ⟨hnodup, hlen⟩ := h
  exact ⟨hnodup.erase id, List.length_erase_le.trans hlen⟩

/-! ## Configuration -/

theorem designOk_iff {P : Config.Params} {v : List F32} :
    designOk P v = true ↔ v ≠ [] ∧ v.length ≤ P.maxTaps.toNat ∧ v.all isFinite = true := by
  simp [designOk, and_assoc]

/-- A successful configuration leaves a good cache that holds the vector it installs. -/
theorem configure_eq_true_of_cacheOk {rate : Word} {s t : State} (hc : CacheOk s)
    (h : configure rate s = (t, true)) :
    rateValid s.params rate = true ∧ ∃ v c, t = applyConfig rate v { s with cache := c } ∧
      designOk s.params v = true ∧ CacheOk { s with cache := c } := by
  obtain ⟨hsorted, hgood⟩ := hc
  obtain ⟨hr, v, c, ht, ⟨hf, rfl⟩ | ⟨-, ho, rfl⟩⟩ := configure_eq_true h
  · exact ⟨hr, v, _, ht, designOk_iff.2 (hgood _ (cacheFind_mem hf)), hsorted, hgood⟩
  · refine ⟨hr, v, _, ht, ho, cacheInsert_sorted hsorted, fun e he => ?_⟩
    rcases mem_cacheInsert he with rfl | he
    · exact designOk_iff.1 ho
    · exact hgood e he

theorem installFilter_ntaps {v : List F32} (hv : v.length < 2 ^ 32) :
    (installFilter v).ntaps.toNat = v.length :=
  (BitVec.toNat_ofNat _ _).trans (Nat.mod_eq_of_lt hv)

theorem filterOk_installFilter {s : State} {v : List F32} (hv : v.length < 2 ^ 32) :
    FilterOk { s with filter := installFilter v } := by
  have := installFilter_ntaps hv
  exact ⟨this.symm, List.length_replicate.trans this.symm, List.length_replicate.trans this.symm⟩

theorem stateOk_configured {rate : Word} {s t : State} (h : StateOk s)
    (hc : configure rate s = (t, true)) : StateOk t := by
  obtain ⟨hparams, hregistry, hlisteners, hcache, -, hasm, hagc, -⟩ := h
  obtain ⟨hr, v, c, rfl, ho, hcache'⟩ := configure_eq_true_of_cacheOk hcache hc
  obtain ⟨hne, hlen, -⟩ := designOk_iff.1 ho
  have hv : v.length < 2 ^ 32 := hlen.trans_lt (BitVec.isLt _)
  have ntaps := installFilter_ntaps hv
  have window : 0 < (rate / s.params.powerDiv).toNat := by
    simp only [rateValid, Bool.and_eq_true, decide_eq_true_eq] at hr
    rw [BitVec.toNat_udiv]
    omega
  have configured : ConfiguredOk (applyConfig rate v { s with cache := c }) := fun _ =>
    ⟨by simp [attachFramer], ntaps ▸ List.length_pos_iff.2 hne, ntaps ▸ hlen, hr, rfl, rfl, rfl, window⟩
  exact ⟨hparams, registryOk_attachFramer hregistry, hlisteners, hcache',
    filterOk_installFilter (s := s) hv, hasm, hagc, configured⟩

theorem stateOk_configFailed {rate : Word} {s t : State} (h : StateOk s)
    (hc : configure rate s = (t, false)) : StateOk (configFail t) := by
  obtain ⟨n, rfl⟩ := configure_eq_false hc
  obtain ⟨hparams, hregistry, hlisteners, hcache, hfilter, hasm, hagc, -⟩ := h
  exact ⟨hparams, hregistry, hlisteners, hcache, hfilter, hasm, hagc,
    fun hv => absurd hv Bool.false_ne_true⟩

theorem stateOk_resetRelease {s : State} (h : StateOk s) : StateOk (resetRelease s) := by
  unfold resetRelease
  split
  · next t hc =>
    have ht : StateOk t := stateOk_configured h hc
    exact ht
  · next t hc =>
    have ht : StateOk (configFail t) := stateOk_configFailed h hc
    exact ht

/-! ## The filter, the power monitor and the gain control over a block -/

/-- A counter below its width's last value counts on without wrapping round. -/
theorem toNat_add_one_of_lt {w : Nat} {x : BitVec w} (h : x.toNat + 1 < 2 ^ w) :
    (x + 1).toNat = x.toNat + 1 := by
  have hone : (1 : BitVec w).toNat = 1 :=
    (BitVec.toNat_ofNat 1 w).trans (Nat.mod_eq_of_lt (Nat.lt_of_le_of_lt (Nat.le_add_left _ _) h))
  rw [BitVec.toNat_add_of_lt (by rwa [hone]), hone]

/-- A delay line of `n` samples stays one, for `n` at least 1. -/
theorem delayPush_length {n : Nat} {d : List F32} (hn : 1 ≤ n) (hd : d.length = n) (x : F32) :
    (delayPush n x d).length = n := by
  simp [delayPush, hd]
  omega

theorem filterOk_firSample {s : State} (h : FilterOk s) (hn : 1 ≤ s.filter.ntaps.toNat) (x : Cplx) :
    FilterOk { s with filter := (firSample s.filter x).1 } := by
  obtain ⟨hh, hI, hQ⟩ := h
  exact ⟨hh, delayPush_length hn hI x.re, delayPush_length hn hQ x.im⟩

theorem filterOk_firBlock {s : State} (h : FilterOk s) (hn : 1 ≤ s.filter.ntaps.toNat)
    (xs : List Cplx) : FilterOk { s with filter := (firBlock s.filter xs).1 } := by
  obtain ⟨hblock, -⟩ := runStage_keeps (f := firSample)
    (I := fun fs => FilterOk { s with filter := fs } ∧ 1 ≤ fs.ntaps.toNat)
    (fun fs x ⟨hok, hn⟩ => ⟨filterOk_firSample (s := { s with filter := fs }) hok hn x, hn⟩) xs ⟨h, hn⟩
  exact hblock

/-- A power window is completed before the count reaches its length. -/
theorem powerSample_cnt_lt {p : PowerState} (h : p.cnt.toNat < p.win.toNat) (f : Cplx) :
    (powerSample p f).1.cnt.toNat < (powerSample p f).1.win.toNat := by
  have hwin := p.win.isLt
  have hcnt := toNat_add_one_of_lt (by omega : p.cnt.toNat + 1 < 2 ^ 32)
  simp only [powerSample]
  split
  · exact Nat.zero_lt_of_lt h
  · next hne =>
    have : p.cnt.toNat + 1 ≠ p.win.toNat := fun he => hne (BitVec.eq_of_toNat_eq (hcnt.trans he))
    simp only [hcnt]
    omega

theorem powerSamples_cnt_lt (fs : List Cplx) {p : PowerState} (h : p.cnt.toNat < p.win.toNat) :
    (fs.foldl (fun p x => (powerSample p x).1) p).cnt.toNat < p.win.toNat := by
  induction fs generalizing p with
  | nil => exact h
  | cons f fs ih => simpa using ih (powerSample_cnt_lt h f)

theorem agcOk_agcSample {s : State} (h : AgcOk s) (x : Cplx) :
    AgcOk { s with agc := (agcSample s.params s.agc x).1 } := by
  obtain ⟨henv, hidx⟩ := h
  have widx : (agcSample s.params s.agc x).1.widx.toNat < s.params.agcWindow.toNat :=
    (BitVec.toNat_umod).trans_lt (Nat.mod_lt _ (Nat.zero_lt_of_lt hidx))
  exact ⟨(agcSample_env_length _ _ _).trans henv, widx⟩

theorem agcOk_agcBlock {s : State} (h : AgcOk s) (fs : List Cplx) :
    AgcOk { s with agc := (agcBlock s.params s.agc fs).1 } :=
  runStage_keeps (I := fun a => AgcOk { s with agc := a })
    (fun a x h => agcOk_agcSample (s := { s with agc := a }) h x) fs h

/-! ## Symbol processing -/

/-- What every delivery of a dibit keeps, its distribution keeps. -/
theorem distribute_keeps {I : State → Prop} {d : Dibit} (hd : ∀ c s, I s → I (deliver d s c))
    {s : State} (h : I s) : I (distribute d s) := by
  unfold distribute
  generalize s.registry.consumers = cs
  induction cs generalizing s with
  | nil => exact h
  | cons c cs ih => exact ih (hd c s h)

/-- What every pass of the strobe loop keeps, the loop keeps. -/
theorem strobeLoop_keeps {I : State → Prop} {z : Cplx} (hp : ∀ s, I s → I (strobePass z s)) (n : Nat)
    {s : State} (h : I s) : I (strobeLoop n z s) := by
  induction n generalizing s with
  | zero => exact h
  | succ n ih =>
    cases hle : fLe s.timing.tau fOne with
    | true => rw [strobeLoop_succ hle]; exact ih (hp s h)
    | false => rw [strobeLoop_of_done hle]; exact h

/-- What every sample keeps, DemodBlock keeps. -/
theorem demodBlock_keeps {I : State → Prop} (hs : ∀ s a, I s → I (demodSample s a)) (as : List Cplx)
    {s : State} (h : I s) : I (demodBlock s as) := by
  unfold demodBlock
  induction as generalizing s with
  | nil => exact h
  | cons a as ih => exact ih (hs s a h)

/-! ## The assembler -/

/-- The end of PackDibit takes a buffer that may just have filled back to one that is not full. -/
theorem assemblerOk_finishBuffer {s : State} (hbuf : s.asm.buf.length = s.params.bufBytes.toNat)
    (hfill : s.asm.fill.toNat ≤ s.params.bufBytes.toNat) (hpos : 0 < s.params.bufBytes.toNat)
    (hpart : s.asm.part.toNat < 4 ^ s.asm.pcnt.toNat) : AssemblerOk (finishBuffer s) := by
  unfold finishBuffer
  split
  · rw [deliverBuffer_eq]
    exact ⟨hbuf, hpos, hpart⟩
  · next hne =>
    exact ⟨hbuf, Nat.lt_of_le_of_ne hfill fun he => hne (BitVec.eq_of_toNat_eq he), hpart⟩

theorem assemblerOk_storeByte {s : State} (h : AssemblerOk s) (byte : Byte) :
    AssemblerOk (storeByte byte s) := by
  obtain ⟨hbuf, hfill, -⟩ := h
  have hlt := s.params.bufBytes.isLt
  have hnext := toNat_add_one_of_lt (by omega : s.asm.fill.toNat + 1 < 2 ^ 32)
  exact assemblerOk_finishBuffer (by simpa using hbuf) (hnext.trans_le hfill)
    (Nat.zero_lt_of_lt hfill) Nat.one_pos

/-- A dibit enters a partial byte below its pending bits. -/
theorem part_push_lt {part : Byte} {pcnt : BitVec 2} (h : part.toNat < 4 ^ pcnt.toNat)
    (hp : pcnt.toNat + 1 ≠ 4) (d : Dibit) :
    (part * 4 + d.setWidth 8).toNat < 4 ^ (pcnt + 1).toNat := by
  have hd := d.isLt
  have hpc := pcnt.isLt
  have hnext := toNat_add_one_of_lt (by omega : pcnt.toNat + 1 < 2 ^ 2)
  rw [hnext, pow_succ]
  have hbound : 4 ^ pcnt.toNat ≤ 4 ^ 2 := Nat.pow_le_pow_right (by decide) (by omega)
  have hvalue : (part * 4 + d.setWidth 8).toNat = (part.toNat * 4 + d.toNat) % 256 := by
    simp [BitVec.toNat_add, BitVec.toNat_mul]
  omega

theorem assemblerOk_packDibit {s : State} (h : AssemblerOk s) (d : Dibit) :
    AssemblerOk (packDibit d s) := by
  unfold packDibit
  dsimp only
  split
  · exact assemblerOk_storeByte h _
  · next hp =>
    obtain ⟨hbuf, hfill, hpart⟩ := h
    exact ⟨hbuf, hfill, part_push_lt hpart hp d⟩

theorem assemblerOk_deliver {s : State} (h : AssemblerOk s) (d : Dibit) (c : Consumer) :
    AssemblerOk (deliver d s c) := by
  cases c with
  | asm => exact assemblerOk_packDibit h d
  | framer => exact h
  | tap id => exact h

theorem assemblerOk_strobePass {s : State} (h : AssemblerOk s) (z : Cplx) :
    AssemblerOk (strobePass z s) := by
  unfold strobePass
  dsimp only
  split
  · exact h
  · rw [symbolStep_eq]
    exact distribute_keeps (I := AssemblerOk) (fun c s h => assemblerOk_deliver h _ c)
      (s := symbolUpdate _ s) h

theorem assemblerOk_demodBlock {s : State} (h : AssemblerOk s) (as : List Cplx) :
    AssemblerOk (demodBlock s as) :=
  demodBlock_keeps (I := AssemblerOk) (fun _ _ h =>
    strobeLoop_keeps (I := AssemblerOk) (fun _ h => assemblerOk_strobePass h _) strobeBound h) as h

theorem assemblerOk_flushed {s : State} (h : AssemblerOk s) :
    AssemblerOk { flushBuffer s with asm := emptyAssembler (flushBuffer s).asm } := by
  obtain ⟨hbuf, hfill, -⟩ := h
  have hpos := Nat.zero_lt_of_lt hfill
  unfold flushBuffer
  split
  · rw [deliverBuffer_eq]
    exact ⟨hbuf, hpos, Nat.one_pos⟩
  · exact ⟨hbuf, hpos, Nat.one_pos⟩

/-! ## Every command -/

/-- Symbol processing can spoil the assembler only. -/
theorem SymbolFrame.stateOk {s t : State} (hf : SymbolFrame s t) (h : StateOk s)
    (ha : AssemblerOk t) : StateOk t := by
  obtain ⟨hparams, hregistry, hlisteners, hcache, hfilter, -, hagc, hconfigured⟩ := h
  rw [hf.eq] at ha ⊢
  exact ⟨hparams, hregistry, hlisteners, hcache, hfilter, ha, hagc, hconfigured⟩

theorem stateOk_beforeDemod {s : State} (h : StateOk s) (hv : s.flags.valid = true) (xs : List Cplx) :
    StateOk (beforeDemod xs s) := by
  obtain ⟨hparams, hregistry, hlisteners, hcache, hfilter, hasm, hagc, hconfigured⟩ := h
  obtain ⟨hframer, htaps, hmax, hrate, hvalues, homega, hwin, hcnt⟩ := hconfigured hv
  have configured : ConfiguredOk (beforeDemod xs s) := fun _ =>
    ⟨hframer, by simpa [beforeDemod] using htaps, by simpa [beforeDemod] using hmax, hrate, hvalues,
      homega, by simpa [beforeDemod] using hwin,
      by simpa [beforeDemod] using powerSamples_cnt_lt _ hcnt⟩
  exact ⟨hparams, hregistry, hlisteners, hcache, filterOk_firBlock hfilter htaps xs, hasm,
    agcOk_agcBlock hagc _, configured⟩

theorem stateOk_datapath {s : State} (h : StateOk s) (hv : s.flags.valid = true) (xs : List Cplx) :
    StateOk (datapath xs s) := by
  have hb := stateOk_beforeDemod h hv xs
  refine (datapath_frame xs s).stateOk hb ?_
  obtain ⟨-, -, -, -, -, hasm, -, -⟩ := hb
  rw [datapath_eq_demodBlock]
  exact assemblerOk_demodBlock hasm _

theorem CommandEffect.stateOk {i : Instr} {s u : State} (hu : CommandEffect s i u) (h : StateOk s) :
    StateOk u := by
  cases hu with
  | @block ts xs _ hv _ => exact stateOk_datapath (s := acceptTime ts s) h hv xs
  | configFailed hc => exact stateOk_configFailed h hc
  | configured hc => exact stateOk_configured h hc
  | consumerAdded fresh room =>
    obtain ⟨hparams, hregistry, hlisteners, hcache, hfilter, hasm, hagc, hconfigured⟩ := h
    exact ⟨hparams, registryOk_addTap hregistry fresh room, hlisteners, hcache, hfilter, hasm, hagc,
      fun hv => (hconfigured hv).imp_left (List.mem_append_left _)⟩
  | @consumerRemoved id _ =>
    obtain ⟨hparams, hregistry, hlisteners, hcache, hfilter, hasm, hagc, hconfigured⟩ := h
    exact ⟨hparams, registryOk_eraseTap hregistry id, hlisteners, hcache, hfilter, hasm, hagc,
      fun hv => (hconfigured hv).imp_left (List.mem_erase_of_ne (by simp)).2⟩
  | bufListenerAdded fresh room =>
    obtain ⟨hparams, hregistry, hlisteners, hcache, hfilter, hasm, hagc, hconfigured⟩ := h
    exact ⟨hparams, hregistry, listenersOk_add hlisteners fresh room, hcache, hfilter, hasm, hagc,
      hconfigured⟩
  | @bufListenerRemoved id _ =>
    obtain ⟨hparams, hregistry, hlisteners, hcache, hfilter, hasm, hagc, hconfigured⟩ := h
    exact ⟨hparams, hregistry, listenersOk_erase hlisteners id, hcache, hfilter, hasm, hagc,
      hconfigured⟩
  | flushed =>
    have ⟨_, _, _, _, _, hasm, _, _⟩ := h
    exact (flushed_frame s).stateOk h (assemblerOk_flushed hasm)
  | _ => exact h

/-! ## Every step -/

/-- Settles O17, by the four kinds of step and the effect of each command. -/
theorem everyStepKeepsStateOk : Obligations.EveryStepKeepsStateOk := by
  unfold Obligations.EveryStepKeepsStateOk
  intro s t h hstep
  rcases step_cases hstep with ⟨-, ws, tr, rfl⟩ | ⟨-, -, -, rfl⟩ | ⟨-, -, i, rest, -, he⟩ | ⟨-, -, -, rfl⟩
  · obtain ⟨hparams, -⟩ := h
    exact stateOk_hardReset hparams
  · exact stateOk_resetRelease h
  · obtain ⟨op, st, u, rfl, hu⟩ := exec_effect he
    exact hu.stateOk h
  · exact h

end Sys2Proof.Machine
end

section
/-! PROOFS. What outlives a command and what order its records stand in: the coefficient cache only grows
(rules R95, R150, R152), and the EVENT records of a block come first (rule R90). -/

namespace Sys2Proof.Machine

open Sys2Proof.Safety

/-! ## The coefficient cache -/

/-- A vector stored for a rate that had none hides no other vector. -/
theorem cacheFind_cacheInsert_of_absent {new rate : Word} {v : List F32} {es : List (Word × List F32)}
    (absent : cacheFind new es = none) (found : cacheFind rate es = some v) (w : List F32) :
    cacheFind rate (cacheInsert new w es) = some v := by
  have hne : rate ≠ new := by
    rintro rfl
    exact absurd (absent.symm.trans found) (by simp)
  rw [cacheFind_cacheInsert_of_ne hne, found]

/-- All a command can do to the cached vectors: nothing, or one vector stored for a rate that had none. -/
theorem CommandEffect.cache_entries {i : Instr} {s u : State} (h : CommandEffect s i u) :
    u.cache.entries = s.cache.entries ∨
      ∃ new w, cacheFind new s.cache.entries = none ∧
        u.cache.entries = cacheInsert new w s.cache.entries := by
  cases h with
  | block => exact .inl (congrArg CacheState.entries (datapath_frame _ _).cache)
  | configFailed hc =>
    obtain ⟨n, rfl⟩ := configure_eq_false hc
    exact .inl rfl
  | configured hc =>
    obtain ⟨-, v, c, rfl, ⟨-, rfl⟩ | ⟨absent, -, rfl⟩⟩ := configure_eq_true hc
    · exact .inl rfl
    · exact .inr ⟨_, v, absent, rfl⟩
  | flushed => exact .inl (congrArg CacheState.entries (flushed_frame s).cache)
  | _ => exact .inl rfl

theorem CommandEffect.keeps_cacheFind {i : Instr} {s u : State} (h : CommandEffect s i u) {rate : Word}
    {v : List F32} (found : cacheFind rate s.cache.entries = some v) :
    cacheFind rate u.cache.entries = some v := by
  rcases h.cache_entries with same | ⟨new, w, absent, stored⟩
  · rw [same, found]
  · rw [stored, cacheFind_cacheInsert_of_absent absent found]

/-- Settles O22: of all commands only a configuration stores a vector, and only where there was none. -/
theorem cachedFiltersAreNeverLost : Obligations.CachedFiltersAreNeverLost := by
  unfold Obligations.CachedFiltersAreNeverLost
  intro i s t rate v h found
  obtain ⟨op, st, u, rfl, hu⟩ := exec_effect h
  exact hu.keeps_cacheFind found

/-! ## The order of a block's records -/

/-- The trace grows from `s` to `t` by EVENT records and then by others. -/
def EventsFirst (s t : State) : Prop :=
  ∃ events others, t.trace = s.trace ++ events ++ others ∧
    (∀ r ∈ events, isEvent r = true) ∧ (∀ r ∈ others, isEvent r = false)

theorem EventsFirst.refl (s : State) : EventsFirst s s := ⟨[], [], by simp, by simp, by simp⟩

/-- The RESP record of the bookkeeping comes last. -/
theorem EventsFirst.finish {s u : State} (h : EventsFirst s u) (op : Byte) (st : Status) :
    EventsFirst s (finish op st u) := by
  obtain ⟨events, others, ht, he, ho⟩ := h
  refine ⟨events, others ++ [.resp op (statusCode st)], by simp [ht], he, fun r hr => ?_⟩
  rcases List.mem_append.1 hr with hr | hr
  · exact ho r hr
  · rw [List.mem_singleton.1 hr, isEvent]

/-- The power monitor is done with the whole block before the demodulator begins (rules R90, R145). -/
theorem eventsFirst_datapath (xs : List Cplx) (s : State) : EventsFirst s (datapath xs s) := by
  obtain ⟨recs, trace, delivered⟩ := (datapath_frame xs s).trace
  exact ⟨powerEvents s.listeners s.power (firBlock s.filter xs).2, recs, trace,
    fun _ => isEvent_of_powerEvents, fun r hr => (delivered r hr).not_event⟩

/-- Settles O44: the monitor emits events only, the demodulator and the bookkeeping after it none. -/
theorem eventsPrecedeSymbolRecords : Obligations.EventsPrecedeSymbolRecords := by
  unfold Obligations.EventsPrecedeSymbolRecords
  intro ts xs s t h
  obtain ⟨op, st, u, rfl, hu⟩ := exec_effect h
  have hfirst : EventsFirst s u := by
    cases hu with
    | unchanged => exact .refl s
    | block => exact eventsFirst_datapath xs (acceptTime ts s)
  exact hfirst.finish op st

end Sys2Proof.Machine
end

section
/-! PROOFS. The command decoder against the encoder: a command is read back from its words, its words are
all the decoder consumes, and only missing words keep one from being read (rules R100 to R111). -/

namespace Sys2Proof

/-! ## The fields of the command word and of ARG -/

/-- OP above ARG is the whole command word (rule R100). -/
theorem headerOp_append_headerArg (w : Word) : headerOp w ++ headerArg w = w :=
  (BitVec.extractLsb'_append_extractLsb'_eq_extractLsb' rfl).trans BitVec.extractLsb'_eq_self

@[simp] theorem headerOp_encodeHeader (i : Instr) : headerOp (encodeHeader i) = opcode i :=
  headerOp_append _ _

@[simp] theorem headerArg_encodeHeader (i : Instr) : headerArg (encodeHeader i) = encodeArg i :=
  headerArg_append _ _

/-- A field and the bits above it are the whole. -/
theorem extractLsb'_append_low (k n : Nat) (x : BitVec (k + n)) :
    x.extractLsb' n k ++ x.extractLsb' 0 n = x :=
  (BitVec.extractLsb'_append_extractLsb'_eq_extractLsb' (Nat.zero_add n).symm).trans
    BitVec.extractLsb'_eq_self

/-- The reserved bits, EN and ID are the whole ARG (rules R333, R334). -/
theorem listenerArg_append (arg : BitVec 24) :
    arg.extractLsb' 9 15 ++ arg.extractLsb' 8 1 ++ arg.extractLsb' 0 8 = arg := by
  rw [BitVec.extractLsb'_append_extractLsb'_eq_extractLsb' (by rfl)]
  exact extractLsb'_append_low 16 8 arg

@[simp] theorem presetArg_resv (resv : BitVec 22) (p : BitVec 2) :
    (resv ++ p : BitVec 24).extractLsb' 2 22 = resv := BitVec.extractLsb'_append_eq_left

@[simp] theorem presetArg_preset (resv : BitVec 22) (p : BitVec 2) :
    (resv ++ p : BitVec 24).extractLsb' 0 2 = p := BitVec.extractLsb'_append_eq_right

@[simp] theorem idArg_resv (resv : BitVec 16) (id : Byte) :
    (resv ++ id : BitVec 24).extractLsb' 8 16 = resv := BitVec.extractLsb'_append_eq_left

@[simp] theorem idArg_id (resv : BitVec 16) (id : Byte) :
    (resv ++ id : BitVec 24).extractLsb' 0 8 = id := BitVec.extractLsb'_append_eq_right

@[simp] theorem listenerArg_resv (resv : BitVec 15) (en : BitVec 1) (id : Byte) :
    (resv ++ en ++ id : BitVec 24).extractLsb' 9 15 = resv := by
  refine (BitVec.extractLsb'_append_eq_of_le (by decide)).trans ?_
  exact BitVec.extractLsb'_append_eq_left

@[simp] theorem listenerArg_en (resv : BitVec 15) (en : BitVec 1) (id : Byte) :
    (resv ++ en ++ id : BitVec 24).extractLsb' 8 1 = en := by
  refine (BitVec.extractLsb'_append_eq_of_le (by decide)).trans ?_
  exact BitVec.extractLsb'_append_eq_right

@[simp] theorem listenerArg_id (resv : BitVec 15) (en : BitVec 1) (id : Byte) :
    (resv ++ en ++ id : BitVec 24).extractLsb' 0 8 = id := BitVec.extractLsb'_append_eq_right

/-! ## How many payload words a command word calls for (rules R104, R111) -/

theorem payloadWords_of_block {w : Word} (h : headerOp w = 0x01#8) :
    payloadWords w = 2 + 2 * (headerArg w).toNat := by
  simp [payloadWords, h]

theorem payloadWords_of_rate {w : Word} (h : headerOp w = 0x02#8) : payloadWords w = 1 := by
  simp [payloadWords, h]

theorem payloadWords_of_oneWord {w : Word} (h1 : headerOp w ≠ 0x01#8) (h2 : headerOp w ≠ 0x02#8) :
    payloadWords w = 0 := by
  unfold payloadWords
  split
  · next h => exact absurd (BitVec.eq_of_toNat_eq h) h1
  · next h => exact absurd (BitVec.eq_of_toNat_eq h) h2
  · rfl

theorem payloadWords_eq (w : Word) :
    payloadWords w =
      if w.extractLsb' 24 8 = 0x01#8 then 2 + 2 * (w.extractLsb' 0 24).toNat
      else if w.extractLsb' 24 8 = 0x02#8 then 1 else 0 := by
  split
  · next h => exact payloadWords_of_block h
  · next h1 =>
    split
    · next h2 => exact payloadWords_of_rate h2
    · next h2 => exact payloadWords_of_oneWord h1 h2

/-! ## Reading back the words of a command -/

theorem decode_of_block {w : Word} (h : headerOp w = 0x01#8) (ws : List Word) :
    decode (w :: ws) = decodeBlock (headerArg w) ws := by
  simp [decode, h]

theorem decode_of_rate {w : Word} (h : headerOp w = 0x02#8) (ws : List Word) :
    decode (w :: ws) = decodeRate (headerArg w) ws := by
  simp [decode, h]

/-- An opcode from 0x10 on is none of the defined ones (rule R108). -/
theorem decode_of_illegal {w : Word} (h : 0x10 ≤ (headerOp w).toNat) (ws : List Word) :
    decode (w :: ws) = .ok (.illegal (headerOp w) (headerArg w), ws) := by
  simp only [decode]
  split
  case h_17 => rfl
  all_goals omega

/-- The decoder reads every well-formed command back from its words. -/
theorem decode_encode {i : Instr} (hw : i.wf = true) (rest : List Word) :
    decode (encode i ++ rest) = .ok (i, rest) := by
  cases i with
  | receiveBlock ts xs =>
    have hlen : (BitVec.ofNat 24 xs.length).toNat = xs.length :=
      Nat.mod_eq_of_lt (by simpa [Instr.wf] using hw)
    have hts : ts.extractLsb' 32 32 ++ ts.extractLsb' 0 32 = ts := extractLsb'_append_low 32 32 ts
    refine (decode_of_block (headerOp_encodeHeader _) _).trans ?_
    simp [encodeArg, encodePayload, decodeBlock, hlen, hts]
  | setSampleRate resv rate =>
    refine (decode_of_rate (headerOp_encodeHeader _) _).trans ?_
    simp [encodeArg, encodePayload, decodeRate]
  | illegal op arg =>
    have hop : 0x10 ≤ op.toNat := of_decide_eq_true hw
    refine (decode_of_illegal (by simpa [opcode] using hop) _).trans ?_
    simp [encodeArg, encodePayload, opcode]
  | _ => simp [encode, encodeHeader, encodePayload, opcode, encodeArg, decode]

/-! ## What the decoder can read -/

/-- All the sample reader can do: wait for a missing word, or read the words of `n` samples. -/
theorem takeSamples_cases (n : Nat) (ws : List Word) :
    (ws.length < 2 * n ∧ takeSamples n ws = none) ∨
    (∃ xs rest, takeSamples n ws = some (xs, rest) ∧ xs.length = n ∧ ws = encodeSamples xs ++ rest) := by
  induction n, ws using takeSamples.induct with
  | case1 ws => exact .inr ⟨[], ws, rfl, rfl, rfl⟩
  | case2 n i q ws xs rest hrec ih =>
    rcases ih with ⟨-, hnone⟩ | ⟨xs', rest', hsome, hlen, hws⟩
    · cases hrec.symm.trans hnone
    · refine .inr ⟨⟨i, q⟩ :: xs', rest', ?_, ?_, ?_⟩
      · simp only [takeSamples, hsome]
      · simp only [List.length_cons, hlen]
      · simp only [hws, encodeSamples, List.cons_append]
  | case3 n i q ws hrec ih =>
    rcases ih with ⟨hshort, -⟩ | ⟨xs', rest', hsome, -, -⟩
    · exact .inl ⟨by simp only [List.length_cons]; omega, by simp only [takeSamples, hrec]⟩
    · cases hrec.symm.trans hsome
  | case4 n ws hne =>
    match ws with
    | [] => exact .inl ⟨by simp, rfl⟩
    | [_] => exact .inl ⟨by simp; omega, rfl⟩
    | i :: q :: ws => exact (hne i q ws rfl).elim

/-- A command is spelled by the one word that holds its opcode and its ARG, if it has no payload. -/
theorem encode_eq_singleton {i : Instr} {w : Word} (hop : (headerOp w).toNat = (opcode i).toNat)
    (harg : encodeArg i = headerArg w) (hpay : encodePayload i = []) : encode i = [w] := by
  rw [encode, hpay, encodeHeader, ← BitVec.eq_of_toNat_eq hop, harg, headerOp_append_headerArg]

/-- Every opcode but 0x01 and 0x02 has a command for every ARG, which takes the command word alone
(rules R101, R104). -/
theorem decode_oneWord {w : Word} (h1 : headerOp w ≠ 0x01#8) (h2 : headerOp w ≠ 0x02#8)
    (ws : List Word) : ∃ i, decode (w :: ws) = .ok (i, ws) ∧ i.wf = true ∧ encode i = [w] := by
  simp only [decode]
  split
  · next h => exact ⟨.nop _, rfl, rfl, encode_eq_singleton h rfl rfl⟩
  · next h => exact absurd (BitVec.eq_of_toNat_eq h) h1
  · next h => exact absurd (BitVec.eq_of_toNat_eq h) h2
  · next h => exact ⟨.freqCorrectionChange _, rfl, rfl, encode_eq_singleton h rfl rfl⟩
  · next h => exact ⟨.resetLoop _, rfl, rfl, encode_eq_singleton h rfl rfl⟩
  · next h =>
    exact ⟨.setBandwidth _ _, rfl, rfl, encode_eq_singleton h (extractLsb'_append_low 22 2 _) rfl⟩
  · next h =>
    exact ⟨.correctInversion _ _, rfl, rfl, encode_eq_singleton h (extractLsb'_append_low 22 2 _) rfl⟩
  · next h =>
    exact ⟨.addConsumer _ _, rfl, rfl, encode_eq_singleton h (extractLsb'_append_low 16 8 _) rfl⟩
  · next h =>
    exact ⟨.removeConsumer _ _, rfl, rfl, encode_eq_singleton h (extractLsb'_append_low 16 8 _) rfl⟩
  · next h =>
    exact ⟨.addBufferListener _ _, rfl, rfl, encode_eq_singleton h (extractLsb'_append_low 16 8 _) rfl⟩
  · next h =>
    exact ⟨.removeBufferListener _ _, rfl, rfl,
      encode_eq_singleton h (extractLsb'_append_low 16 8 _) rfl⟩
  · next h =>
    exact ⟨.setEventListener _ _ _, rfl, rfl, encode_eq_singleton h (listenerArg_append _) rfl⟩
  · next h =>
    exact ⟨.setMessageListener _ _ _, rfl, rfl, encode_eq_singleton h (listenerArg_append _) rfl⟩
  · next h => exact ⟨.flush _, rfl, rfl, encode_eq_singleton h rfl rfl⟩
  · next h => exact ⟨.readReg _ _, rfl, rfl, encode_eq_singleton h (extractLsb'_append_low 16 8 _) rfl⟩
  · next h => exact ⟨.clearStatus _, rfl, rfl, encode_eq_singleton h rfl rfl⟩
  · have hop : 0x10 ≤ (headerOp w).toNat := by
      simp only [imp_false] at *
      omega
    exact ⟨.illegal _ _, rfl, decide_eq_true hop, encode_eq_singleton rfl rfl rfl⟩

/-- The command `i` is read from the stream `w :: ws` and leaves `rest`: it is well formed, the stream is
its encoding before `rest`, and `w` alone tells how many words that takes. -/
structure Reads (w : Word) (ws : List Word) (i : Instr) (rest : List Word) : Prop where
  decoded : decode (w :: ws) = .ok (i, rest)
  wf : i.wf = true
  words : w :: ws = encode i ++ rest
  length : ws.length = payloadWords w + rest.length

/-- A command word of any opcode but 0x01 and 0x02 is a whole command. -/
theorem reads_oneWord {w : Word} (h1 : headerOp w ≠ 0x01#8) (h2 : headerOp w ≠ 0x02#8)
    (ws : List Word) : ∃ i, Reads w ws i ws := by
  obtain ⟨i, hd, hwf, henc⟩ := decode_oneWord h1 h2 ws
  refine ⟨i, hd, hwf, by rw [henc]; rfl, ?_⟩
  rw [payloadWords_of_oneWord h1 h2, Nat.zero_add]

/-- The rate that follows a command word of opcode 0x02 (rule R106). -/
theorem reads_rate {w : Word} (h : headerOp w = 0x02#8) (rate : Word) (rest : List Word) :
    Reads w (rate :: rest) (.setSampleRate (headerArg w) rate) rest where
  decoded := decode_of_rate h _
  wf := rfl
  words := by
    rw [encode, encodeHeader, opcode, ← h, encodeArg, headerOp_append_headerArg]
    rfl
  length := by rw [payloadWords_of_rate h, List.length_cons, Nat.add_comm]

/-- The block whose timestamp and samples follow a command word of opcode 0x01 (rule R105). -/
theorem reads_block {w lo hi : Word} (h : headerOp w = 0x01#8) {xs : List Cplx} {ws rest : List Word}
    (hsome : takeSamples (headerArg w).toNat ws = some (xs, rest))
    (hlen : xs.length = (headerArg w).toNat) (hws : ws = encodeSamples xs ++ rest) :
    Reads w (lo :: hi :: ws) (.receiveBlock (hi ++ lo) xs) rest where
  decoded := by simp only [decode_of_block h, decodeBlock, hsome]
  wf := decide_eq_true (hlen ▸ (headerArg w).isLt)
  words := by
    have hhead : encodeHeader (.receiveBlock (hi ++ lo) xs) = w := by
      rw [encodeHeader, opcode, encodeArg, hlen, ← h, BitVec.ofNat_toNat, BitVec.setWidth_eq]
      exact headerOp_append_headerArg w
    have hlo : (hi ++ lo).extractLsb' 0 32 = lo := BitVec.extractLsb'_append_eq_right
    have hhi : (hi ++ lo).extractLsb' 32 32 = hi := BitVec.extractLsb'_append_eq_left
    rw [encode, hhead, encodePayload, hlo, hhi, hws]
    rfl
  length := by
    rw [payloadWords_of_block h, hws]
    simp only [List.length_cons, List.length_append, encodeSamples_length, hlen]
    omega

/-- All the decoder can do with a command word: wait for a missing payload word, or read a command
(rules R101, R104). -/
theorem decode_cons_cases (w : Word) (ws : List Word) :
    (ws.length < payloadWords w ∧ decode (w :: ws) = .error .payloadIncomplete) ∨
    (∃ i rest, Reads w ws i rest) := by
  by_cases h1 : headerOp w = 0x01#8
  · rw [payloadWords_of_block h1, decode_of_block h1]
    match ws with
    | [] => exact .inl ⟨by simp only [List.length_nil]; omega, rfl⟩
    | [_] => exact .inl ⟨by simp only [List.length_singleton]; omega, rfl⟩
    | lo :: hi :: ws =>
      rcases takeSamples_cases (headerArg w).toNat ws with ⟨hshort, hnone⟩ | ⟨xs, rest, hsome, hlen, hws⟩
      · exact .inl ⟨by simp only [List.length_cons]; omega, by simp only [decodeBlock, hnone]⟩
      · exact .inr ⟨_, rest, reads_block h1 hsome hlen hws⟩
  · by_cases h2 : headerOp w = 0x02#8
    · rw [payloadWords_of_rate h2, decode_of_rate h2]
      cases ws with
      | nil => exact .inl ⟨Nat.one_pos, rfl⟩
      | cons rate rest =>
        exact .inr ⟨_, rest, reads_rate h2 rate rest⟩
    · obtain ⟨i, hr⟩ := reads_oneWord h1 h2 ws
      exact .inr ⟨i, ws, hr⟩

/-- A command that is read is read as `Reads` says. -/
theorem reads_of_decode {w : Word} {ws rest : List Word} {i : Instr}
    (h : decode (w :: ws) = .ok (i, rest)) : Reads w ws i rest := by
  rcases decode_cons_cases w ws with ⟨-, he⟩ | ⟨i', rest', hr⟩
  · cases he.symm.trans h
  · cases hr.decoded.symm.trans h
    exact hr

/-- A command goes unread exactly when payload words are missing. -/
theorem decode_cons_error_iff (w : Word) (ws : List Word) :
    (∃ e, decode (w :: ws) = .error e) ↔ ws.length < payloadWords w := by
  rcases decode_cons_cases w ws with ⟨hshort, he⟩ | ⟨i, rest, hr⟩
  · exact ⟨fun _ => hshort, fun _ => ⟨_, he⟩⟩
  · refine ⟨fun ⟨e, he⟩ => ?_, fun hshort => ?_⟩
    · cases he.symm.trans hr.decoded
    · have := hr.length
      omega

/-! ## The statements on the encoding -/

/-- Settles O1, by the form of the command. -/
theorem decodeReadsBackEveryEncoding : Obligations.DecodeReadsBackEveryEncoding := by
  unfold Obligations.DecodeReadsBackEveryEncoding
  exact fun i rest hw => decode_encode hw rest

/-- Settles O2: an empty stream holds no command, and any other is read as `Reads` says. -/
theorem decodedWordsAreTheEncoding : Obligations.DecodedWordsAreTheEncoding := by
  unfold Obligations.DecodedWordsAreTheEncoding
  intro ws i rest h
  cases ws with
  | nil => cases h
  | cons w ws => exact ⟨(reads_of_decode h).wf, (reads_of_decode h).words⟩

/-- Settles O3: the words read are an encoding, as long as its first word says. -/
theorem commandLengthFromFirstWord : Obligations.CommandLengthFromFirstWord := by
  unfold Obligations.CommandLengthFromFirstWord
  intro w ws i rest h
  have hr := reads_of_decode h
  have hlen : (w :: ws).length - rest.length = 1 + payloadWords w := by
    have := hr.length
    simp only [List.length_cons]
    omega
  constructor
  · rw [hlen, payloadWords_eq]
    split_ifs <;> rfl
  · have henc : (w :: ws).length - rest.length = (encode i).length := by
      rw [hr.words, List.length_append, Nat.add_sub_cancel]
    rw [henc, hr.words, List.drop_left]

/-- Settles O4: without a command word nothing is read, and with one only its payload can be missing. -/
theorem decoderWaitsOnlyForMissingWords : Obligations.DecoderWaitsOnlyForMissingWords := by
  unfold Obligations.DecoderWaitsOnlyForMissingWords
  intro ws
  cases ws with
  | nil => exact ⟨fun _ => .inl rfl, fun _ => ⟨_, rfl⟩⟩
  | cons w ws =>
    rw [decode_cons_error_iff, payloadWords_eq]
    constructor
    · exact fun hshort => .inr ⟨w, ws, rfl, hshort⟩
    · rintro (hnil | ⟨_, _, hcons, hshort⟩)
      · cases hnil
      · cases hcons
        exact hshort

/-- Words that spell a well-formed command decode to it, with nothing left. -/
theorem decode_of_encode_eq {i : Instr} {ws : List Word} (hw : i.wf = true) (h : encode i = ws) :
    decode ws = .ok (i, []) := by
  rw [← h, ← List.append_nil (encode i)]
  exact decode_encode hw []

/-- Settles O5: the encoder spells the ten commands with the ten words of the vectors. -/
theorem writtenWordsDecode : Obligations.WrittenWordsDecode :=
  ⟨decode_of_encode_eq rfl (by decide), decode_of_encode_eq rfl (by decide),
    decode_of_encode_eq rfl (by decide), decode_of_encode_eq rfl (by decide),
    decode_of_encode_eq rfl (by decide), decode_of_encode_eq rfl (by decide),
    decode_of_encode_eq rfl (by decide), decode_of_encode_eq rfl (by decide),
    decode_of_encode_eq rfl (by decide), decode_of_encode_eq rfl (by decide)⟩

end Sys2Proof
end

section
/-! PROOFS. How a command ends: with one RESP record, its last (rules R120, R360, R361, R363), and rejected
for a set reserved bit of SET_SAMPLE_RATE or an illegal opcode (rules R108, R109). -/

namespace Sys2Proof.Machine

open Sys2Proof.Safety

/-- Settles O8: the frame of every command grows the trace by records that are no RESP, and `finish` adds
the one RESP. -/
theorem everyCommandEndsWithOneResp : Obligations.EveryCommandEndsWithOneResp := by
  unfold Obligations.EveryCommandEndsWithOneResp
  intro i s
  obtain ⟨st, u, he, hframe⟩ := exec_frame i s
  obtain ⟨recs, htrace, hresp⟩ := hframe.trace
  exact ⟨finish (opcode i) st u, recs, statusCode st, he, by rw [finish_trace, htrace], hresp,
    statusCode_le st⟩

/-- Settles O10: the payload word belongs to the encoding whatever the reserved bits are, and the
reserved-bit check comes before the rate is looked at. -/
theorem setSampleRateReservedBitsRejected : Obligations.SetSampleRateReservedBitsRejected := by
  unfold Obligations.SetSampleRateReservedBitsRejected
  intro resv rate rest s hresv
  constructor
  · exact decode_encode (i := .setSampleRate resv rate) rfl rest
  · exact (whenReservedZero_of_ne hresv _ _ _).trans (reject_eq (by decide) rfl s)

/-- Settles O24: the word is the whole encoding of the illegal command, which is rejected; READ_REG, the
one command that keeps the last status, is not among the opcodes from 0x10 on. -/
theorem illegalOpcodeRejected : Obligations.IllegalOpcodeRejected := by
  unfold Obligations.IllegalOpcodeRejected
  intro op arg rest s hop
  have hne : op ≠ opReadReg := by
    rintro rfl
    exact absurd hop (by decide)
  constructor
  · exact decode_encode (i := .illegal op arg) (decide_eq_true hop) rest
  · exact reject_eq hne rfl s

end Sys2Proof.Machine
end

section
/-! PROOFS. The filter is a convolution: what its delay lines hold, and the sums read off them (rules R146,
R147, R153). -/

namespace Sys2Proof.Machine

open Sys2Proof.Safety

/-! ## Per-sample stages -/

/-- A stage's output at an index is that of the one sample there, from the state the samples before it
leave. -/
theorem runStage_snd_getElem {σ α β : Type} (f : σ → α → σ × β) (st : σ) (xs : List α) (n : Nat)
    (hn : n < (runStage f st xs).2.length) (hx : n < xs.length) :
    (runStage f st xs).2[n] = (f (runStage f st (xs.take n)).1 xs[n]).2 := by
  induction xs generalizing st n with
  | nil => cases hx
  | cons x xs ih =>
    cases n with
    | zero => rfl
    | succ n => exact ih (f st x).1 n _ (Nat.lt_of_succ_lt_succ hx)

/-! ## Delay lines -/

/-- A cleared delay line of `n` samples after the samples `xs` of one rail. -/
def delayLine (n : Nat) (xs : List F32) : List F32 :=
  xs.foldl (fun d x => delayPush n x d) (List.replicate n posZero)

theorem delayLine_concat (n : Nat) (xs : List F32) (x : F32) :
    delayLine n (xs ++ [x]) = delayPush n x (delayLine n xs) := by
  simp [delayLine]

/-- Of the `n` newest samples after a push, those before it are the newest of the old line. -/
theorem take_delayPush (n : Nat) (x : F32) (d : List F32) :
    (delayPush n x d).take n = (x :: d.take n).take n := by
  cases n <;> simp [delayPush, List.take_take]

/-- The newest samples first, then the zeros of the cleared line. -/
theorem take_delayLine (n : Nat) (xs : List F32) :
    (delayLine n xs).take n = (xs.reverse ++ List.replicate n posZero).take n := by
  induction xs using List.reverseRecOn with
  | nil => rfl
  | append_singleton xs x ih =>
    rw [delayLine_concat, take_delayPush, ih, List.reverse_concat]
    cases n <;> simp [List.take_take]

/-- Each rail's line takes in that rail of the samples, and the coefficients stay. -/
theorem firSamples_eq (fs : FilterState) (xs : List Cplx) :
    (firBlock fs xs).1 =
      { fs with
        dI := (xs.map Cplx.re).foldl (fun d x => delayPush fs.ntaps.toNat x d) fs.dI
        dQ := (xs.map Cplx.im).foldl (fun d x => delayPush fs.ntaps.toNat x d) fs.dQ } := by
  induction xs generalizing fs with
  | nil => rfl
  | cons x xs ih => exact ih (firSample fs x).1

theorem firBlock_installFilter {h : List F32} (hlen : h.length < 2 ^ 32) (xs : List Cplx) :
    (firBlock (installFilter h) xs).1 =
      { installFilter h with
        dI := delayLine h.length (xs.map Cplx.re), dQ := delayLine h.length (xs.map Cplx.im) } := by
  rw [firSamples_eq, installFilter_ntaps hlen]
  rfl

/-! ## The sum over a delay line -/

/-- The sum reads the `n` newest samples of a line only. -/
theorem firSum_eq_zip_take (h d : List F32) :
    firSum h.length h d =
      (List.zip h (d.take h.length)).foldl (fun y hd => fAdd y (fMul hd.1 hd.2)) posZero := by
  rw [firSum, List.zip, List.take_zipWith, List.take_length]

/-- Coefficient `k` meets the sample `k` before the newest one, or a zero if there is none. -/
theorem zip_take_delayLine (h x : List F32) {n : Nat} (hn : n < x.length) :
    List.zip h ((delayLine h.length (x.take (n + 1))).take h.length) =
      (List.range h.length).map fun k =>
        (h.getD k posZero, if k ≤ n then x.getD (n - k) posZero else posZero) := by
  rw [take_delayLine]
  have hseen : (x.take (n + 1)).reverse.length = n + 1 := by simp; omega
  refine List.ext_getElem (by simp) fun k hk _ => ?_
  have hkh : k < h.length := by simp at hk; omega
  simp only [List.getElem_zip, List.getElem_map, List.getElem_range, List.getElem_take,
    List.getD_eq_getElem h _ hkh, Prod.mk.injEq, true_and]
  split
  · next hkn =>
    rw [List.getElem_append_left (by omega), List.getD_eq_getElem x _ (by omega)]
    simp only [List.getElem_reverse, List.getElem_take, List.length_take]
    congr 1
    omega
  · rw [List.getElem_append_right (by omega), List.getElem_replicate]

theorem firSum_delayLine (h x : List F32) {n : Nat} (hn : n < x.length) :
    firSum h.length h (delayLine h.length (x.take (n + 1))) = convolution h x n := by
  rw [firSum_eq_zip_take, zip_take_delayLine h x hn, List.foldl_map]
  rfl

/-- One sample into the lines that the first `n` samples leave. -/
theorem firSum_delayPush (h x : List F32) {n : Nat} (hn : n < x.length) :
    firSum h.length h (delayPush h.length x[n] (delayLine h.length (x.take n))) = convolution h x n := by
  rw [← delayLine_concat, ← List.take_succ_eq_append_getElem hn, firSum_delayLine h x hn]

/-- Settles O47: before each output the two delay lines hold their rails' samples so far, so the sum over
them after the push is the convolution sum. -/
theorem filterOutputIsConvolution : Obligations.FilterOutputIsConvolution := by
  unfold Obligations.FilterOutputIsConvolution
  intro h xs hlen
  refine List.ext_getElem (by simp [firBlock]) fun n hout hn => ?_
  have hx : n < xs.length := by simpa using hn
  have hrail (part : Cplx → F32) :
      firSum h.length h (delayPush h.length (part xs[n]) (delayLine h.length ((xs.take n).map part))) =
        convolution h (xs.map part) n := by
    rw [← firSum_delayPush h (xs.map part) (by simpa using hx), List.getElem_map, List.map_take]
  calc (firBlock (installFilter h) xs).2[n]
      = (firSample (firBlock (installFilter h) (xs.take n)).1 xs[n]).2 :=
        runStage_snd_getElem firSample _ xs n hout hx
    _ = ⟨convolution h (xs.map Cplx.re) n, convolution h (xs.map Cplx.im) n⟩ := by
        rw [firBlock_installFilter hlen, ← hrail, ← hrail]
        simp only [firSample, installFilter_ntaps hlen]
        rfl
    _ = _ := by rw [List.getElem_map, List.getElem_range]

end Sys2Proof.Machine
end

section
/-! PROOFS. SET_SAMPLE_RATE of a rate that is not cached (rules R150, R321, R323). -/

namespace Sys2Proof.Machine

open Sys2Proof.Safety

/-- Configure for a valid rate with no cached vector: a good design is stored and applied, and any other
answer of the designer is only counted. -/
theorem configure_of_uncached {rate : Word} {s : State} (valid : rateValid s.params rate = true)
    (absent : cacheFind rate s.cache.entries = none) :
    (∃ v, design s.params rate = some v ∧ designOk s.params v = true ∧
      configure rate s =
        (applyConfig rate v
          { s with cache := { entries := cacheInsert rate v s.cache.entries
                              designCount := s.cache.designCount + 1 } }, true)) ∨
    ((∀ v, design s.params rate = some v → designOk s.params v = false) ∧
      configure rate s =
        ({ s with cache := { s.cache with designCount := s.cache.designCount + 1 } }, false)) := by
  rcases configure_cases rate s with ⟨invalid, -⟩ | ⟨-, -, bad, e⟩ | ⟨-, v, cached, -⟩ | ⟨-, -, good⟩
  · exact absurd (valid.symm.trans invalid) (by decide)
  · exact .inr ⟨bad, e⟩
  · exact absurd (absent.symm.trans cached) (by simp)
  · exact .inl good

theorem exec_setSampleRate_of_configured {rate : Word} {s t : State}
    (h : configure rate s = (t, true)) :
    exec (.setSampleRate 0 rate) s = .next (endOk 0x02#8 t) := by
  show execSetSampleRate 0 rate s = _
  rw [execSetSampleRate, whenReservedZero_zero, h]
  exact complete_ok_eq (by decide) t

theorem exec_setSampleRate_of_configFailed {rate : Word} {s t : State}
    (h : configure rate s = (t, false)) :
    exec (.setSampleRate 0 rate) s = .next (endRejected 0x02#8 0x06#8 (configFail t)) := by
  show execSetSampleRate 0 rate s = _
  rw [execSetSampleRate, whenReservedZero_zero, h]
  exact reject_eq (by decide) rfl (configFail t)

/-- The model's configuration steps are those of rule R323. -/
theorem applyConfig_eq_configured (rate : Word) (v : List F32) (c : CacheState) (s : State) :
    applyConfig rate v { s with cache := c } = configured rate v c s := by
  simp only [applyConfig, configured, rateFor, installFilter, powerReconfigure, loopReset, omegaMaxFor,
    timingRebuild, attachFramer, Cplx.zero, posZero]

/-- Settles O41: the good design is the one cache entry that is added, and is installed; without one the
configuration fails. -/
theorem newRateIsDesignedOnce : Obligations.NewRateIsDesignedOnce := by
  unfold Obligations.NewRateIsDesignedOnce
  intro rate s valid absent failed
  have onFailure (hc : configure rate s =
      ({ s with cache := { s.cache with designCount := s.cache.designCount + 1 } }, false)) :
      exec (.setSampleRate 0 rate) s = .next failed := exec_setSampleRate_of_configFailed hc
  cases hd : design s.params rate with
  | none =>
    refine ⟨s.cache.entries, by simp, ?_⟩
    rcases configure_of_uncached valid absent with ⟨v, hv, -, -⟩ | ⟨-, hc⟩
    · exact absurd (hd.symm.trans hv) (by simp)
    · exact onFailure hc
  | some v =>
    refine ⟨cacheInsert rate v s.cache.entries, ?_, ?_⟩
    · rintro w ⟨⟩
      exact ⟨cacheFind_cacheInsert_self rate v _, fun r hr => cacheFind_cacheInsert_of_ne hr v _⟩
    · simp only [← designOk_iff]
      rcases configure_of_uncached valid absent with ⟨w, hw, good, hc⟩ | ⟨bad, hc⟩
      · obtain rfl : v = w := Option.some.inj (hd.symm.trans hw)
        rw [if_pos good, exec_setSampleRate_of_configured hc, applyConfig_eq_configured]
      · rw [if_neg (by simp [bad v hd]), onFailure hc]

end Sys2Proof.Machine
end

section
/-! PROOFS. RECEIVE_BLOCK: its rejections in their order (rules R141, R143, R362), and what an accepted
block leaves (rules R90, R140, R144, R145). -/

namespace Sys2Proof.Machine

open Sys2Proof.Safety

/-- Settles O42: the three checks, each rejected before the next is looked at. -/
theorem receiveBlockRejections : Obligations.ReceiveBlockRejections := by
  unfold Obligations.ReceiveBlockRejections
  intro ts xs s
  have rejected {st : Status} (he : isErrorCode (statusCode st) = true)
      (h : execReceiveBlock ts xs s = reject 0x01#8 st s) :
      exec (.receiveBlock ts xs) s = .next (endRejected 0x01#8 (statusCode st) s) :=
    h.trans (reject_eq (by decide) he s)
  refine ⟨fun empty => ?_, fun nonempty invalid => ?_, fun nonempty valid ⟨x, hx, hbad⟩ => ?_⟩
  · exact rejected (st := .emptyBlock) rfl (by simp [execReceiveBlock, empty])
  · exact rejected (st := .notConfigured) rfl (by simp [execReceiveBlock, nonempty, invalid])
  · have hnot : ¬ xs.all sampleFinite = true := fun hall => by
      obtain ⟨hre, him⟩ := (sampleFinite_all xs).1 hall x hx
      simp [hre, him] at hbad
    exact rejected (st := .nonfinite) rfl (by simp [execReceiveBlock, nonempty, valid, hnot])

/-! ## An accepted block -/

theorem not_isResp_of_isEvent {r : Record} (h : isEvent r = true) : isResp r = false := by
  cases r with
  | event => rfl
  | _ => cases h

/-- A command whose status is no error leaves its effect, its status and its RESP. -/
theorem finish_of_not_error {op : Byte} (h : op ≠ opReadReg) {st : Status}
    (he : isErrorCode (statusCode st) = false) (s : State) :
    finish op st s =
      { s with flags := { s.flags with lastStatus := statusCode st }
               trace := s.trace ++ [.resp op (statusCode st)] } := by
  simp [finish, emit, he, h]

/-- The demodulator emits the same records whatever the flags, the filter, the power monitor, the gain
control and the trace before it hold, and leaves them alone. -/
theorem demodBlock_apart (s : State) (as : List Cplx) :
    ∃ recs, (∀ r ∈ recs, DeliveryRecord s r) ∧ (demodBlock s as).trace = s.trace ++ recs ∧
      ∀ fl fs p a tr,
        demodBlock { s with flags := fl, filter := fs, power := p, agc := a, trace := tr } as =
          { demodBlock s as with flags := fl, filter := fs, power := p, agc := a, trace := tr ++ recs } := by
  have run (fl : StatusState) (fs : FilterState) (p : PowerState) (a : AgcState) (tr : List Record) :
      demodBlock { s with flags := fl, filter := fs, power := p, agc := a, trace := tr } as =
        (demodBlock { s with trace := [] } as).replaceOther fl fs p a s.currentTime tr := by
    rw [← demodBlock_replaceOther]
    simp [State.replaceOther]
  have self : demodBlock s as = _ := run s.flags s.filter s.power s.agc s.trace
  obtain ⟨recs, htrace, hrecs⟩ := (demodBlock_frame s as).trace
  have hsame : recs = (demodBlock { s with trace := [] } as).trace.map (retime s.currentTime) := by
    rw [self] at htrace
    exact (List.append_cancel_left htrace).symm
  refine ⟨recs, hrecs, htrace, fun fl fs p a tr => ?_⟩
  rw [run, self, hsame]
  rfl

/-- The frame as one equation when parts that symbol processing leaves alone are replaced. -/
theorem SymbolFrame.replace_eq {s t : State} (h : SymbolFrame s t) (fl : StatusState) (fs : FilterState)
    (p : PowerState) (a : AgcState) (tr : List Record) :
    { t with flags := fl, filter := fs, power := p, agc := a, trace := tr } =
      { s with
        flags := fl, filter := fs, power := p, agc := a, trace := tr
        loop := { t.loop with bwCur := s.loop.bwCur, omegaMax := s.loop.omegaMax }
        timing := t.timing, dibitCount := t.dibitCount, asm := t.asm } :=
  congrArg (fun u : State => { u with flags := fl, filter := fs, power := p, agc := a, trace := tr }) h.eq

/-- Filtering changes the delay lines only. -/
theorem firBlock_fst_eq (fs : FilterState) (xs : List Cplx) :
    (firBlock fs xs).1 = { fs with dI := (firBlock fs xs).1.dI, dQ := (firBlock fs xs).1.dQ } := by
  simp only [firSamples_eq]

/-- The power monitor's window length is the configuration's. -/
theorem powerSamples_eq (p : PowerState) (fs : List Cplx) :
    fs.foldl (fun p x => (powerSample p x).1) p =
      { fs.foldl (fun p x => (powerSample p x).1) p with win := p.win } :=
  congrArg (fun w => { fs.foldl (fun p x => (powerSample p x).1) p with win := w })
    (powerSamples_win p fs)

/-- An accepted block: the demodulator runs on the gain stage's outputs as it would with no stage before
it, and the records of the power monitor stand before its own. -/
theorem datapath_acceptTime (ts : BitVec 64) (xs : List Cplx) (s : State) :
    let f := (firBlock s.filter xs).2
    let d := demodBlock { s with currentTime := ts } (agcBlock s.params s.agc f).2
    ∃ recs, (∀ r ∈ recs, isResp r = false) ∧ d.trace = s.trace ++ recs ∧
      datapath xs (acceptTime ts s) =
        { d with
          flags := { s.flags with tsRegress := s.flags.tsRegress || regresses ts s }
          filter := (firBlock s.filter xs).1
          power := f.foldl (fun p x => (powerSample p x).1) s.power
          agc := (agcBlock s.params s.agc f).1
          trace := s.trace ++ powerEvents s.listeners s.power f ++ recs } := by
  intro f d
  obtain ⟨recs, hrecs, htrace, hrun⟩ :=
    demodBlock_apart { s with currentTime := ts } (agcBlock s.params s.agc f).2
  refine ⟨recs, fun r hr => (hrecs r hr).not_resp, htrace, ?_⟩
  rw [datapath_eq_demodBlock]
  exact hrun _ _ _ _ _

theorem exec_receiveBlock_accepted {ts : BitVec 64} {xs : List Cplx} {s : State} (nonempty : xs ≠ [])
    (valid : s.flags.valid = true) (finite : xs.all sampleFinite = true) :
    exec (.receiveBlock ts xs) s =
      .next (finish 0x01#8 (if regresses ts s then .okTsRegress else .ok)
        (datapath xs (acceptTime ts s))) := by
  show execReceiveBlock ts xs s = _
  simp [execReceiveBlock, nonempty, valid, finite, complete]

/-- Settles O43: the block's state is the demodulator's with the other stages' parts put in, and the
demodulator's own frame says what is left of it. -/
theorem receiveBlockResult : Obligations.ReceiveBlockResult := by
  unfold Obligations.ReceiveBlockResult
  intro ts xs s nonempty valid finite f d st
  obtain ⟨recs, hrecs, htrace, hpath⟩ := datapath_acceptTime ts xs s
  have hstatus : statusCode (if regresses ts s then .okTsRegress else .ok) = st := by
    simp only [st, regresses, decide_eq_true_eq]
    split <;> rfl
  have hok : isErrorCode st = false := by
    simp only [st]
    split <;> rfl
  have hexec := exec_receiveBlock_accepted (ts := ts) nonempty valid ((sampleFinite_all xs).2 finite)
  rw [finish_of_not_error (by decide) (by rw [hstatus]; exact hok), hstatus, hpath] at hexec
  refine ⟨_, powerEvents s.listeners s.power f, recs, by rw [powerBlock_eq], htrace, hexec, ?_,
    rfl, rfl, rfl, ?_⟩
  · refine ((demodBlock_frame _ _).replace_eq _ _ _ _ _).trans ?_
    congr 1
    · exact firBlock_fst_eq s.filter xs
    · exact powerSamples_eq s.power f
  · intro r hr
    rcases List.mem_append.1 hr with hr | hr
    · exact not_isResp_of_isEvent (isEvent_of_powerEvents hr)
    · exact hrecs r hr

end Sys2Proof.Machine
end

section
/-! PROOFS. The power monitor over one whole window (rules R172, R173). -/

namespace Sys2Proof.Machine

open Sys2Proof.Safety

theorem powerSample_of_last {p : PowerState} (h : p.cnt + 1 = p.win) (f : Cplx) :
    powerSample p f =
      ({ p with
          acc := posZero, cnt := 0#32
          last := fDiv (fAdd p.acc (squaredMagnitude f)) (fOfNat p.win.toNat) },
        some (fDiv (fAdd p.acc (squaredMagnitude f)) (fOfNat p.win.toNat))) :=
  if_pos h

theorem powerSample_of_not_last {p : PowerState} (h : p.cnt + 1 ≠ p.win) (f : Cplx) :
    powerSample p f = ({ p with acc := fAdd p.acc (squaredMagnitude f), cnt := p.cnt + 1 }, none) :=
  if_neg h

/-- The records of a completed window (rule R173). -/
def estimateEvents (l : ListenerState) (est : F32) : List Record :=
  if l.evtEn then [.event l.evtId .power est] else []

theorem powerStep_of_last {s : State} (h : s.power.cnt + 1 = s.power.win) (f : Cplx) :
    powerStep s f =
      { s with
        power := (powerSample s.power f).1
        trace := s.trace ++ estimateEvents s.listeners (powerSample s.power f).1.last } := by
  rw [powerStep, powerSample_of_last h]
  cases hen : s.listeners.evtEn <;> simp [emitPower, emit, estimateEvents, hen]

theorem powerStep_of_not_last {s : State} (h : s.power.cnt + 1 ≠ s.power.win) (f : Cplx) :
    powerStep s f = { s with power := (powerSample s.power f).1 } := by
  rw [powerStep, powerSample_of_not_last h]
  rfl

/-- The sum of squared magnitudes that a sequence of samples adds to a window (rule R172). -/
def powerSum (acc : F32) (fs : List Cplx) : F32 :=
  fs.foldl (fun acc f => fAdd acc (squaredMagnitude f)) acc

/-- From anywhere inside a window, the samples that are left of it complete it once, with the last. -/
theorem powerBlock_rest_of_window {fs : List Cplx} {s : State} (nonempty : fs ≠ [])
    (hrest : s.power.cnt.toNat + fs.length = s.power.win.toNat) :
    powerBlock s fs =
      { s with
        power := { s.power with
          acc := posZero, cnt := 0#32
          last := fDiv (powerSum s.power.acc fs) (fOfNat s.power.win.toNat) }
        trace := s.trace ++ estimateEvents s.listeners
          (fDiv (powerSum s.power.acc fs) (fOfNat s.power.win.toNat)) } := by
  induction fs generalizing s with
  | nil => exact absurd rfl nonempty
  | cons f fs ih =>
    have hwin := s.power.win.isLt
    rw [List.length_cons] at hrest
    have hcnt := toNat_add_one_of_lt (by omega : s.power.cnt.toNat + 1 < 2 ^ 32)
    have hstep : powerBlock s (f :: fs) = powerBlock (powerStep s f) fs := rfl
    rw [hstep]
    cases fs with
    | nil =>
      have hlast : s.power.cnt + 1 = s.power.win := BitVec.eq_of_toNat_eq (hcnt.trans hrest)
      rw [powerStep_of_last hlast, powerSample_of_last hlast]
      rfl
    | cons g fs =>
      have hnot : s.power.cnt + 1 ≠ s.power.win := fun he => by
        have := congrArg BitVec.toNat he
        rw [List.length_cons] at hrest
        omega
      rw [powerStep_of_not_last hnot, powerSample_of_not_last hnot,
        ih (List.cons_ne_nil g fs) (show (s.power.cnt + 1).toNat + _ = s.power.win.toNat by omega)]
      rfl

/-- Settles O48: a whole window is what is left of it at its start. -/
theorem powerWindowGivesOneEstimate : Obligations.PowerWindowGivesOneEstimate := by
  unfold Obligations.PowerWindowGivesOneEstimate
  intro fs s nonempty hlen hcnt hacc
  have hest : fDiv (powerSum s.power.acc fs) (fOfNat s.power.win.toNat) = windowPower fs := by
    rw [hacc, ← hlen]
    rfl
  rw [powerBlock_rest_of_window nonempty (by rw [hcnt, ← hlen]; exact Nat.zero_add _), hest]
  rfl

end Sys2Proof.Machine
end

section
/-! PROOFS. The gain control over one sample: the ring, and the bounds of the gain for any ring (rules
R182, R183). -/

namespace Sys2Proof.Machine

open Sys2Proof.Safety

/-! ## Order of values without a sign, and division -/

/-- Without a sign, the order of numbers is that of their magnitude bits. -/
theorem fLe_iff_of_nonneg {x y : F32} (hx : isNaN x = false) (hy : isNaN y = false)
    (hsx : fSign x = false) (hsy : fSign y = false) :
    fLe x y = true ↔ fMagBits x ≤ fMagBits y := by
  simp [fLe, fKey, hx, hy, hsx, hsy]

theorem fLe_refl {x : F32} (hx : isNaN x = false) : fLe x x = true := by simp [fLe, hx]

theorem fLe_of_fLt {x y : F32} (h : fLt x y = true) : fLe x y = true := by
  obtain ⟨hx, hy⟩ := isNaN_of_fLt h
  exact (fLe_iff hx hy).2 ((fLt_iff hx hy).1 h).le

theorem fLt_of_fLt_of_fLe {x y z : F32} (h : fLt x y = true) (h' : fLe y z = true) :
    fLt x z = true := by
  obtain ⟨hx, hy⟩ := isNaN_of_fLt h
  obtain ⟨-, hz⟩ := isNaN_of_fLe h'
  exact (fLt_iff hx hz).2 (((fLt_iff hx hy).1 h).trans_le ((fLe_iff hy hz).1 h'))

/-- A number above +0.0 has no sign and is no zero. -/
theorem fSign_isZero_of_pos {x : F32} (h : fLt posZero x = true) :
    fSign x = false ∧ isZero x = false := by
  obtain ⟨-, hx⟩ := isNaN_of_fLt h
  have hpos : 0 < fValue x := by simpa using (fLt_iff (by decide) hx).1 h
  refine ⟨?_, ?_⟩
  · cases hs : fSign x with
    | false => rfl
    | true => exact absurd (fValue_nonpos hs) (not_le.2 hpos)
  · cases hz : isZero x with
    | false => rfl
    | true => exact absurd ((fValue_eq_zero_iff x).2 hz) hpos.ne'

theorem fDiv_of_pos {a b : F32} (ha : isFinite a = true) (ha0 : fLt posZero a = true)
    (hb : isFinite b = true) (hb0 : fLt posZero b = true) :
    fDiv a b = fRound false (fMag a * 2 ^ 149) (fMag b) := by
  obtain ⟨hsa, -⟩ := fSign_isZero_of_pos ha0
  obtain ⟨hsb, hzb⟩ := fSign_isZero_of_pos hb0
  obtain ⟨-, h⟩ := fDiv_finite ha hb hzb
  rw [h, hsa, hsb]
  rfl

theorem fDiv_inf_of_pos {a b : F32} (ha : isFinite a = true) (ha0 : fLt posZero a = true)
    (hb : isInf b = true) (hb0 : fLt posZero b = true) : fDiv a b = posZero := by
  obtain ⟨hsa, -⟩ := fSign_isZero_of_pos ha0
  obtain ⟨hsb, -⟩ := fSign_isZero_of_pos hb0
  obtain ⟨-, hnb⟩ := isNaN_of_fLt hb0
  simp only [fDiv, isNaN_of_finite ha, isInf_of_finite ha, hnb, hb, hsa, hsb, Bool.or_self,
    Bool.false_eq_true, if_false, if_true]
  rfl

/-- A finite positive value divided by a greater divisor, infinity included, gives no greater quotient,
though the greater quotient may overflow to infinity. -/
theorem fDiv_antitone {a b c : F32} (ha : isFinite a = true) (ha0 : fLt posZero a = true)
    (hb : isFinite b = true) (hb0 : fLt posZero b = true) (hbc : fLe b c = true) :
    fLe posZero (fDiv a c) = true ∧ fLe (fDiv a c) (fDiv a b) = true := by
  have hc0 : fLt posZero c = true := fLt_of_fLt_of_fLe hb0 hbc
  obtain ⟨hnb, hnc⟩ := isNaN_of_fLe hbc
  obtain ⟨hsb, hzb⟩ := fSign_isZero_of_pos hb0
  obtain ⟨hsc, hzc⟩ := fSign_isZero_of_pos hc0
  have zero_le (num den : Nat) : fLe posZero (fRound false num den) = true :=
    (fLe_iff_of_nonneg (by decide) (isNaN_fRound _ _ _) (by decide) (fSign_fRound _ _ _)).2
      (Nat.zero_le _)
  rw [fDiv_of_pos ha ha0 hb hb0]
  rcases class_cases c with ⟨hc, -⟩ | ⟨-, hc, -⟩ | ⟨-, -, hc⟩
  · rw [fDiv_of_pos ha ha0 hc hc0]
    refine ⟨zero_le _ _, (fLe_iff_of_nonneg (isNaN_fRound _ _ _) (isNaN_fRound _ _ _)
      (fSign_fRound _ _ _) (fSign_fRound _ _ _)).2 ?_⟩
    have hmag : fMag b ≤ fMag c := by
      rw [fMag_eq, fMag_eq, magOf_le]
      exact (fLe_iff_of_nonneg hnb hnc hsb hsc).1 hbc
    rw [fMagBits_fRound, fMagBits_fRound]
    exact roundBits_mono (fMag_pos hzc) (fMag_pos hzb) (Nat.mul_le_mul_left _ hmag)
  · rw [fDiv_inf_of_pos ha ha0 hc hc0]
    exact ⟨by decide, zero_le _ _⟩
  · exact absurd (hnc.symm.trans hc) (by decide)

/-! ## The peak -/

/-- A maximum with a number first is a number: a NaN never wins (rule R182). -/
theorem isNaN_fMax {x : F32} (hx : isNaN x = false) (y : F32) : isNaN (fMax x y) = false := by
  unfold fMax
  split
  · next h => exact (isNaN_of_fLt h).2
  · exact hx

theorem le_fMax_right {x y : F32} (hx : isNaN x = false) (hy : isNaN y = false) :
    fLe y (fMax x y) = true := by
  unfold fMax
  split
  · exact fLe_refl hy
  · next h =>
    rw [fLt_iff hx hy, not_lt] at h
    exact (fLe_iff hy hx).2 h

theorem isNaN_foldl_fMax (es : List F32) {x : F32} (hx : isNaN x = false) :
    isNaN (es.foldl fMax x) = false := by
  induction es generalizing x with
  | nil => exact hx
  | cons e es ih => exact ih (isNaN_fMax hx e)

theorem isNaN_peakOf (window : Nat) (env : List F32) : isNaN (peakOf window env) = false :=
  isNaN_foldl_fMax _ (by decide)

theorem agcParams_of_paramsOk {P : Config.Params} (h : paramsOk P = true) :
    positiveOk P.agcObj = true ∧ positiveOk P.agcMinEnv = true := by
  simp only [paramsOk, Bool.and_eq_true] at h
  tauto

/-- The gain of a peak that is a number lies between 0 and the gain of the least envelope (R183). -/
theorem agcGain_bounded {P : Config.Params} (hP : paramsOk P = true) {peak : F32}
    (hpeak : isNaN peak = false) :
    fLe posZero (agcGain P peak) = true ∧
      fLe (agcGain P peak) (fDiv P.agcObj P.agcMinEnv) = true := by
  obtain ⟨hobj, hmin⟩ := agcParams_of_paramsOk hP
  simp only [positiveOk, Bool.and_eq_true] at hobj hmin
  obtain ⟨hobj, hobj0⟩ := hobj
  obtain ⟨hmin, hmin0⟩ := hmin
  exact fDiv_antitone hobj hobj0 hmin hmin0 (le_fMax_right hpeak (isNaN_of_finite hmin))

/-! ## The ring -/

/-- A list with one element replaced, slot by slot. -/
theorem set_eq_map_range {α : Type} (l : List α) (i : Nat) (e d : α) :
    l.set i e = (List.range l.length).map fun n => if n = i then e else l.getD n d := by
  refine List.ext_getElem (by simp) fun n hn _ => ?_
  have hlen : n < l.length := by simpa using hn
  simp [List.getElem_set, hlen, eq_comm]

theorem agcSample_widx {P : Config.Params} {a : AgcState} (h : a.widx.toNat < P.agcWindow.toNat)
    (x : Cplx) :
    (agcSample P a x).1.widx.toNat = (a.widx.toNat + 1) % P.agcWindow.toNat := by
  have hwindow := P.agcWindow.isLt
  have hnext := toNat_add_one_of_lt (by omega : a.widx.toNat + 1 < 2 ^ 32)
  exact BitVec.toNat_umod.trans (by rw [hnext])

/-- Settles O49: the ring's peak is a number whatever the ring holds, which bounds the gain; a whole ring
is read slot by slot. -/
theorem agcGainIsBounded : Obligations.AgcGainIsBounded := by
  unfold Obligations.AgcGainIsBounded
  intro P a x hP b
  obtain ⟨hlow, hhigh⟩ := agcGain_bounded hP
    (isNaN_peakOf P.agcWindow.toNat (a.env.set a.widx.toNat (envelope x)))
  refine ⟨hlow, hhigh, ?_⟩
  intro hlen hidx slot
  have henv : b.env = (List.range P.agcWindow.toNat).map slot := by
    rw [← hlen]
    exact set_eq_map_range a.env a.widx.toNat (envelope x) posZero
  have hpeak : peakOf P.agcWindow.toNat b.env =
      (List.range P.agcWindow.toNat).foldl (fun peak n => fMax peak (slot n)) posZero := by
    rw [henv, peakOf, List.take_of_length_le (by simp), List.foldl_map]
  exact ⟨henv, agcSample_widx hidx x, congrArg (agcGain P) hpeak, rfl⟩

end Sys2Proof.Machine
end

section
/-! PROOFS. The loop's four commands (rules R211 to R215). -/

namespace Sys2Proof.Machine

open Sys2Proof.Safety

/-- A command of one effect with reserved bits: OK with its effect, or ERR_BAD_ARG without it. -/
theorem whenReservedZero_complete_ok {n : Nat} {op : Byte} (hop : op ≠ opReadReg) (resv : BitVec n)
    (s u : State) :
    whenReservedZero op resv s (complete op .ok u) =
      .next (if resv = 0 then endOk op u else endRejected op 0x02#8 s) := by
  by_cases h : resv = 0
  · rw [if_pos h, h, whenReservedZero_zero, complete_ok_eq hop]
  · rw [if_neg h, whenReservedZero_of_ne h]
    exact reject_eq hop rfl s

/-- Settles O25: both commands are `loopReset`, RESET_LOOP behind the reserved-bit check. -/
theorem loopResetCommandsResult : Obligations.LoopResetCommandsResult := by
  unfold Obligations.LoopResetCommandsResult
  intro resv fcv s cleared
  exact ⟨whenReservedZero_complete_ok (by decide) resv s cleared, complete_ok_eq (by decide) cleared⟩

/-- Settles O26: the preset is stored behind the reserved-bit check. -/
theorem setBandwidthResult : Obligations.SetBandwidthResult := by
  unfold Obligations.SetBandwidthResult
  exact fun resv p s => whenReservedZero_complete_ok (by decide) resv s _

theorem exec_correctInversion_of_angle {rot : BitVec 2} {r : F32} (h : rotationAngle rot = some r)
    (s : State) :
    exec (.correctInversion 0 rot) s =
      .next (endOk 0x06#8 { s with loop := inversionStep s.rate.sps r s.loop }) := by
  show execCorrectInversion 0 rot s = _
  rw [execCorrectInversion, whenReservedZero_zero, h]
  exact complete_ok_eq (by decide) _

theorem exec_correctInversion_rejected {resv : BitVec 22} {rot : BitVec 2} (h : resv ≠ 0 ∨ rot = 0)
    (s : State) :
    exec (.correctInversion resv rot) s = .next (endRejected 0x06#8 0x02#8 s) := by
  have rejected : reject 0x06#8 .badArg s = .next (endRejected 0x06#8 0x02#8 s) :=
    reject_eq (by decide) rfl s
  show execCorrectInversion resv rot s = _
  by_cases hzero : resv = 0
  · obtain rfl : rot = 0 := h.resolve_left (not_not_intro hzero)
    rw [execCorrectInversion, hzero, whenReservedZero_zero]
    exact rejected
  · rw [execCorrectInversion, whenReservedZero_of_ne hzero, rejected]

/-- Settles O27: the three rotation codes have an angle, and Q = 0 has none. -/
theorem correctInversionResult : Obligations.CorrectInversionResult := by
  unfold Obligations.CorrectInversionResult
  intro s corrected
  exact ⟨exec_correctInversion_of_angle rfl s, exec_correctInversion_of_angle rfl s,
    exec_correctInversion_of_angle rfl s, fun _ _ h => exec_correctInversion_rejected h s⟩

end Sys2Proof.Machine
end

section
/-! PROOFS. Bounds of rounded results: finite values within a symmetric bound, the step from one binary32
value to the next, and the error of one rounding near 1. With them the phase error's bound (rule R204). -/

namespace Sys2Proof.Machine

open Sys2Proof.Safety

/-! ## Values within a bound -/

theorem fValue_le_of_fLe {a b : F32} (h : fLe a b = true) : fValue a ≤ fValue b := by
  obtain ⟨ha, hb⟩ := isNaN_of_fLe h
  exact (fLe_iff ha hb).1 h

theorem fValue_lt_of_fLt {a b : F32} (h : fLt a b = true) : fValue a < fValue b := by
  obtain ⟨ha, hb⟩ := isNaN_of_fLt h
  exact (fLt_iff ha hb).1 h

/-- A finite value of magnitude at most `b`. -/
def FinWithin (b : ℚ) (x : F32) : Prop := isFinite x = true ∧ |fValue x| ≤ b

theorem FinWithin.of_fLe {c x : F32} (hc : isFinite c = true) (lo : fLe (fNeg c) x = true)
    (hi : fLe x c = true) : FinWithin (fValue c) x := by
  have hlo := fValue_le_of_fLe lo
  rw [fValue_fNeg] at hlo
  exact ⟨isFinite_of_between (by simpa using hc) hc lo hi, abs_le.2 ⟨hlo, fValue_le_of_fLe hi⟩⟩

/-- A zero is within every bound. -/
theorem FinWithin.of_isZero {b : ℚ} (hb : 0 ≤ b) {x : F32} (h : isZero x = true) : FinWithin b x := by
  refine ⟨?_, by simpa [(fValue_eq_zero_iff x).2 h] using hb⟩
  simp only [isZero, isFinite, decide_eq_true_eq] at h ⊢
  omega

theorem fAdd_finWithin {a b c : F32} (ha : isFinite a = true) (hb : isFinite b = true)
    (hc : isFinite c = true) (h : |fValue a + fValue b| ≤ fValue c) :
    FinWithin (fValue c) (fAdd a b) := by
  obtain ⟨lo, hi⟩ := abs_le.1 h
  exact .of_fLe hc (le_fAdd ha hb (by simpa using hc) (by simpa using lo)) (fAdd_le ha hb hc hi)

theorem fSub_finWithin {a b c : F32} (ha : isFinite a = true) (hb : isFinite b = true)
    (hc : isFinite c = true) (h : |fValue a - fValue b| ≤ fValue c) :
    FinWithin (fValue c) (fSub a b) :=
  fAdd_finWithin ha (by simpa using hb) hc (by simpa [← sub_eq_add_neg] using h)

theorem fMul_finWithin {a b c : F32} (ha : isFinite a = true) (hb : isFinite b = true)
    (hc : isFinite c = true) (h : |fValue a * fValue b| ≤ fValue c) :
    FinWithin (fValue c) (fMul a b) := by
  obtain ⟨lo, hi⟩ := abs_le.1 h
  exact .of_fLe hc (le_fMul ha hb (by simpa using hc) (by simpa using lo)) (fMul_le ha hb hc hi)

theorem fDiv_finWithin {a b c : F32} (ha : isFinite a = true) (hb : isFinite b = true)
    (hz : isZero b = false) (hc : isFinite c = true) (h : |fValue a / fValue b| ≤ fValue c) :
    FinWithin (fValue c) (fDiv a b) := by
  obtain ⟨lo, hi⟩ := abs_le.1 h
  exact .of_fLe hc (le_fDiv ha hb hz (by simpa using hc) (by simpa using lo)) (fDiv_le ha hb hz hc hi)

/-- A factor of magnitude at most 1 takes a value of magnitude at most 1 to another. -/
theorem fMul_finWithin_one {a b : F32} (ha : FinWithin 1 a) (hb : FinWithin 1 b) :
    FinWithin 1 (fMul a b) := by
  obtain ⟨hfa, ha⟩ := ha
  obtain ⟨hfb, hb⟩ := hb
  rw [← fValue_fOne]
  refine fMul_finWithin hfa hfb (by decide) ?_
  rw [abs_mul, fValue_fOne]
  exact mul_le_one₀ ha (abs_nonneg _) hb

/-! ## Operations on infinities and NaN -/

/-- A sum with an infinity is infinite, or a NaN for infinities of opposite signs. -/
theorem fAdd_of_isInf {a b : F32} (h : isInf a = true ∨ isInf b = true) :
    isNaN (fAdd a b) = true ∨ isInf (fAdd a b) = true := by
  unfold fAdd
  split
  · exact .inl (by decide)
  · split
    · next ha =>
      split
      · exact .inl (by decide)
      · exact .inr ha
    · next ha =>
      have hb : isInf b = true := h.resolve_left ha
      rw [if_pos hb]
      exact .inr hb

theorem isInf_fAdd_of_sign_eq {a b : F32} (h : isInf a = true ∨ isInf b = true)
    (ha : isNaN a = false) (hb : isNaN b = false) (hs : fSign a = fSign b) :
    isInf (fAdd a b) = true := by
  cases hia : isInf a with
  | true => simp [fAdd, ha, hb, hia, hs]
  | false =>
    have hib : isInf b = true := h.resolve_left (by simp [hia])
    simp [fAdd, ha, hb, hia, hib]

theorem fSub_of_isNaN {a b : F32} (h : isNaN a = true ∨ isNaN b = true) : fSub a b = qNaN := by
  rcases h with h | h <;> simp [fSub, fAdd, h]

theorem fMul_of_isNaN {a b : F32} (h : isNaN b = true) : fMul a b = qNaN := by simp [fMul, h]

theorem fDiv_of_isNaN {a b : F32} (h : isNaN a = true ∨ isNaN b = true) : fDiv a b = qNaN := by
  rcases h with h | h <;> simp [fDiv, h]

theorem fDiv_of_isInf {a b : F32} (ha : isInf a = true) (hb : isInf b = true) : fDiv a b = qNaN := by
  simp [fDiv, ha, hb]

theorem fDiv_of_isZero {a b : F32} (ha : isZero a = true) (hb : isZero b = true) : fDiv a b = qNaN := by
  have hfin : ∀ {x : F32}, isZero x = true → isInf x = false := by
    intro x h
    simp only [isZero, isInf, decide_eq_true_eq, decide_eq_false_iff_not] at *
    omega
  simp [fDiv, ha, hb, hfin ha, hfin hb]

/-- A finite value divided by an infinity is a zero. -/
theorem isZero_fDiv_of_isInf {a b : F32} (ha : isFinite a = true) (hb : isInf b = true) :
    isZero (fDiv a b) = true := by
  have hnb : isNaN b = false := by rcases class_cases b with c | c | c <;> simp_all
  have hzero : ∀ n, isZero (fPack n 0) = true := by decide
  simp [fDiv, isNaN_of_finite ha, isInf_of_finite ha, hnb, hb, hzero]

/-! ## The phase error -/

/-- The quotient of the phase detector, before the quadrant's sign (rule R204). -/
def phaseRatio (d : Cplx) : F32 :=
  fDiv (fSub (fAbs d.im) (fAbs d.re)) (fAdd (fAbs d.re) (fAbs d.im))

theorem phaseError_eq (d : Cplx) :
    phaseError d = nan0 (fMul (fMul (fSgn d.re) (fSgn d.im)) (phaseRatio d)) := rfl

/-- A finite value divided by a number of no smaller magnitude: 0 / 0, or of magnitude at most 1. -/
theorem fDiv_of_abs_le {a b : F32} (ha : isFinite a = true) (hb : isNaN b = false)
    (h : |fValue a| ≤ fValue b) : fDiv a b = qNaN ∨ FinWithin 1 (fDiv a b) := by
  have hb0 : 0 ≤ fValue b := (abs_nonneg _).trans h
  rcases class_cases b with ⟨hfin, -⟩ | ⟨-, hinf, -⟩ | ⟨-, -, hnan⟩
  · cases hz : isZero b with
    | true =>
      rw [(fValue_eq_zero_iff b).2 hz] at h
      have ha0 : fValue a = 0 := abs_eq_zero.1 (le_antisymm h (abs_nonneg _))
      exact .inl (fDiv_of_isZero ((fValue_eq_zero_iff a).1 ha0) hz)
    | false =>
      right
      rw [← fValue_fOne]
      refine fDiv_finWithin ha hfin hz (by decide) ?_
      rw [abs_div, abs_of_nonneg hb0, fValue_fOne]
      exact div_le_one_of_le₀ h hb0
  · exact .inr (.of_isZero zero_le_one (isZero_fDiv_of_isInf ha hinf))
  · exact absurd (hb.symm.trans hnan) (by decide)

/-- For values that are not negative, the rounded difference is finite and no greater than the rounded sum,
which may overflow: the one lies between the values, and the other above both. -/
theorem abs_fSub_le_fAdd {x y : F32} (hx : isFinite x = true) (hy : isFinite y = true)
    (hx0 : 0 ≤ fValue x) (hy0 : 0 ≤ fValue y) :
    isFinite (fSub y x) = true ∧ isNaN (fAdd x y) = false ∧
      |fValue (fSub y x)| ≤ fValue (fAdd x y) := by
  have hnx : isFinite (fNeg x) = true := by simpa using hx
  have hlo : fLe (fNeg x) (fSub y x) = true := le_fSub hy hx hnx (by rw [fValue_fNeg]; linarith)
  have hhi : fLe (fSub y x) y = true := fSub_le hy hx hy (by linarith)
  have hxsum : fLe x (fAdd x y) = true := le_fAdd hx hy hx (by linarith)
  have hysum : fLe y (fAdd x y) = true := le_fAdd hx hy hy (by linarith)
  obtain ⟨-, hsum⟩ := isNaN_of_fLe hxsum
  refine ⟨isFinite_of_between hnx hy hlo hhi, hsum, abs_le.2 ⟨?_, ?_⟩⟩
  · have h := fValue_le_of_fLe hlo
    rw [fValue_fNeg] at h
    exact (neg_le_neg (fValue_le_of_fLe hxsum)).trans h
  · exact (fValue_le_of_fLe hhi).trans (fValue_le_of_fLe hysum)

/-- For finite parts the numerator is no greater than the denominator. -/
theorem phaseRatio_of_finite {d : Cplx} (hre : isFinite d.re = true) (him : isFinite d.im = true) :
    phaseRatio d = qNaN ∨ FinWithin 1 (phaseRatio d) := by
  obtain ⟨hnum, hden, h⟩ := abs_fSub_le_fAdd (x := fAbs d.re) (y := fAbs d.im) (by simpa using hre)
    (by simpa using him) (by simp) (by simp)
  exact fDiv_of_abs_le hnum hden h

/-- An infinite part makes the denominator infinite, and the numerator infinite or a NaN. -/
theorem phaseRatio_of_isInf {d : Cplx} (h : isInf d.re = true ∨ isInf d.im = true)
    (hre : isNaN d.re = false) (him : isNaN d.im = false) : phaseRatio d = qNaN := by
  have hden : isInf (fAdd (fAbs d.re) (fAbs d.im)) = true :=
    isInf_fAdd_of_sign_eq (by simpa using h) (by simpa using hre) (by simpa using him) (by simp)
  have hnum := fAdd_of_isInf (a := fAbs d.im) (b := fNeg (fAbs d.re)) (by simpa using h.symm)
  rcases hnum with hnan | hinf
  · exact fDiv_of_isNaN (.inl hnan)
  · exact fDiv_of_isInf hinf hden

theorem phaseRatio_cases (d : Cplx) : phaseRatio d = qNaN ∨ FinWithin 1 (phaseRatio d) := by
  have nan (h : isNaN d.re = true ∨ isNaN d.im = true) : phaseRatio d = qNaN := by
    rw [phaseRatio, fSub_of_isNaN (by simpa using h.symm), fDiv_of_isNaN (.inl (by decide))]
  rcases class_cases d.re with ⟨hre, -⟩ | ⟨-, hre, hre'⟩ | ⟨-, -, hre⟩
  · rcases class_cases d.im with ⟨him, -⟩ | ⟨-, him, him'⟩ | ⟨-, -, him⟩
    · exact phaseRatio_of_finite hre him
    · exact .inl (phaseRatio_of_isInf (.inr him) (isNaN_of_finite hre) him')
    · exact .inl (nan (.inr him))
  · cases him : isNaN d.im with
    | false => exact .inl (phaseRatio_of_isInf (.inl hre) hre' him)
    | true => exact .inl (nan (.inr him))
  · exact .inl (nan (.inl hre))

theorem fSgn_cases (x : F32) : fSgn x = fNegOne ∨ fSgn x = fOne := by
  unfold fSgn
  split
  · exact .inl rfl
  · exact .inr rfl

theorem finWithin_fSgn (x : F32) : FinWithin 1 (fSgn x) := by
  rcases fSgn_cases x with h | h <;> rw [h]
  · exact ⟨by decide, by simp⟩
  · exact ⟨by decide, by simp⟩

theorem phaseError_finWithin (d : Cplx) : FinWithin 1 (phaseError d) := by
  rw [phaseError_eq, nan0]
  split
  · exact .of_isZero zero_le_one (by decide)
  · next hnum =>
    rcases phaseRatio_cases d with hnan | hbound
    · exact absurd (by rw [hnan, fMul_of_isNaN (by decide)]; decide) hnum
    · exact fMul_finWithin_one (fMul_finWithin_one (finWithin_fSgn _) (finWithin_fSgn _)) hbound

/-- Settles O50: the quotient is a NaN, which `nan0` takes to +0.0, or of magnitude at most 1. -/
theorem phaseErrorIsBounded : Obligations.PhaseErrorIsBounded := by
  unfold Obligations.PhaseErrorIsBounded
  intro d
  obtain ⟨hfin, habs⟩ := phaseError_finWithin d
  obtain ⟨lo, hi⟩ := abs_le.1 habs
  have hnum := isNaN_of_finite hfin
  exact ⟨hfin, (fLe_iff (by decide) hnum).2 (by simpa using lo),
    (fLe_iff hnum (by decide)).2 (by simpa using hi)⟩

end Sys2Proof.Machine
end

section
/-! PROOFS. The bounds of the loop (rule R207): of its phase, its frequency and its lock metric, each under
the assignments of rules R202, R205 and R215, and of all three under every step. -/

namespace Sys2Proof.Machine

open Sys2Proof.Safety

/-! ## The bounds on values -/

/-- A phase the NCO may hold: finite and in [-PI_F, PI_F). -/
def PhaseBounded (x : F32) : Prop := isFinite x = true ∧ -fValue piF ≤ fValue x ∧ fValue x < fValue piF

/-- A frequency bound below PI_F. -/
def FreqBoundOk (m : F32) : Prop := isFinite m = true ∧ 0 ≤ fValue m ∧ fValue m < fValue piF

/-- A lock metric: finite and in [0, 1]. -/
def LockBounded (x : F32) : Prop := isFinite x = true ∧ 0 ≤ fValue x ∧ fValue x ≤ 1

theorem PhaseBounded.of_fLe {lo x hi : F32} (hlo : fLe lo x = true) (hhi : fLe x hi = true)
    (hflo : isFinite lo = true) (hfhi : isFinite hi = true) (hpi : -fValue piF ≤ fValue lo)
    (hpi' : fValue hi < fValue piF) : PhaseBounded x := by
  exact ⟨isFinite_of_between hflo hfhi hlo hhi, hpi.trans (fValue_le_of_fLe hlo),
    (fValue_le_of_fLe hhi).trans_lt hpi'⟩

theorem freqBoundOk_iff (m : F32) :
    FreqBoundOk m ↔ fLe posZero m = true ∧ fLt m piF = true := by
  constructor
  · rintro ⟨hfin, h0, hpi⟩
    have hm := isNaN_of_finite hfin
    exact ⟨(fLe_iff (by decide) hm).2 (by simpa using h0), (fLt_iff hm (by decide)).2 hpi⟩
  · rintro ⟨h0, hpi⟩
    exact ⟨isFinite_of_between (by decide) (by decide) h0 (fLe_of_fLt hpi),
      by simpa using fValue_le_of_fLe h0, fValue_lt_of_fLt hpi⟩

theorem phaseBounded_iff (x : F32) :
    PhaseBounded x ↔ isFinite x = true ∧ fLe (fNeg piF) x = true ∧ fLt x piF = true := by
  refine and_congr_right fun hfin => and_congr ?_ ?_
  · rw [fLe_iff (by decide) (isNaN_of_finite hfin), fValue_fNeg]
  · rw [fLt_iff (isNaN_of_finite hfin) (by decide)]

theorem lockBounded_iff (x : F32) : LockBounded x ↔ fLe posZero x = true ∧ fLe x fOne = true := by
  constructor
  · rintro ⟨hfin, h0, h1⟩
    have hx := isNaN_of_finite hfin
    exact ⟨(fLe_iff (by decide) hx).2 (by simpa using h0), (fLe_iff hx (by decide)).2 (by simpa using h1)⟩
  · rintro ⟨h0, h1⟩
    exact ⟨isFinite_of_between (by decide) (by decide) h0 h1, by simpa using fValue_le_of_fLe h0,
      by simpa using fValue_le_of_fLe h1⟩

/-- The bounds of rule R207 on the values. -/
theorem loopBounded_iff (l : LoopState) :
    LoopBounded l ↔ PhaseBounded l.phi ∧ FreqBoundOk l.omegaMax ∧
      FinWithin (fValue l.omegaMax) l.omega ∧ LockBounded l.lock := by
  rw [phaseBounded_iff, freqBoundOk_iff, lockBounded_iff]
  constructor
  · rintro ⟨hphi, hlo, hhi, hfin, hom, hmax, h0, h1⟩
    obtain ⟨-, hnm⟩ := isNaN_of_fLe hom
    have habs := fValue_le_of_fLe hom
    rw [fValue_fAbs] at habs
    exact ⟨⟨hphi, hlo, hhi⟩, ⟨(fLe_iff (by decide) hnm).2 (by simpa using (abs_nonneg _).trans habs), hmax⟩,
      ⟨hfin, habs⟩, h0, h1⟩
  · rintro ⟨⟨hphi, hlo, hhi⟩, ⟨hm0, hmax⟩, ⟨hfin, habs⟩, h0, h1⟩
    obtain ⟨-, hnm⟩ := isNaN_of_fLe hm0
    exact ⟨hphi, hlo, hhi, hfin,
      (fLe_iff (by simpa using isNaN_of_finite hfin) hnm).2 (by simpa using habs), hmax, h0, h1⟩

theorem phaseBounded_posZero : PhaseBounded posZero := (phaseBounded_iff _).2 (by decide)
theorem freqBoundOk_posZero : FreqBoundOk posZero := (freqBoundOk_iff _).2 (by decide)
theorem lockBounded_posZero : LockBounded posZero := (lockBounded_iff _).2 (by decide)

/-! ## The phase -/

/-- No value lies between two neighbours. -/
theorem fValue_le_or_le_of_fKey_succ {a b : F32} (h : fKey b = fKey a + 1) (x : F32) :
    fValue x ≤ fValue a ∨ fValue b ≤ fValue x := by
  rw [← fKey_le_iff, ← fKey_le_iff]
  omega

/-- The greatest value below PI_F, and the least one above. -/
def piPred : F32 := 0x40490FDA#32
def piSucc : F32 := 0x40490FDC#32

theorem fValue_twoPiF : fValue twoPiF = 2 * fValue piF := by
  have h : fScaled twoPiF = 2 * fScaled piF := by decide
  rw [fValue, fValue, h]
  push_cast
  ring

theorem fValue_piPred_add_piSucc : fValue piPred + fValue piSucc = 2 * fValue piF := by
  have h : fScaled piPred + fScaled piSucc = 2 * fScaled piF := by decide
  simp only [fValue, ← add_div, ← Int.cast_add, h]
  push_cast
  ring

theorem fValue_piPred_lt : fValue piPred < fValue piF :=
  fValue_lt_of_fLt (by decide)

theorem one_le_fValue_piF : 1 ≤ fValue piF := by
  simpa using fValue_le_of_fLe (a := fOne) (b := piF) (by decide)

/-- One wrap takes a sum of magnitude at most TWO_PI_F back to [-PI_F, PI_F). From below -PI_F the sum with
TWO_PI_F stays below PI_F because the next value below -PI_F is already a whole unit away. -/
theorem phaseBounded_fWrap {x : F32} (h : FinWithin (fValue twoPiF) x) : PhaseBounded (fWrap x) := by
  obtain ⟨hfin, habs⟩ := h
  obtain ⟨hlo, hhi⟩ := abs_le.1 habs
  have hx := isNaN_of_finite hfin
  have hpi : 0 < fValue piF := zero_lt_one.trans_le one_le_fValue_piF
  rw [fValue_twoPiF] at hlo hhi
  unfold fWrap
  split
  · next hge =>
    have hge := fValue_le_of_fLe hge
    exact .of_fLe (lo := fNeg piF) (hi := posZero)
      (le_fSub hfin (by decide) (by decide) (by rw [fValue_fNeg, fValue_twoPiF]; linarith))
      (fSub_le hfin (by decide) (by decide) (by rw [fValue_posZero, fValue_twoPiF]; linarith))
      (by decide) (by decide) (by simp) (by simpa using hpi)
  · next hge =>
    split
    · next hlt =>
      have hlt := fValue_lt_of_fLt hlt
      rw [fValue_fNeg] at hlt
      have hstep : fValue x ≤ -fValue piSucc := by
        have hnext := fValue_le_or_le_of_fKey_succ (a := fNeg piSucc) (b := fNeg piF) (by decide) x
        rw [fValue_fNeg, fValue_fNeg] at hnext
        exact hnext.resolve_right (not_le.2 hlt)
      have hsum := fValue_piPred_add_piSucc
      exact .of_fLe (lo := posZero) (hi := piPred)
        (le_fAdd hfin (by decide) (by decide) (by rw [fValue_posZero, fValue_twoPiF]; linarith))
        (fAdd_le hfin (by decide) (by decide) (by rw [fValue_twoPiF]; linarith))
        (by decide) (by decide) (by simpa using hpi.le) fValue_piPred_lt
    · next hlt =>
      rw [fLe_iff (by decide) hx, not_le] at hge
      rw [fLt_iff hx (by decide), fValue_fNeg, not_lt] at hlt
      exact ⟨hfin, hlt, hge⟩

/-- A phase advanced by at most PI_F and wrapped is a phase (rules R202, R205). -/
theorem phaseBounded_advance {phi w : F32} (hphi : PhaseBounded phi) (hw : FinWithin (fValue piF) w) :
    PhaseBounded (fWrap (fAdd phi w)) := by
  obtain ⟨hfp, hlo, hhi⟩ := hphi
  obtain ⟨hfw, hw⟩ := hw
  obtain ⟨hwlo, hwhi⟩ := abs_le.1 hw
  refine phaseBounded_fWrap (fAdd_finWithin hfp hfw (by decide) (abs_le.2 ?_))
  rw [fValue_twoPiF]
  exact ⟨by linarith, by linarith⟩

/-! ## The frequency -/

theorem isNaN_fAdd_of_finite {a b : F32} (ha : isFinite a = true) (hb : isNaN b = false) :
    isNaN (fAdd a b) = false := by
  rcases class_cases b with ⟨hfb, -⟩ | ⟨-, hib, -⟩ | ⟨-, -, hnb⟩
  · rcases fAdd_finite ha hfb with ⟨-, hz⟩ | ⟨n, num, -, hr⟩
    · exact isNaN_of_isZero hz
    · rw [hr, isNaN_fRound]
  · simp [fAdd, isNaN_of_finite ha, isInf_of_finite ha, hib, hb]
  · exact absurd (hb.symm.trans hnb) (by decide)

/-- A sign before the bits of a magnitude up to infinity makes a number. -/
theorem isNaN_fPack_of_le {n : Bool} {b : Nat} (hb : b ≤ 0x7F800000) : isNaN (fPack n b) = false := by
  rw [isNaN, fMagBits_fPack (by omega)]
  exact decide_eq_false (by omega)

/-- A finite value that is not zero divided by a number, infinity or zero included, is a number. -/
theorem isNaN_fDiv_of_finite {a b : F32} (ha : isFinite a = true) (hz : isZero a = false)
    (hb : isNaN b = false) : isNaN (fDiv a b) = false := by
  unfold fDiv
  simp only [isNaN_of_finite ha, isInf_of_finite ha, hz, hb, Bool.or_self, Bool.false_eq_true, if_false]
  split
  · exact isNaN_fPack_of_le (Nat.zero_le _)
  · split
    · exact isNaN_fPack_of_le le_rfl
    · exact isNaN_fRound _ _ _

/-- A clamped number lies within the frequency bound (rules R205, R215). -/
theorem finWithin_clampOmega {l : LoopState} (hm : FreqBoundOk l.omegaMax) {x : F32}
    (hx : isNaN x = false) : FinWithin (fValue l.omegaMax) (clampOmega l x) := by
  obtain ⟨hfin, h0, -⟩ := hm
  have hn := isNaN_of_finite hfin
  obtain ⟨hlo, hhi⟩ := fClamp_mem (x := x) hx
    ((fLe_iff (by simpa using hn) hn).2 (by rw [fValue_fNeg]; linarith) :
      fLe (fNeg l.omegaMax) l.omegaMax = true)
  exact .of_fLe hfin hlo hhi

theorem rotationAngle_finite {rot : BitVec 2} {r : F32} (h : rotationAngle rot = some r) :
    isFinite r = true ∧ isZero r = false := by
  unfold rotationAngle at h
  split at h <;> cases h <;> decide

/-! ## The lock metric -/

/-- A multiple of 2^-24 up to 1 is a binary32 value. -/
theorem exists_fValue_eq {n : Nat} (hn : n ≤ 2 ^ 24) :
    ∃ y, isFinite y = true ∧ fValue y = n / 2 ^ 24 := by
  obtain ⟨b, hb, hm⟩ := exists_magOf_eq (e := 125) hn (by decide)
  obtain ⟨hfin, hval⟩ := fRound_exact (n := false) Nat.one_pos
    (show b < 0x7F800000 by omega) (show n * 2 ^ 125 = magOf b * 1 by rw [hm, Nat.mul_one])
  refine ⟨_, hfin, hval.trans ?_⟩
  simp only [exactValue, Bool.false_eq_true, if_false, Nat.cast_mul, Nat.cast_pow, Nat.cast_ofNat,
    Nat.cast_one, div_one]
  field_simp

/-- In [0, 1] a rounding errs by at most half a unit in the last place below 1. -/
theorem abs_sub_le_of_roundsTo {r : F32} {q : ℚ} (h : RoundsTo r q) (h0 : 0 ≤ q) (h1 : q ≤ 1) :
    |fValue r - q| ≤ 1 / 2 ^ 25 := by
  obtain ⟨-, hnear⟩ := h.1 (by rw [abs_of_nonneg h0]; exact h1.trans_lt (by norm_num [overflowBound]))
  -- the nearest multiple of 2^-24 is no farther away than that
  obtain ⟨n, hn⟩ : ∃ n, n = ⌊q * 2 ^ 24 + 1 / 2⌋₊ := ⟨_, rfl⟩
  have hlo : (n : ℚ) ≤ q * 2 ^ 24 + 1 / 2 := hn ▸ Nat.floor_le (by positivity)
  have hhi : q * 2 ^ 24 + 1 / 2 < n + 1 := hn ▸ Nat.lt_floor_add_one _
  have hle : n ≤ 2 ^ 24 := by
    have : (n : ℚ) < 2 ^ 24 + 1 := by linarith
    exact Nat.lt_succ_iff.1 (by exact_mod_cast this)
  obtain ⟨y, hy, hval⟩ := exists_fValue_eq hle
  obtain ⟨hdist, -⟩ := hnear y hy
  refine hdist.trans ?_
  rw [hval, abs_le]
  constructor
  · rw [le_sub_iff_add_le, le_div_iff₀ (by positivity)]; linarith
  · rw [sub_le_iff_le_add, div_le_iff₀ (by positivity)]; linarith

/-- What exceeds 1 by less than half a unit in the last place rounds to 1 at most. -/
theorem le_one_of_roundsTo {r : F32} {q : ℚ} (h : RoundsTo r q) (h0 : 0 ≤ q) (h1 : q < 1 + 1 / 2 ^ 24) :
    fValue r ≤ 1 := by
  obtain ⟨-, hnear⟩ := h.1 (by
    rw [abs_of_nonneg h0]; exact h1.trans (by norm_num [overflowBound]))
  obtain ⟨hdist, -⟩ := hnear fOne (by decide)
  have hsucc : fValue 0x3F800001#32 = 1 + 1 / 2 ^ 23 := by
    have : fScaled 0x3F800001#32 = 2 ^ 149 + 2 ^ 126 := by decide
    rw [fValue, this]
    norm_num
  have hnext := fValue_le_or_le_of_fKey_succ (a := fOne) (b := 0x3F800001#32) (by decide) r
  rw [fValue_fOne, hsucc] at hnext
  rw [fValue_fOne] at hdist
  refine hnext.resolve_right fun hgt => ?_
  have hfar : fValue r - q ≤ |1 - q| := (le_abs_self _).trans hdist
  rcases abs_cases (1 - q) with ⟨habs, -⟩ | ⟨habs, -⟩
  · linarith
  · linarith

theorem LockBounded.finWithin {x : F32} (h : LockBounded x) : FinWithin 1 x := by
  obtain ⟨hfin, h0, h1⟩ := h
  exact ⟨hfin, abs_le.2 ⟨by linarith, h1⟩⟩

theorem fSub_finWithin_one {a l : F32} (ha : LockBounded a) (hl : LockBounded l) :
    FinWithin 1 (fSub a l) := by
  obtain ⟨hfa, ha0, ha1⟩ := ha
  obtain ⟨hfl, hl0, hl1⟩ := hl
  rw [← fValue_fOne]
  exact fSub_finWithin hfa hfl (by decide)
    (by rw [fValue_fOne]; exact abs_le.2 ⟨by linarith, by linarith⟩)

/-- The weighted step takes away no more than the metric has. -/
theorem lockStep_ge {k a l : F32} (hk : LockBounded k) (ha : LockBounded a) (hl : LockBounded l) :
    -fValue l ≤ fValue (fMul k (fSub a l)) := by
  obtain ⟨hfd, -⟩ := fSub_finWithin_one ha hl
  obtain ⟨hfk, hk0, hk1⟩ := hk
  obtain ⟨hfa, ha0, -⟩ := ha
  obtain ⟨hfl, hl0, -⟩ := hl
  have hnl : isFinite (fNeg l) = true := by simpa using hfl
  have hdiff := fValue_le_of_fLe
    (le_fSub (c := fNeg l) hfa hfl hnl (by rw [fValue_fNeg]; linarith))
  rw [fValue_fNeg] at hdiff
  have hstep := fValue_le_of_fLe
    (le_fMul (c := fNeg l) hfk hfd hnl (by rw [fValue_fNeg]; nlinarith))
  rwa [fValue_fNeg] at hstep

/-- The weighted step adds no more than what is left up to 1 and the error of the difference's rounding. -/
theorem lockStep_le {k a l : F32} (hk : LockBounded k) (ha : LockBounded a) (hl : LockBounded l) :
    fValue (fMul k (fSub a l)) ≤ 1 - fValue l + 1 / 2 ^ 25 := by
  obtain ⟨hfd, -⟩ := fSub_finWithin_one ha hl
  obtain ⟨hfk, hk0, hk1⟩ := hk
  obtain ⟨hfa, ha0, ha1⟩ := ha
  obtain ⟨hfl, hl0, hl1⟩ := hl
  rcases le_total (fValue l) (fValue a) with hla | hla
  · have herr := abs_sub_le_of_roundsTo (fSub_roundsTo hfa hfl) (by linarith) (by linarith)
    have hdiff := fValue_le_of_fLe
      (le_fSub (c := posZero) hfa hfl (by decide) (by rw [fValue_posZero]; linarith))
    rw [fValue_posZero] at hdiff
    have hstep := fValue_le_of_fLe (fMul_le hfk hfd hfd (by nlinarith))
    obtain ⟨-, herr⟩ := abs_le.1 herr
    linarith
  · have hdiff := fValue_le_of_fLe
      (fSub_le (c := posZero) hfa hfl (by decide) (by rw [fValue_posZero]; linarith))
    rw [fValue_posZero] at hdiff
    have hstep := fValue_le_of_fLe
      (fMul_le (c := posZero) hfk hfd (by decide) (by rw [fValue_posZero]; nlinarith))
    rw [fValue_posZero] at hstep
    linarith

/-- The lock metric's average (rule R205): a rounded step towards a value of [0, 1] leaves [0, 1] at neither
end. Above, what the difference gains by its rounding is too little to count in the sum. -/
theorem lockBounded_update {k a l : F32} (hk : LockBounded k) (ha : LockBounded a) (hl : LockBounded l) :
    LockBounded (fAdd l (fMul k (fSub a l))) := by
  have hge := lockStep_ge hk ha hl
  have hle := lockStep_le hk ha hl
  obtain ⟨hfp, -⟩ := fMul_finWithin_one hk.finWithin (fSub_finWithin_one ha hl)
  obtain ⟨hfl, -, -⟩ := hl
  have hlow := le_fAdd (c := posZero) hfl hfp (by decide) (by rw [fValue_posZero]; linarith)
  have hhigh := le_one_of_roundsTo (fAdd_roundsTo hfl hfp) (by linarith) (by linarith)
  obtain ⟨-, hnum⟩ := isNaN_of_fLe hlow
  exact (lockBounded_iff _).2 ⟨hlow, (fLe_iff hnum (by decide)).2 (by simpa using hhigh)⟩

end Sys2Proof.Machine
end

section
/-! PROOFS. Every step keeps the loop bounded (rule R207): the parameters' gains, the loop's assignments,
configuration, and the demodulator over a block. -/

namespace Sys2Proof.Machine

open Sys2Proof.Safety

/-! ## The parameters -/

theorem perPreset_of_allPresets {f : F32 → Bool} {g : Config.PerPreset} (h : allPresets f g = true)
    (p : BitVec 2) : f (perPreset g p) = true := by
  simp only [allPresets, Bool.and_eq_true] at h
  obtain ⟨⟨⟨h0, h1⟩, h2⟩, h3⟩ := h
  unfold perPreset
  split
  · exact h0
  · exact h1
  · exact h2
  · exact h3

theorem loopParams_of_paramsOk {P : Config.Params} (h : paramsOk P = true) :
    allPresets gainOk P.loopAlpha = true ∧ allPresets gainOk P.loopBeta = true ∧
      weightOk P.lockK = true := by
  simp only [paramsOk, Bool.and_eq_true] at h
  tauto

theorem lockBounded_of_weightOk {x : F32} (h : weightOk x = true) : LockBounded x := by
  simp only [weightOk, Bool.and_eq_true] at h
  obtain ⟨⟨-, h0⟩, h1⟩ := h
  exact (lockBounded_iff x).2 ⟨h0, h1⟩

theorem weightOk_of_gainOk {x : F32} (h : gainOk x = true) : weightOk x = true := by
  simp only [gainOk, weightOk, Bool.and_eq_true] at h ⊢
  exact h.imp_right fLe_of_fLt

/-- A loop gain is of magnitude at most 1 (rule R9). -/
theorem finWithin_gain {g : Config.PerPreset} (h : allPresets gainOk g = true) (p : BitVec 2) :
    FinWithin 1 (perPreset g p) :=
  (lockBounded_of_weightOk (weightOk_of_gainOk (perPreset_of_allPresets h p))).finWithin

/-! ## The loop's assignments -/

theorem loopBounded_ncoAdvance {l : LoopState} (h : LoopBounded l) : LoopBounded (ncoAdvance l) := by
  rw [loopBounded_iff] at h ⊢
  obtain ⟨hphi, hmax, homega, hlock⟩ := h
  obtain ⟨hfin, habs⟩ := homega
  have ⟨_, _, hpi⟩ := hmax
  exact ⟨phaseBounded_advance hphi ⟨hfin, habs.trans hpi.le⟩, hmax, ⟨hfin, habs⟩, hlock⟩

theorem FinWithin.lockBounded_fAbs {x : F32} (h : FinWithin 1 x) : LockBounded (fAbs x) := by
  obtain ⟨hfin, habs⟩ := h
  exact ⟨by simpa using hfin, by simp, by simpa using habs⟩

/-- LoopUpdate by an error of magnitude at most 1 (rule R205). -/
theorem loopBounded_loopUpdate {P : Config.Params} (hP : paramsOk P = true) {e : F32}
    (he : FinWithin 1 e) {l : LoopState} (h : LoopBounded l) : LoopBounded (loopUpdate P e l) := by
  obtain ⟨halpha, hbeta, hk⟩ := loopParams_of_paramsOk hP
  rw [loopBounded_iff] at h ⊢
  obtain ⟨hphi, hmax, ⟨homega, -⟩, hlock⟩ := h
  obtain ⟨hfa, ha⟩ := fMul_finWithin_one (finWithin_gain halpha l.bwCur) he
  obtain ⟨hfb, -⟩ := fMul_finWithin_one (finWithin_gain hbeta l.bwCur) he
  exact ⟨phaseBounded_advance hphi ⟨hfa, ha.trans one_le_fValue_piF⟩, hmax,
    finWithin_clampOmega hmax (isNaN_fAdd_of_finite homega (isNaN_of_finite hfb)),
    lockBounded_update (lockBounded_of_weightOk hk) he.lockBounded_fAbs hlock⟩

/-- LoopReset under any frequency bound below PI_F (rules R208, R211). -/
theorem loopBounded_loopReset (P : Config.Params) {l : LoopState} (hmax : FreqBoundOk l.omegaMax) :
    LoopBounded (loopReset P l) := by
  rw [loopBounded_iff]
  have ⟨_, h0, _⟩ := hmax
  have homega : FinWithin (fValue l.omegaMax) posZero := ⟨by decide, by simpa using h0⟩
  exact ⟨phaseBounded_posZero, hmax, homega, lockBounded_posZero⟩

/-- CORRECT_INVERSION's step for an angle that is not zero, whatever number the samples per symbol are
(rule R215). -/
theorem loopBounded_inversionStep {sps r : F32} (hsps : isNaN sps = false) (hr : isFinite r = true)
    (hr0 : isZero r = false) {l : LoopState} (h : LoopBounded l) :
    LoopBounded (inversionStep sps r l) := by
  rw [loopBounded_iff] at h ⊢
  obtain ⟨hphi, hmax, ⟨homega, -⟩, hlock⟩ := h
  exact ⟨hphi, hmax,
    finWithin_clampOmega hmax (isNaN_fAdd_of_finite homega (isNaN_fDiv_of_finite hr hr0 hsps)), hlock⟩

theorem freqBoundOk_of_loopBounded {l : LoopState} (h : LoopBounded l) : FreqBoundOk l.omegaMax := by
  obtain ⟨-, hmax, -⟩ := (loopBounded_iff l).1 h
  exact hmax

/-! ## Configuration -/

theorem fSign_fPack_of_le {n : Bool} {b : Nat} (hb : b ≤ 0x7F800000) : fSign (fPack n b) = n :=
  fSign_fPack (by omega)

/-- A product that is a number has the sign of its factors. -/
theorem fMul_sign (a b : F32) :
    isNaN (fMul a b) = true ∨ fSign (fMul a b) = (fSign a != fSign b) := by
  unfold fMul
  dsimp only
  split
  · exact .inl (by decide)
  · split
    · split
      · exact .inl (by decide)
      · exact .inr (fSign_fPack_of_le le_rfl)
    · split
      · split
        · exact .inl (by decide)
        · exact .inr (fSign_fPack_of_le le_rfl)
      · exact .inr (fSign_fRound _ _ _)

/-- A quotient that is a number has the sign of its operands. -/
theorem fDiv_sign (a b : F32) :
    isNaN (fDiv a b) = true ∨ fSign (fDiv a b) = (fSign a != fSign b) := by
  unfold fDiv
  dsimp only
  split
  · exact .inl (by decide)
  · split
    · split
      · exact .inl (by decide)
      · exact .inr (fSign_fPack_of_le le_rfl)
    · split
      · exact .inr (fSign_fPack_of_le (Nat.zero_le _))
      · split
        · split
          · exact .inl (by decide)
          · exact .inr (fSign_fPack_of_le le_rfl)
        · exact .inr (fSign_fRound _ _ _)

theorem isNaN_left_of_fDiv {a b : F32} (h : isNaN (fDiv a b) = false) : isNaN a = false := by
  rw [← Bool.not_eq_true] at h ⊢
  exact fun ha => h (by rw [fDiv_of_isNaN (.inl ha)]; decide)

/-- The frequency bound of a valid rate (rules R208, R322). -/
theorem freqBoundOk_omegaMaxFor {P : Config.Params} {rate : Word} (h : rateValid P rate = true) :
    FreqBoundOk (omegaMaxFor P rate) := by
  simp only [rateValid, Bool.and_eq_true] at h
  obtain ⟨-, hlt⟩ := h
  obtain ⟨hnum, -⟩ := isNaN_of_fLt hlt
  have hprod := isNaN_left_of_fDiv hnum
  have hpos : fSign (omegaMaxFor P rate) = false := by
    rw [omegaMaxFor, (fDiv_sign _ _).resolve_left (Bool.not_eq_true _ ▸ hnum),
      (fMul_sign _ _).resolve_left (Bool.not_eq_true _ ▸ hprod)]
    simp only [fOfNat, fSign_fRound]
    decide
  exact (freqBoundOk_iff _).2
    ⟨(fLe_iff (by decide) hnum).2 (by simpa using fValue_nonneg hpos), hlt⟩

/-- Samples per symbol of a valid rate are a number (rule R36). -/
theorem isNaN_sps_of_rateValid {P : Config.Params} {rate : Word} (h : rateValid P rate = true) :
    isNaN (rateFor P rate).sps = false := by
  simp only [rateValid, Bool.and_eq_true, decide_eq_true_eq] at h
  obtain ⟨⟨⟨⟨hlo, hhi⟩, -⟩, -⟩, -⟩ := h
  obtain ⟨hfin, hval⟩ := smallIntegersConvertExactly rate.toNat hhi
  have hzero : isZero (fOfNat rate.toNat) = false := by
    rw [← Bool.not_eq_true, ← fValue_eq_zero_iff, hval]
    exact_mod_cast (Nat.pos_of_ne_zero (by omega)).ne'
  exact isNaN_fDiv_of_finite hfin hzero (isNaN_fRound _ _ _)

theorem loopOk_hardReset {s : State} (h : paramsOk s.params = true) : LoopOk (hardReset s) :=
  ⟨h, rfl, loopBounded_loopReset s.params (l := (hardReset s).loop) freqBoundOk_posZero⟩

/-- A configuration that succeeds resets the loop under the frequency bound of its rate. -/
theorem loopOk_configured {rate : Word} {s t : State} (h : LoopOk s)
    (hc : configure rate s = (t, true)) : LoopOk t := by
  obtain ⟨hparams, -, -⟩ := h
  obtain ⟨hr, v, c, rfl, -⟩ := configure_eq_true hc
  exact ⟨hparams, isNaN_sps_of_rateValid hr,
    loopBounded_loopReset s.params (l := { s.loop with omegaMax := _ }) (freqBoundOk_omegaMaxFor hr)⟩

theorem loopOk_configFailed {rate : Word} {s t : State} (h : LoopOk s)
    (hc : configure rate s = (t, false)) : LoopOk (configFail t) := by
  obtain ⟨n, rfl⟩ := configure_eq_false hc
  exact h

theorem loopOk_resetRelease {s : State} (h : LoopOk s) : LoopOk (resetRelease s) := by
  unfold resetRelease
  split
  · next t hc =>
    have ht : LoopOk t := loopOk_configured h hc
    exact ht
  · next t hc =>
    have ht : LoopOk (configFail t) := loopOk_configFailed h hc
    exact ht

/-! ## Symbol processing -/

theorem deliverBuffer_loop (bytes : List Byte) (s : State) : (deliverBuffer bytes s).loop = s.loop := by
  rw [deliverBuffer_eq]

theorem finishBuffer_loop (s : State) : (finishBuffer s).loop = s.loop := by
  unfold finishBuffer
  split
  · exact deliverBuffer_loop _ s
  · rfl

theorem flushBuffer_loop (s : State) : (flushBuffer s).loop = s.loop := by
  unfold flushBuffer
  split
  · exact deliverBuffer_loop _ s
  · rfl

theorem deliver_loop (d : Dibit) (s : State) (c : Consumer) : (deliver d s c).loop = s.loop := by
  cases c with
  | asm =>
    unfold deliver packDibit
    dsimp only
    split
    · exact finishBuffer_loop _
    · rfl
  | framer => rfl
  | tap id => rfl

theorem distribute_loop (d : Dibit) (s : State) : (distribute d s).loop = s.loop :=
  distribute_keeps (I := fun t => t.loop = s.loop) (fun c t h => (deliver_loop d t c).trans h) rfl

/-- Symbol processing keeps the parameters and the rate, so the loop's own bounds are all it can spoil. -/
theorem SymbolFrame.loopOk {s t : State} (hf : SymbolFrame s t) (h : LoopOk s)
    (hl : LoopBounded t.loop) : LoopOk t := by
  obtain ⟨hparams, hsps, -⟩ := h
  exact ⟨hf.params ▸ hparams, hf.rate ▸ hsps, hl⟩

theorem loopOk_strobePass {s : State} (h : LoopOk s) (z : Cplx) : LoopOk (strobePass z s) := by
  refine (strobePass_frame z s).loopOk h ?_
  obtain ⟨hparams, -, hloop⟩ := h
  unfold strobePass
  dsimp only
  split
  · exact hloop
  · rw [symbolStep_eq]
    show LoopBounded (distribute _ _).loop
    rw [distribute_loop]
    exact loopBounded_loopUpdate hparams (phaseError_finWithin _) hloop

theorem loopOk_demodSample {s : State} (h : LoopOk s) (a : Cplx) : LoopOk (demodSample s a) := by
  refine (demodSample_frame s a).loopOk h ?_
  obtain ⟨-, -, hloop⟩ :=
    strobeLoop_keeps (I := LoopOk) (fun _ h => loopOk_strobePass h (derotate s.loop.phi a)) strobeBound h
  exact loopBounded_ncoAdvance hloop

theorem loopOk_demodBlock {s : State} (h : LoopOk s) (as : List Cplx) : LoopOk (demodBlock s as) :=
  demodBlock_keeps (I := LoopOk) (fun _ a h => loopOk_demodSample h a) as h

/-! ## Every step -/

theorem CommandEffect.loopOk {i : Instr} {s u : State} (hu : CommandEffect s i u) (h : LoopOk s) :
    LoopOk u := by
  have ⟨hparams, hsps, hloop⟩ := h
  cases hu with
  | @block ts xs _ _ _ =>
    rw [datapath_eq_demodBlock]
    exact loopOk_demodBlock (s := beforeDemod xs (acceptTime ts s)) h _
  | configFailed hc => exact loopOk_configFailed h hc
  | configured hc => exact loopOk_configured h hc
  | frequencyCorrected | loopCleared =>
    exact ⟨hparams, hsps, loopBounded_loopReset s.params (freqBoundOk_of_loopBounded hloop)⟩
  | inversionCorrected hangle =>
    obtain ⟨hr, hr0⟩ := rotationAngle_finite hangle
    exact ⟨hparams, hsps, loopBounded_inversionStep hsps hr hr0 hloop⟩
  | flushed => exact (flushed_frame s).loopOk h ((flushBuffer_loop s).symm ▸ hloop)
  | _ => exact h

/-- Settles O18, by the four kinds of step and the effect of each command. -/
theorem everyStepKeepsLoopBounded : Obligations.EveryStepKeepsLoopBounded := by
  unfold Obligations.EveryStepKeepsLoopBounded
  intro s t h hstep
  rcases step_cases hstep with ⟨-, ws, tr, rfl⟩ | ⟨-, -, -, rfl⟩ | ⟨-, -, i, rest, -, he⟩ | ⟨-, -, -, rfl⟩
  · obtain ⟨hparams, -⟩ := h
    exact loopOk_hardReset hparams
  · exact loopOk_resetRelease h
  · obtain ⟨op, st, u, rfl, hu⟩ := exec_effect he
    exact hu.loopOk h
  · exact h

end Sys2Proof.Machine
end

section
/-! PROOFS. The slicer (rule R250), what the distribution of a dibit changes, and the symbol step (rule
R245). -/

namespace Sys2Proof.Machine

open Sys2Proof.Safety

/-! ## The slicer -/

/-- Below +0.0 lie the numbers with a sign that are not zero (rule R12). -/
theorem fLt_posZero_iff (x : F32) :
    fLt x posZero = true ↔ isNaN x = false ∧ fSign x = true ∧ isZero x = false := by
  have hkey : fKey x < fKey posZero ↔ fSign x = true ∧ isZero x = false := by
    have hzero : fKey posZero = 0 := by decide
    rw [hzero, fKey, isZero]
    cases fSign x with
    | false => simp
    | true => simp; omega
  have hnum : isNaN posZero = false := by decide
  simp [fLt, hnum, hkey]

/-- Settles O51: each bit of the dibit is one comparison with +0.0. -/
theorem slicerMap : Obligations.SlicerMap := by
  unfold Obligations.SlicerMap
  intro d
  simp only [slice, fLt_posZero_iff]
  split <;> split <;> rfl

/-! ## The distribution of a dibit -/

theorem finishBuffer_eq (s : State) :
    finishBuffer s = { s with asm := (finishBuffer s).asm, trace := (finishBuffer s).trace } := by
  unfold finishBuffer
  split
  · rw [deliverBuffer_eq]
  · rfl

/-- A delivery changes the assembler and the trace only (rule R280). -/
theorem deliver_eq (d : Dibit) (s : State) (c : Consumer) :
    deliver d s c = { s with asm := (deliver d s c).asm, trace := (deliver d s c).trace } := by
  cases c with
  | asm =>
    simp only [deliver, packDibit]
    split
    · exact finishBuffer_eq _
    · rfl
  | framer => rfl
  | tap id => rfl

/-- So does the distribution to all consumers. -/
theorem distribute_eq (d : Dibit) (s : State) :
    distribute d s = { s with asm := (distribute d s).asm, trace := (distribute d s).trace } :=
  distribute_keeps (I := fun t => t = { s with asm := t.asm, trace := t.trace })
    (fun c t h => (deliver_eq d t c).trans
      (congrArg (fun u : State => { u with asm := (deliver d t c).asm, trace := (deliver d t c).trace }) h))
    rfl

theorem distribute_timing (d : Dibit) (s : State) : (distribute d s).timing = s.timing := by
  rw [distribute_eq]

theorem distribute_dibitCount (d : Dibit) (s : State) :
    (distribute d s).dibitCount = s.dibitCount := by
  rw [distribute_eq]

/-! ## The symbol step -/

/-- Settles O52: the step distributes the updated state, and distribution keeps timing, loop and count. -/
theorem symbolStepResult : Obligations.SymbolStepResult := by
  unfold Obligations.SymbolStepResult
  intro y s
  exact ⟨rfl, distribute_timing _ (symbolUpdate y s), distribute_loop _ (symbolUpdate y s),
    distribute_dibitCount _ (symbolUpdate y s)⟩

end Sys2Proof.Machine
end

section
/-! PROOFS. The framer gets every dibit (rules R253, R254, R281): the dibits counted less the framer
records on the trace never change. -/

namespace Sys2Proof.Machine

open Sys2Proof.Safety

/-! ## Framer records -/

theorem framerPort_append (a b : List Record) : framerPort (a ++ b) = framerPort a ++ framerPort b :=
  List.filterMap_append

theorem framerPort_deliverBuffer (bytes : List Byte) (s : State) :
    framerPort (deliverBuffer bytes s).trace = framerPort s.trace := by
  have hbuf (ids : List Byte) : framerPort (ids.map fun id => .buf id bytes) = [] := by
    simp [framerPort, recordFramer]
  rw [deliverBuffer_eq]
  exact (framerPort_append _ _).trans (by rw [hbuf, List.append_nil])

/-- A packed dibit reaches the assembler's listeners only. -/
theorem framerPort_packDibit (d : Dibit) (s : State) :
    framerPort (packDibit d s).trace = framerPort s.trace := by
  simp only [packDibit]
  split
  · unfold storeByte finishBuffer
    split
    · exact framerPort_deliverBuffer _ _
    · rfl
  · rfl

/-- One framer record for each entry FRAMER of the registry (rule R281). -/
theorem length_framerPort_deliver (d : Dibit) (s : State) (c : Consumer) :
    (framerPort (deliver d s c).trace).length = (framerPort s.trace).length + [c].count .framer := by
  cases c with
  | asm => exact congrArg List.length (framerPort_packDibit d s)
  | framer => simp [deliver, framerPort, recordFramer]
  | tap id => simp [deliver, framerPort, recordFramer]

theorem length_framerPort_distribute (d : Dibit) (s : State) :
    (framerPort (distribute d s).trace).length =
      (framerPort s.trace).length + s.registry.consumers.count .framer := by
  unfold distribute
  generalize s.registry.consumers = cs
  induction cs generalizing s with
  | nil => rfl
  | cons c cs ih =>
    rw [List.foldl_cons, ih, length_framerPort_deliver, ← List.singleton_append (l := cs),
      List.count_append, Nat.add_assoc]

/-! ## Dibits counted and delivered -/

/-- The dibits counted, less the framer records on the trace, modulo 2^32. -/
def undelivered (s : State) : Word := s.dibitCount - BitVec.ofNat 32 (framerPort s.trace).length

theorem undelivered_symbolStep {s : State} (h : s.registry.consumers.count .framer = 1) (y : Cplx) :
    undelivered (symbolStep y s) = undelivered s := by
  rw [symbolStep_eq, undelivered, distribute_dibitCount, length_framerPort_distribute]
  simp only [symbolUpdate, h, undelivered, BitVec.ofNat_add]
  exact add_sub_add_right_eq_sub _ _ _

/-- The framer stands once in the registry, and `n` dibits are undelivered. -/
structure FramerServed (n : Word) (s : State) : Prop where
  attachedOnce : s.registry.consumers.count .framer = 1
  undelivered_eq : undelivered s = n

theorem framerServed_strobePass {n : Word} {s : State} (h : FramerServed n s) (z : Cplx) :
    FramerServed n (strobePass z s) := by
  refine ⟨(strobePass_frame z s).registry ▸ h.attachedOnce, ?_⟩
  unfold strobePass
  dsimp only
  split
  · exact h.undelivered_eq
  · exact (undelivered_symbolStep h.attachedOnce _).trans h.undelivered_eq

/-- Shifting to the next sample and advancing the NCO count and emit nothing. -/
theorem framerServed_demodSample {n : Word} {s : State} (h : FramerServed n s) (a : Cplx) :
    FramerServed n (demodSample s a) :=
  have hloop := strobeLoop_keeps (I := FramerServed n)
    (fun _ hu => framerServed_strobePass hu (derotate s.loop.phi a)) strobeBound h
  ⟨hloop.attachedOnce, hloop.undelivered_eq⟩

/-- Over a block no dibit is counted that the framer does not get. -/
theorem framerServed_demodBlock {n : Word} {s : State} (h : FramerServed n s) (as : List Cplx) :
    FramerServed n (demodBlock s as) :=
  demodBlock_keeps (I := FramerServed n) (fun _ a ht => framerServed_demodSample ht a) as h

/-- Settles O54: the block's records are those the trace grows by, and what is undelivered is as before. -/
theorem framerGetsEveryDibit : Obligations.FramerGetsEveryDibit := by
  unfold Obligations.FramerGetsEveryDibit
  intro as s h
  obtain ⟨recs, htrace, -⟩ := (demodBlock_frame s as).trace
  refine ⟨recs, htrace, ?_⟩
  have hkept := (framerServed_demodBlock ⟨h, rfl⟩ as).undelivered_eq
  simp only [undelivered, htrace, framerPort_append, List.length_append, BitVec.ofNat_add] at hkept
  linear_combination hkept

end Sys2Proof.Machine
end

section
/-! PROOFS. The next strobe stays ahead (rule R248): the error of one rounding up to 1024, the half and
quarter symbol of a valid rate, the strobe distance over a pass, over a sample, and under every step. -/

namespace Sys2Proof.Machine

open Sys2Proof.Safety

/-! ## One rounding up to 1024 -/

/-- An integer up to 2^24 scaled down by 2^e is a binary32 value. -/
theorem exists_fValue_eq_div {n e : Nat} (hn : n ≤ 2 ^ 24) (he : e ≤ 126) :
    ∃ y, isFinite y = true ∧ fValue y = n / 2 ^ e := by
  obtain ⟨b, hb, hm⟩ := exists_magOf_eq (e := 149 - e) hn (by omega)
  obtain ⟨hfin, hval⟩ := fRound_exact (n := false) Nat.one_pos
    (show b < 0x7F800000 by omega) (show n * 2 ^ (149 - e) = magOf b * 1 by rw [hm, Nat.mul_one])
  refine ⟨_, hfin, hval.trans ?_⟩
  simp only [exactValue, Bool.false_eq_true, if_false, Nat.cast_mul, Nat.cast_pow, Nat.cast_ofNat,
    Nat.cast_one, div_one]
  rw [div_eq_div_iff (by positivity) (by positivity), mul_assoc, ← pow_add,
    Nat.sub_add_cancel (by omega)]

/-- The finite value `r` is the rational `q` with an error of at most 2^-14. -/
def CloseTo (r : F32) (q : ℚ) : Prop :=
  isFinite r = true ∧ q - 1 / 2 ^ 14 ≤ fValue r ∧ fValue r ≤ q + 1 / 2 ^ 14

/-- In [0, 1024] the nearest multiple of 2^-14 bounds the error of a rounding. -/
theorem closeTo_of_roundsTo {r : F32} {q : ℚ} (h : RoundsTo r q) (h0 : 0 ≤ q) (h1 : q ≤ 1024) :
    CloseTo r q := by
  obtain ⟨hbelow, -⟩ := h
  obtain ⟨hfin, hnear⟩ :=
    hbelow (by rw [abs_of_nonneg h0]; exact h1.trans_lt (by norm_num [overflowBound]))
  obtain ⟨n, hn⟩ : ∃ n, n = ⌊q * 2 ^ 14⌋₊ := ⟨_, rfl⟩
  have hlo : (n : ℚ) ≤ q * 2 ^ 14 := hn ▸ Nat.floor_le (by positivity)
  have hhi : q * 2 ^ 14 < n + 1 := hn ▸ Nat.lt_floor_add_one _
  have hle : n ≤ 2 ^ 24 := by
    have : (n : ℚ) ≤ 2 ^ 24 := by linarith
    exact_mod_cast this
  obtain ⟨y, hy, hval⟩ := exists_fValue_eq_div (e := 14) hle (by decide)
  obtain ⟨hdist, -⟩ := hnear y hy
  have hfar : |fValue y - q| ≤ 1 / 2 ^ 14 := by
    rw [hval, abs_le]
    constructor <;> linarith
  obtain ⟨herr, herr'⟩ := abs_le.1 (hdist.trans hfar)
  exact ⟨hfin, by linarith, by linarith⟩

/-! ## Half and quarter symbol of a valid rate -/

/-- At the default parameters a valid rate lies above twice the frequency offset (rule R322). -/
theorem rate_bounds_of_rateValid {rate : Word} (h : rateValid Config.defaults rate = true) :
    10001 ≤ rate.toNat ∧ rate.toNat ≤ 2 ^ 24 := by
  have hoffset : Config.defaults.maxOffsetHz.toNat = 5000 := rfl
  simp only [rateValid, hoffset, Bool.and_eq_true, decide_eq_true_eq] at h
  omega

/-- What the strobe's progress rests on: a half symbol is at least 1/4 of a sample and at least 17/128
more than the quarter symbol that bounds the timing adjustment. -/
structure SpacingOk (r : RateState) : Prop where
  half_finite : isFinite r.half = true
  quarter_finite : isFinite r.quarter = true
  half_ge : 1 / 4 ≤ fValue r.half
  half_le : fValue r.half ≤ 500
  quarter_nonneg : 0 ≤ fValue r.quarter
  gap : fValue r.quarter + 17 / 128 ≤ fValue r.half

/-- A quotient between 0 and 1024. -/
theorem closeTo_fDiv {a b : F32} {p q : ℚ} (ha : isFinite a = true) (hb : isFinite b = true)
    (hp : fValue a = p) (hq : fValue b = q) (h0 : 0 ≤ p) (hpos : 0 < q) (h1 : p ≤ 1024 * q) :
    CloseTo (fDiv a b) (p / q) := by
  subst hp hq
  have hzero : isZero b = false := by
    rw [← Bool.not_eq_true, ← fValue_eq_zero_iff]
    exact hpos.ne'
  exact closeTo_of_roundsTo (fDiv_roundsTo ha hb hzero) (div_nonneg h0 hpos.le) ((div_le_iff₀ hpos).2 h1)

theorem fValue_fTwo : fValue fTwo = 2 := by
  have h : fScaled fTwo = 2 * 2 ^ 149 := by decide
  rw [fValue, h]
  norm_num

theorem fValue_fFour : fValue fFour = 4 := by
  have h : fScaled fFour = 4 * 2 ^ 149 := by decide
  rw [fValue, h]
  norm_num

/-- Between 35/64 and 940 samples per symbol space the strobes well. -/
theorem spacingOk_of_sps {sps : F32} (hfin : isFinite sps = true) (hlo : 35 / 64 ≤ fValue sps)
    (hhi : fValue sps ≤ 940) (rate : Word) :
    SpacingOk { sampleRate := rate, sps := sps, half := fDiv sps fTwo, quarter := fDiv sps fFour } := by
  obtain ⟨hhfin, hhge, hhle⟩ : CloseTo (fDiv sps fTwo) (fValue sps / 2) :=
    closeTo_fDiv hfin (by decide) rfl fValue_fTwo (by linarith) (by norm_num) (by linarith)
  obtain ⟨hqfin, hqge, hqle⟩ : CloseTo (fDiv sps fFour) (fValue sps / 4) :=
    closeTo_fDiv hfin (by decide) rfl fValue_fFour (by linarith) (by norm_num) (by linarith)
  have hgap : fValue (fDiv sps fFour) + 17 / 128 ≤ fValue (fDiv sps fTwo) := by linarith
  exact { half_finite := hhfin, quarter_finite := hqfin, half_ge := by linarith, half_le := by linarith,
          quarter_nonneg := by linarith, gap := hgap }

/-- The values of a valid rate at the default parameters (rules R36, R322). -/
theorem spacingOk_rateFor {rate : Word} (h : rateValid Config.defaults rate = true) :
    SpacingOk (rateFor Config.defaults rate) := by
  obtain ⟨hlo, hhi⟩ := rate_bounds_of_rateValid h
  obtain ⟨hrate, hrateval⟩ := smallIntegersConvertExactly rate.toNat hhi
  obtain ⟨hsym, hsymval⟩ := smallIntegersConvertExactly 18000 (by decide)
  have hlo' : (10001 : ℚ) ≤ rate.toNat := by exact_mod_cast hlo
  have hhi' : (rate.toNat : ℚ) ≤ 2 ^ 24 := by exact_mod_cast hhi
  obtain ⟨hfin, hge, hle⟩ : CloseTo (fDiv (fOfNat rate.toNat) (fOfNat 18000)) (rate.toNat / 18000) :=
    closeTo_fDiv hrate hsym hrateval hsymval (by linarith) (by norm_num) (by linarith)
  exact spacingOk_of_sps hfin (by linarith) (by linarith) rate

/-! ## One pass -/

/-- The timing adjustment is at most a quarter symbol either way (rule R247). -/
theorem timingAdjust_finWithin {quarter : F32} (hq : isFinite quarter = true) (h0 : 0 ≤ fValue quarter)
    (kT eT : F32) : FinWithin (fValue quarter) (timingAdjust kT quarter eT) := by
  have hnum := isNaN_of_finite hq
  have horder : fLe (fNeg quarter) quarter = true :=
    (fLe_iff (by simpa using hnum) hnum).2 (by rw [fValue_fNeg]; linarith)
  obtain ⟨hlo, hhi⟩ := fClamp_mem (isNaN_nan0 (fMul kT eT)) horder
  exact .of_fLe hq hlo hhi

/-- Half a symbol onward (rule R244). -/
theorem closeTo_add_half {r : RateState} (h : SpacingOk r) {tau : F32} (hfin : isFinite tau = true)
    (h0 : 0 ≤ fValue tau) (h1 : fValue tau ≤ 1) :
    CloseTo (fAdd tau r.half) (fValue tau + fValue r.half) := by
  have hge := h.half_ge
  have hle := h.half_le
  exact closeTo_of_roundsTo (fAdd_roundsTo hfin h.half_finite) (by linarith) (by linarith)

/-- Half a symbol and an adjustment onward (rule R245): the adjustment takes back a quarter symbol at most,
so that enough of the half symbol is left. -/
theorem advance_add_half_adjust {r : RateState} (h : SpacingOk r) {tau adj : F32}
    (hfin : isFinite tau = true) (h0 : 0 ≤ fValue tau) (h1 : fValue tau ≤ 1)
    (hadj : FinWithin (fValue r.quarter) adj) :
    isFinite (fAdd (fAdd tau r.half) adj) = true ∧
      fValue tau + 1 / 8 ≤ fValue (fAdd (fAdd tau r.half) adj) := by
  obtain ⟨hsum, hlo, hhi⟩ := closeTo_add_half h hfin h0 h1
  obtain ⟨hafin, habs⟩ := hadj
  obtain ⟨halo, hahi⟩ := abs_le.1 habs
  have hgap := h.gap
  have hle := h.half_le
  obtain ⟨hres, hreslo, -⟩ :=
    closeTo_of_roundsTo (fAdd_roundsTo hsum hafin) (by linarith) (by linarith)
  exact ⟨hres, by linarith⟩

/-- The strobes are spaced as at a valid rate, and the next one lies ahead of the previous sample. -/
structure StrobeAhead (s : State) : Prop where
  spacing : SpacingOk s.rate
  ahead : fLt posZero s.timing.tau = true

theorem fLt_posZero_left_iff {x : F32} (hx : isNaN x = false) :
    fLt posZero x = true ↔ 0 < fValue x := by
  rw [fLt_iff (by decide) hx, fValue_posZero]

/-- A strobe at or before the new sample has a distance in (0, 1]. -/
theorem StrobeAhead.tau_bounds {s : State} (h : StrobeAhead s) (hle : fLe s.timing.tau fOne = true) :
    isFinite s.timing.tau = true ∧ 0 < fValue s.timing.tau ∧ fValue s.timing.tau ≤ 1 := by
  obtain ⟨hnum, -⟩ := isNaN_of_fLe hle
  refine ⟨isFinite_of_between (by decide) (by decide) (fLe_of_fLt h.ahead) hle,
    (fLt_posZero_left_iff hnum).1 h.ahead, ?_⟩
  simpa using fValue_le_of_fLe hle

/-- What a pass of either kind does to the strobe distance. -/
theorem strobePass_tau {s : State} (h : StrobeAhead s) (hle : fLe s.timing.tau fOne = true) (z : Cplx) :
    isFinite (strobePass z s).timing.tau = true ∧
      fValue s.timing.tau + 1 / 8 ≤ fValue (strobePass z s).timing.tau := by
  obtain ⟨hfin, h0, h1⟩ := h.tau_bounds hle
  unfold strobePass
  dsimp only
  split
  · obtain ⟨hsum, hlo, -⟩ := closeTo_add_half h.spacing hfin h0.le h1
    have hge := h.spacing.half_ge
    exact ⟨hsum, by linarith⟩
  · rw [symbolStep_eq, distribute_timing]
    exact advance_add_half_adjust h.spacing hfin h0.le h1
      (timingAdjust_finWithin h.spacing.quarter_finite h.spacing.quarter_nonneg _ _)

theorem strobeAhead_strobePass {s : State} (h : StrobeAhead s) (hle : fLe s.timing.tau fOne = true)
    (z : Cplx) : StrobeAhead (strobePass z s) := by
  obtain ⟨-, h0, -⟩ := h.tau_bounds hle
  obtain ⟨hfin, hge⟩ := strobePass_tau h hle z
  exact ⟨(strobePass_frame z s).rate ▸ h.spacing,
    (fLt_posZero_left_iff (isNaN_of_finite hfin)).2 (by linarith)⟩

/-! ## One sample -/

/-- Passes keep the strobe ahead, and while the loop has not ended each adds 1/8 at least. -/
theorem strobeAhead_strobeLoop (n : Nat) {s : State} (h : StrobeAhead s) (z : Cplx) :
    StrobeAhead (strobeLoop n z s) ∧
      (fLe (strobeLoop n z s).timing.tau fOne = true →
        fValue s.timing.tau + n / 8 ≤ fValue (strobeLoop n z s).timing.tau) := by
  induction n generalizing s with
  | zero => exact ⟨h, fun _ => by simp [strobeLoop]⟩
  | succ n ih =>
    cases hle : fLe s.timing.tau fOne with
    | true =>
      rw [strobeLoop_succ hle]
      obtain ⟨hahead, hprogress⟩ := ih (strobeAhead_strobePass h hle z)
      obtain ⟨-, hpass⟩ := strobePass_tau h hle z
      refine ⟨hahead, fun hmore => ?_⟩
      have := hprogress hmore
      push_cast
      linarith
    | false =>
      rw [strobeLoop_of_done hle]
      exact ⟨h, fun hmore => absurd (hle.symm.trans hmore) Bool.false_ne_true⟩

/-- Nine passes would raise the distance beyond 1, so the loop ends within them. -/
theorem strobeLoop_nine_done {s : State} (h : StrobeAhead s) (z : Cplx) :
    fLe (strobeLoop 9 z s).timing.tau fOne = false := by
  rw [← Bool.not_eq_true]
  intro hmore
  obtain ⟨hahead, hprogress⟩ := strobeAhead_strobeLoop 9 h z
  obtain ⟨-, -, h1⟩ := hahead.tau_bounds hmore
  obtain ⟨-, hnum⟩ := isNaN_of_fLt h.ahead
  have h0 := (fLt_posZero_left_iff hnum).1 h.ahead
  have := hprogress hmore
  norm_num at this
  linarith

theorem gardnerPush_eq_of_strobeAhead {s : State} (h : StrobeAhead s) (z : Cplx) :
    gardnerPush z s = gardnerShift z (strobeLoop 9 z s) :=
  congrArg (gardnerShift z) (strobeLoop_of_le (by decide) (strobeLoop_nine_done h z))

theorem fLt_of_fLe_eq_false {a b : F32} (ha : isNaN a = false) (hb : isNaN b = false)
    (h : fLe a b = false) : fLt b a = true := by
  rw [fLt_iff hb ha, ← not_le, ← fLe_iff ha hb, h]
  exact Bool.false_ne_true

/-- The least value above 1 is 1 + 2^-23. -/
theorem one_add_le_of_one_lt {x : F32} (h : 1 < fValue x) : 1 + 1 / 2 ^ 23 ≤ fValue x := by
  have hsucc : fValue 0x3F800001#32 = 1 + 1 / 2 ^ 23 := by
    have : fScaled 0x3F800001#32 = 2 ^ 149 + 2 ^ 126 := by decide
    rw [fValue, this]
    norm_num
  have hnext := fValue_le_or_le_of_fKey_succ (a := fOne) (b := 0x3F800001#32) (by decide) x
  rw [fValue_fOne, hsucc] at hnext
  exact hnext.resolve_left (not_le.2 h)

/-- A distance beyond the new sample is ahead of it once it is the previous one, infinity included. -/
theorem fLt_posZero_fSub_fOne {tau : F32} (h : fLt fOne tau = true) :
    fLt posZero (fSub tau fOne) = true := by
  obtain ⟨-, hnum⟩ := isNaN_of_fLt h
  have hgt : 1 < fValue tau := by simpa using fValue_lt_of_fLt h
  rcases class_cases tau with ⟨hfin, -⟩ | ⟨-, hinf, -⟩ | ⟨-, -, hnan⟩
  · have hulp : fValue 0x34000000#32 = 1 / 2 ^ 23 := by
      have : fScaled 0x34000000#32 = 2 ^ 126 := by decide
      rw [fValue, this]
      norm_num
    have hdiff : fValue 0x34000000#32 ≤ fValue tau - fValue fOne := by
      rw [hulp, fValue_fOne]
      linarith [one_add_le_of_one_lt hgt]
    exact fLt_of_fLt_of_fLe (by decide) (le_fSub hfin (by decide) (by decide) hdiff)
  · have hone : isNaN (fNeg fOne) = false ∧ isInf (fNeg fOne) = false := by decide
    have hsub : fSub tau fOne = tau := by simp [fSub, fAdd, hnum, hinf, hone]
    rw [hsub]
    exact (fLt_posZero_left_iff hnum).2 (by linarith)
  · exact absurd (hnum.symm.trans hnan) Bool.false_ne_true

/-- One sample: the loop's passes, then the shift to the new sample (rule R242). -/
theorem strobeAhead_gardnerPush {s : State} (h : StrobeAhead s) (z : Cplx) :
    fLt fOne (strobeLoop 9 z s).timing.tau = true ∧ StrobeAhead (gardnerPush z s) := by
  obtain ⟨⟨hspacing, hahead⟩, -⟩ := strobeAhead_strobeLoop 9 h z
  obtain ⟨-, hnum⟩ := isNaN_of_fLt hahead
  have hbeyond := fLt_of_fLe_eq_false hnum (by decide) (strobeLoop_nine_done h z)
  rw [gardnerPush_eq_of_strobeAhead h z]
  exact ⟨hbeyond, hspacing, fLt_posZero_fSub_fOne hbeyond⟩

/-- Settles O53: at a valid rate each pass adds 1/8 at least. -/
theorem nineStrobePassesAreEnough : Obligations.NineStrobePassesAreEnough := by
  unfold Obligations.NineStrobePassesAreEnough
  intro s z hparams hvalid hrate hahead
  rw [hparams] at hvalid hrate
  have h : StrobeAhead s := ⟨hrate ▸ spacingOk_rateFor hvalid, hahead⟩
  obtain ⟨hbeyond, hnext⟩ := strobeAhead_gardnerPush h z
  exact ⟨hbeyond, gardnerPush_eq_of_strobeAhead h z, hnext.ahead⟩

/-! ## Every command -/

/-- The NCO's advance after a sample leaves the strobes alone (rule R202). -/
theorem strobeAhead_demodSample {s : State} (h : StrobeAhead s) (a : Cplx) :
    StrobeAhead (demodSample s a) :=
  have ⟨_, hpush⟩ := strobeAhead_gardnerPush h (derotate s.loop.phi a)
  ⟨hpush.spacing, hpush.ahead⟩

theorem strobeAhead_demodBlock {s : State} (h : StrobeAhead s) (as : List Cplx) :
    StrobeAhead (demodBlock s as) :=
  demodBlock_keeps (I := StrobeAhead) (fun _ a ht => strobeAhead_demodSample ht a) as h

theorem strobeAhead_of_timingOk {s : State} (h : TimingOk s) (hv : s.flags.valid = true) :
    StrobeAhead s := by
  obtain ⟨hparams, hvalid⟩ := h
  obtain ⟨hr, hrate, hahead⟩ := hvalid hv
  rw [hparams] at hr hrate
  exact ⟨hrate ▸ spacingOk_rateFor hr, hahead⟩

/-- Symbol processing keeps the parameters, VALID and the rate, so the strobe is all it can spoil. -/
theorem SymbolFrame.timingOk {s t : State} (hf : SymbolFrame s t) (h : TimingOk s)
    (ht : s.flags.valid = true → fLt posZero t.timing.tau = true) : TimingOk t := by
  obtain ⟨hparams, hvalid⟩ := h
  refine ⟨hf.params.trans hparams, fun hv => ?_⟩
  rw [hf.flags] at hv
  obtain ⟨hr, hrate, -⟩ := hvalid hv
  rw [hf.params, hf.rate]
  exact ⟨hr, hrate, ht hv⟩

theorem timingOk_datapath {s : State} (h : TimingOk s) (xs : List Cplx) : TimingOk (datapath xs s) := by
  refine (datapath_frame xs s).timingOk h fun hv => ?_
  have hbefore : StrobeAhead (beforeDemod xs s) := strobeAhead_of_timingOk h hv
  rw [datapath_eq_demodBlock]
  exact (strobeAhead_demodBlock hbefore _).ahead

/-- A configuration puts the first strobe half a symbol ahead (rule R255). -/
theorem timingOk_configured {rate : Word} {s t : State} (h : TimingOk s)
    (hc : configure rate s = (t, true)) : TimingOk t := by
  obtain ⟨hparams, -⟩ := h
  obtain ⟨hr, v, c, rfl, -⟩ := configure_eq_true hc
  have hspacing := spacingOk_rateFor (hparams ▸ hr)
  have hhalf := hspacing.half_ge
  have hahead : fLt posZero (rateFor s.params rate).half = true := by
    rw [hparams]
    exact (fLt_posZero_left_iff (isNaN_of_finite hspacing.half_finite)).2 (by linarith)
  exact ⟨hparams, fun _ => ⟨hr, rfl, hahead⟩⟩

theorem timingOk_configFailed {rate : Word} {s t : State} (h : TimingOk s)
    (hc : configure rate s = (t, false)) : TimingOk (configFail t) := by
  obtain ⟨n, rfl⟩ := configure_eq_false hc
  obtain ⟨hparams, -⟩ := h
  exact ⟨hparams, fun hv => absurd hv Bool.false_ne_true⟩

theorem timingOk_resetRelease {s : State} (h : TimingOk s) : TimingOk (resetRelease s) := by
  unfold resetRelease
  split
  · next t hc =>
    have ht : TimingOk t := timingOk_configured h hc
    exact ht
  · next t hc =>
    have ht : TimingOk (configFail t) := timingOk_configFailed h hc
    exact ht

theorem flushBuffer_timing (s : State) : (flushBuffer s).timing = s.timing := by
  unfold flushBuffer
  split
  · rw [deliverBuffer_eq]
  · rfl

theorem CommandEffect.timingOk {i : Instr} {s u : State} (hu : CommandEffect s i u) (h : TimingOk s) :
    TimingOk u := by
  cases hu with
  | @block ts xs _ _ _ => exact timingOk_datapath (s := acceptTime ts s) h xs
  | configFailed hc => exact timingOk_configFailed h hc
  | configured hc => exact timingOk_configured h hc
  | flushed =>
    refine (flushed_frame s).timingOk h fun hv => ?_
    show fLt posZero (flushBuffer s).timing.tau = true
    rw [flushBuffer_timing]
    exact (strobeAhead_of_timingOk h hv).ahead
  | _ => exact h

/-! ## Every step -/

/-- Settles O20, by the four kinds of step and the effect of each command. -/
theorem everyStepKeepsStrobeAhead : Obligations.EveryStepKeepsStrobeAhead := by
  unfold Obligations.EveryStepKeepsStrobeAhead
  intro s t h hstep
  rcases step_cases hstep with ⟨-, ws, tr, rfl⟩ | ⟨-, -, -, rfl⟩ | ⟨-, -, i, rest, -, he⟩ | ⟨-, -, -, rfl⟩
  · obtain ⟨hparams, -⟩ := h
    exact ⟨hparams, fun hv => absurd hv Bool.false_ne_true⟩
  · exact timingOk_resetRelease h
  · obtain ⟨op, st, u, rfl, hu⟩ := exec_effect he
    exact hu.timingOk h
  · exact h

end Sys2Proof.Machine
end

section
/-! PROOFS. The registry and listener commands and FLUSH (rules R283, R284, R294, R296, R297). -/

namespace Sys2Proof.Machine

open Sys2Proof.Safety

/-- What the reserved-bit check makes of a command that ends on `u` when its reserved bits are 0. -/
theorem whenReservedZero_eq_next {n : Nat} {op : Byte} (hop : op ≠ opReadReg) (resv : BitVec n)
    (s : State) {u : State} {k : Host.Outcome State Fault Refusal} (hk : k = .next u) :
    whenReservedZero op resv s k = .next (if resv ≠ 0 then endRejected op 0x02#8 s else u) := by
  by_cases h : resv = 0
  · rw [h, whenReservedZero_zero, hk, if_neg (not_not_intro rfl)]
  · rw [whenReservedZero_of_ne h, if_pos h]
    exact reject_eq hop rfl s

/-- Taking the first occurrence out of a list without duplicates takes out every one. -/
theorem erase_eq_filter_ne {α : Type} [DecidableEq α] {l : List α} (h : l.Nodup) (a : α) :
    l.erase a = l.filter (fun x => decide (x ≠ a)) := by
  rw [h.erase_eq_filter]
  exact List.filter_congr fun x _ => by simp [bne, beq_eq_decide]

/-- How the two commands that add an entry end (rules R283, R296): the duplicate is tested before the
full table. -/
theorem addEntry_eq_next {op : Byte} (hop : op ≠ opReadReg) (duplicate full : Prop) [Decidable duplicate]
    [Decidable full] (s u : State) :
    (if duplicate then reject op .duplicate s
     else if full then reject op .tableFull s
     else complete op .ok u) =
      .next (if duplicate then endRejected op 0x08#8 s
             else if full then endRejected op 0x07#8 s
             else endOk op u) := by
  split
  · exact reject_eq hop rfl s
  · split
    · exact reject_eq hop rfl s
    · exact complete_ok_eq hop u

/-- How the two commands that remove an entry end (rules R284, R297). -/
theorem removeEntry_eq_next {op : Byte} (hop : op ≠ opReadReg) (found : Prop) [Decidable found]
    (s u : State) :
    (if found then complete op .ok u else reject op .notFound s) =
      .next (if found then endOk op u else endRejected op 0x09#8 s) := by
  split
  · exact complete_ok_eq hop u
  · exact reject_eq hop rfl s

/-- Settles O28: behind the reserved-bit check, a tap is added. -/
theorem addConsumerResult : Obligations.AddConsumerResult := by
  unfold Obligations.AddConsumerResult
  exact fun resv _ s =>
    whenReservedZero_eq_next (by decide) resv s (addEntry_eq_next (by decide) _ _ s _)

/-- Settles O29: behind the reserved-bit check, a tap is removed, which a good registry holds once. -/
theorem removeConsumerResult : Obligations.RemoveConsumerResult := by
  unfold Obligations.RemoveConsumerResult
  intro resv id s ⟨_, hnodup, _⟩
  rw [← erase_eq_filter_ne hnodup]
  exact whenReservedZero_eq_next (by decide) resv s (removeEntry_eq_next (by decide) _ s _)

/-- Settles O30: behind the reserved-bit check, a listener is added. -/
theorem addBufferListenerResult : Obligations.AddBufferListenerResult := by
  unfold Obligations.AddBufferListenerResult
  exact fun resv _ s =>
    whenReservedZero_eq_next (by decide) resv s (addEntry_eq_next (by decide) _ _ s _)

/-- Settles O31: behind the reserved-bit check, a listener is removed, which a good list holds once. -/
theorem removeBufferListenerResult : Obligations.RemoveBufferListenerResult := by
  unfold Obligations.RemoveBufferListenerResult
  intro resv id s ⟨hnodup, _⟩
  rw [← erase_eq_filter_ne hnodup]
  exact whenReservedZero_eq_next (by decide) resv s (removeEntry_eq_next (by decide) _ s _)

/-- The short buffer FLUSH delivers, as records: none when no byte is complete (rule R294). -/
theorem flushBuffer_eq (s : State) :
    flushBuffer s =
      { s with trace := s.trace ++
          (if s.asm.fill = 0#32 then []
           else s.listeners.bufListeners.map (fun id => .buf id (s.asm.buf.take s.asm.fill.toNat))) } := by
  unfold flushBuffer
  by_cases h : s.asm.fill = 0#32
  · simp [h]
  · have hpos : 0 < s.asm.fill.toNat := Nat.pos_of_ne_zero fun h0 => h (BitVec.eq_of_toNat_eq h0)
    rw [if_pos hpos, if_neg h, deliverBuffer_eq]

/-- Settles O33: FLUSH is the delivery of the short buffer and an emptied assembler, behind the
reserved-bit check. -/
theorem flushResult : Obligations.FlushResult := by
  unfold Obligations.FlushResult
  intro resv s
  refine (whenReservedZero_complete_ok (by decide) resv s _).trans ?_
  rw [flushBuffer_eq]
  rfl

end Sys2Proof.Machine
end

section
/-! PROOFS. The delivery of a dibit to the consumers other than the assembler (rules R280, R281). -/

namespace Sys2Proof.Machine

open Sys2Proof.Safety

/-- A consumer other than the assembler gets one record. -/
theorem deliver_of_ne_asm {c : Consumer} (h : c ≠ .asm) (d : Dibit) (s : State) :
    ∃ r, deliveryRecord s d c = some r ∧ deliver d s c = emit r s := by
  cases c with
  | asm => exact absurd rfl h
  | framer => exact ⟨_, rfl, rfl⟩
  | tap id => exact ⟨_, rfl, rfl⟩

/-- The record shows the framer generation and the time of the state only. -/
theorem deliveryRecord_congr {s t : State} (hr : t.registry = s.registry)
    (hc : t.currentTime = s.currentTime) (d : Dibit) : deliveryRecord t d = deliveryRecord s d := by
  funext c
  cases c <;> simp [deliveryRecord, hr, hc]

/-- Consumers other than the assembler get one record each, in list order. -/
theorem foldl_deliver_of_asm_notMem {cs : List Consumer} (h : Consumer.asm ∉ cs) (d : Dibit)
    (s : State) :
    cs.foldl (deliver d) s = { s with trace := s.trace ++ cs.filterMap (deliveryRecord s d) } := by
  induction cs generalizing s with
  | nil => simp
  | cons c cs ih =>
    obtain ⟨hc, hcs⟩ := List.ne_and_not_mem_of_not_mem_cons h
    obtain ⟨r, hr, hdeliver⟩ := deliver_of_ne_asm hc.symm d s
    rw [List.foldl_cons, hdeliver, ih hcs, deliveryRecord_congr (s := s) (t := emit r s) rfl rfl,
      List.filterMap_cons_some hr, List.append_cons]
    rfl

/-- Settles O55: the assembler packs the dibit and leaves alone what the other consumers' records show. -/
theorem dibitGoesToEveryConsumerInOrder : Obligations.DibitGoesToEveryConsumerInOrder := by
  unfold Obligations.DibitGoesToEveryConsumerInOrder
  intro d s cs hcons hasm
  have hframe := packDibit_frame d s
  calc distribute d s
      = cs.foldl (deliver d) (packDibit d s) := by rw [distribute, hcons]; rfl
    _ = { packDibit d s with
          trace := (packDibit d s).trace ++ cs.filterMap (deliveryRecord (packDibit d s) d) } :=
        foldl_deliver_of_asm_notMem hasm d _
    _ = _ := by rw [deliveryRecord_congr hframe.registry hframe.currentTime]

end Sys2Proof.Machine
end

section
/-! PROOFS. The byte-buffer assembler over a sequence of dibits (rules R290, R291, R293, R295): one
dibit more completes a byte or none, and one byte more fills a buffer or none. -/

namespace Sys2Proof.Machine

open Sys2Proof.Safety

/-! ## Dibits and their bytes -/

theorem length_packedBytes (ds : List Dibit) : (packedBytes ds).length = ds.length / 4 := by
  induction ds using pendingByte.induct with
  | case1 a b c d rest ih => simp [packedBytes, ih]; omega
  | _ => simp [packedBytes]

/-- A dibit enters the pending byte from below; the fourth one leaves none pending. -/
theorem pendingByte_concat (ds : List Dibit) (x : Dibit) :
    pendingByte (ds ++ [x]) =
      if ds.length % 4 = 3 then 0#8 else pendingByte ds * 4 + x.setWidth 8 := by
  induction ds using pendingByte.induct with
  | case1 _ _ _ _ rest ih => simpa [pendingByte, Nat.add_assoc] using ih
  | case2 a b c => rfl
  | case3 a b => revert a b x; decide
  | case4 a => revert a x; decide
  | case5 => revert x; decide

/-- The fourth dibit of a byte completes it. -/
theorem packedBytes_concat (ds : List Dibit) (x : Dibit) :
    packedBytes (ds ++ [x]) =
      packedBytes ds ++ if ds.length % 4 = 3 then [pendingByte ds * 4 + x.setWidth 8] else [] := by
  induction ds using pendingByte.induct with
  | case1 _ _ _ _ rest ih => simpa [packedBytes, pendingByte, Nat.add_assoc] using ih
  | case2 a b c => revert a b c x; decide
  | case3 a b => rfl
  | case4 a => rfl
  | case5 => rfl

/-! ## Bytes and their buffers -/

@[simp] theorem length_fullBuffers (size : Nat) (bytes : List Byte) :
    (fullBuffers size bytes).length = bytes.length / size := by
  simp [fullBuffers]

/-- The bytes that fill no buffer. -/
def leftBytes (size : Nat) (bytes : List Byte) : List Byte :=
  bytes.drop (bytes.length / size * size)

theorem length_leftBytes (size : Nat) (bytes : List Byte) :
    (leftBytes size bytes).length = bytes.length % size := by
  rw [leftBytes, List.length_drop, Nat.mod_eq_sub_div_mul]

theorem succ_div_of_mod_succ_lt {size n : Nat} (h : n % size + 1 < size) :
    (n + 1) / size = n / size := by
  have hn := Nat.div_add_mod' n size
  refine Nat.div_eq_of_lt_le (by omega) ?_
  rw [Nat.succ_mul]
  omega

theorem succ_div_of_mod_succ_eq {size n : Nat} (h : n % size + 1 = size) :
    (n + 1) / size = n / size + 1 := by
  have hn := Nat.div_add_mod' n size
  have hsucc : n + 1 = (n / size + 1) * size := by rw [Nat.succ_mul]; omega
  rw [hsucc, Nat.mul_div_cancel _ (by omega)]

/-- The buffers of a sequence stand unchanged at the front of any longer one. -/
theorem fullBuffers_eq_map_append (size : Nat) (bytes more : List Byte) :
    fullBuffers size bytes =
      (List.range (bytes.length / size)).map fun k => ((bytes ++ more).drop (k * size)).take size := by
  refine List.map_congr_left fun k hk => ?_
  have hend : (k + 1) * size ≤ bytes.length :=
    (Nat.mul_le_mul_right size (List.mem_range.1 hk)).trans (Nat.div_mul_le_self _ _)
  rw [Nat.succ_mul] at hend
  rw [List.drop_append_of_le_length (by omega),
    List.take_append_of_le_length (by rw [List.length_drop]; omega)]

theorem drop_div_mul_concat (size : Nat) (bytes : List Byte) (x : Byte) :
    (bytes ++ [x]).drop (bytes.length / size * size) = leftBytes size bytes ++ [x] :=
  List.drop_append_of_le_length (Nat.div_mul_le_self _ _)

section Room

variable {size : Nat} {bytes : List Byte} (h : bytes.length % size + 1 < size) (x : Byte)
include h

theorem fullBuffers_concat_of_room : fullBuffers size (bytes ++ [x]) = fullBuffers size bytes := by
  rw [fullBuffers_eq_map_append size bytes [x], fullBuffers, List.length_append,
    List.length_singleton, succ_div_of_mod_succ_lt h]

theorem leftBytes_concat_of_room : leftBytes size (bytes ++ [x]) = leftBytes size bytes ++ [x] := by
  rw [← drop_div_mul_concat, leftBytes, List.length_append, List.length_singleton,
    succ_div_of_mod_succ_lt h]

end Room

section Full

variable {size : Nat} {bytes : List Byte} (h : bytes.length % size + 1 = size) (x : Byte)
include h

theorem fullBuffers_concat_of_full :
    fullBuffers size (bytes ++ [x]) = fullBuffers size bytes ++ [leftBytes size bytes ++ [x]] := by
  have hlen : (leftBytes size bytes ++ [x]).length = size := by
    rw [List.length_append, length_leftBytes, List.length_singleton, h]
  rw [fullBuffers_eq_map_append size bytes [x], fullBuffers, List.length_append,
    List.length_singleton, succ_div_of_mod_succ_eq h, List.range_succ, List.map_append,
    List.map_singleton, drop_div_mul_concat, List.take_of_length_le hlen.le]

theorem leftBytes_concat_of_full : leftBytes size (bytes ++ [x]) = [] := by
  rw [← List.length_eq_zero_iff, length_leftBytes, List.length_append, List.length_singleton,
    ← Nat.mod_add_mod, h, Nat.mod_self]

end Full

theorem take_succ_set {α : Type} {l : List α} {n : Nat} (h : n < l.length) (x : α) :
    (l.set n x).take (n + 1) = l.take n ++ [x] := by
  rw [List.take_succ_eq_append_getElem (by rwa [List.length_set]), List.take_set_of_le le_rfl,
    List.getElem_set_self]

/-! ## Storing a byte -/

/-- The assembler with `byte` stored behind its bytes and no dibit pending. -/
def withByte (byte : Byte) (a : AssemblerState) : AssemblerState :=
  { a with buf := a.buf.set a.fill.toNat byte, fill := a.fill + 1, part := 0x00#8, pcnt := 0#2 }

theorem storeByte_of_room {s : State} (h : s.asm.fill.toNat + 1 < s.params.bufBytes.toNat)
    (byte : Byte) : storeByte byte s = { s with asm := withByte byte s.asm } := by
  have hbytes := s.params.bufBytes.isLt
  have hfill := toNat_add_one_of_lt (by omega : s.asm.fill.toNat + 1 < 2 ^ 32)
  refine if_neg fun heq : s.asm.fill + 1 = s.params.bufBytes => ?_
  rw [← heq, hfill] at h
  exact h.false

/-- The assembler when its buffer has been sent: empty, the buffer counted (rule R290). -/
def bufferSent (a : AssemblerState) : AssemblerState :=
  { a with buffersCompleted := a.buffersCompleted + 1, fill := 0#32 }

/-- The byte that fills the buffer sends it, whole, to every listener. -/
theorem storeByte_of_full {s : State} (hbuf : s.asm.buf.length = s.params.bufBytes.toNat)
    (h : s.asm.fill.toNat + 1 = s.params.bufBytes.toNat) (byte : Byte) :
    storeByte byte s =
      { s with
        asm := bufferSent (withByte byte s.asm)
        trace := s.trace ++ s.listeners.bufListeners.map
          (fun id => .buf id (s.asm.buf.take s.asm.fill.toNat ++ [byte])) } := by
  have hbytes := s.params.bufBytes.isLt
  have hfill : s.asm.fill + 1 = s.params.bufBytes :=
    BitVec.eq_of_toNat_eq ((toNat_add_one_of_lt (by omega)).trans h)
  have htake : (s.asm.buf.set s.asm.fill.toNat byte).take s.params.bufBytes.toNat =
      s.asm.buf.take s.asm.fill.toNat ++ [byte] := by rw [← h, take_succ_set (by omega)]
  rw [storeByte, finishBuffer, if_pos hfill, deliverBuffer_eq, htake]
  rfl

theorem storeByte_noPending (byte : Byte) (s : State) :
    (storeByte byte s).asm.part = 0#8 ∧ (storeByte byte s).asm.pcnt = 0#2 := by
  unfold storeByte finishBuffer
  split
  · rw [deliverBuffer_eq]
    exact ⟨rfl, rfl⟩
  · exact ⟨rfl, rfl⟩

/-- What stands in `t` when `bytes` have been stored one by one from `s` on, whose assembler was empty. -/
structure Assembled (s : State) (bytes : List Byte) (t : State) : Prop where
  frame : t = { s with asm := t.asm, trace := t.trace }
  trace : t.trace = s.trace ++ (fullBuffers s.params.bufBytes.toNat bytes).flatMap
    (fun b => s.listeners.bufListeners.map (fun id => .buf id b))
  length_buf : t.asm.buf.length = s.params.bufBytes.toNat
  count : t.asm.buffersCompleted =
    s.asm.buffersCompleted + BitVec.ofNat 32 (fullBuffers s.params.bufBytes.toNat bytes).length
  fill : t.asm.fill.toNat = bytes.length % s.params.bufBytes.toNat
  left : t.asm.buf.take t.asm.fill.toNat = leftBytes s.params.bufBytes.toNat bytes

theorem assembled_nil {s : State} (h : AssemblerOk s) (hfill : s.asm.fill = 0#32) :
    Assembled s [] s := by
  obtain ⟨hbuf, -, -⟩ := h
  constructor
  · rfl
  · simp [fullBuffers]
  · exact hbuf
  · simp
  · simp [hfill]
  · simp [hfill, leftBytes]

namespace Assembled

variable {s t : State} {bytes : List Byte}

theorem params (h : Assembled s bytes t) : t.params = s.params :=
  (congrArg State.params h.frame :)

theorem listeners (h : Assembled s bytes t) : t.listeners = s.listeners :=
  (congrArg State.listeners h.frame :)

/-- Only the assembler and the trace have changed, whatever they hold. -/
theorem with_eq (h : Assembled s bytes t) (a : AssemblerState) (recs : List Record) :
    ({ t with asm := a, trace := recs } : State) = { s with asm := a, trace := recs } :=
  (congrArg (fun u : State => { u with asm := a, trace := recs }) h.frame :)

theorem storeByte_room (h : Assembled s bytes t)
    (hroom : bytes.length % s.params.bufBytes.toNat + 1 < s.params.bufBytes.toNat) (x : Byte) :
    Assembled s (bytes ++ [x]) (storeByte x t) := by
  have hsize := s.params.bufBytes.isLt
  have hnext : (t.asm.fill + 1).toNat = t.asm.fill.toNat + 1 :=
    toNat_add_one_of_lt (by rw [h.fill]; omega)
  rw [storeByte_of_room (by rwa [h.fill, h.params])]
  constructor
  · exact h.with_eq _ _
  · rw [fullBuffers_concat_of_room hroom]
    exact h.trace
  · exact List.length_set.trans h.length_buf
  · rw [fullBuffers_concat_of_room hroom]
    exact h.count
  · show (t.asm.fill + 1).toNat = _
    rw [hnext, h.fill, List.length_append, List.length_singleton, ← Nat.mod_add_mod,
      Nat.mod_eq_of_lt hroom]
  · show (t.asm.buf.set _ x).take (t.asm.fill + 1).toNat = _
    rw [hnext, take_succ_set (by rw [h.fill, h.length_buf]; omega), h.left,
      leftBytes_concat_of_room hroom]

theorem storeByte_full (h : Assembled s bytes t)
    (hfull : bytes.length % s.params.bufBytes.toNat + 1 = s.params.bufBytes.toNat) (x : Byte) :
    Assembled s (bytes ++ [x]) (storeByte x t) := by
  rw [storeByte_of_full (by rw [h.length_buf, h.params]) (by rwa [h.fill, h.params])]
  constructor
  · exact h.with_eq _ _
  · show t.trace ++ _ = _
    rw [fullBuffers_concat_of_full hfull, List.flatMap_append, List.flatMap_singleton, h.left,
      h.listeners, h.trace, List.append_assoc]
  · exact List.length_set.trans h.length_buf
  · show t.asm.buffersCompleted + 1 = _
    rw [fullBuffers_concat_of_full hfull, List.length_append, List.length_singleton,
      BitVec.ofNat_add, ← BitVec.add_assoc, ← h.count]
    rfl
  · show 0 = _
    rw [List.length_append, List.length_singleton, ← Nat.mod_add_mod, hfull, Nat.mod_self]
  · exact (leftBytes_concat_of_full hfull x).symm

theorem storeByte (h : Assembled s bytes t) (hsize : 0 < s.params.bufBytes.toNat) (x : Byte) :
    Assembled s (bytes ++ [x]) (storeByte x t) := by
  rcases Nat.lt_or_eq_of_le (Nat.succ_le_of_lt (Nat.mod_lt bytes.length hsize)) with hroom | hfull
  · exact h.storeByte_room hroom x
  · exact h.storeByte_full hfull x

/-- The pending dibits are no part of the stored bytes. -/
theorem withPending (h : Assembled s bytes t) (part : Byte) (pcnt : BitVec 2) :
    Assembled s bytes { t with asm := { t.asm with part := part, pcnt := pcnt } } where
  frame := h.with_eq _ _
  trace := h.trace
  length_buf := h.length_buf
  count := h.count
  fill := h.fill
  left := h.left

end Assembled

/-! ## Packing dibits -/

/-- The fourth dibit of a byte stores it. -/
theorem packDibit_of_three {s : State} (h : s.asm.pcnt.toNat = 3) (d : Dibit) :
    packDibit d s = storeByte (s.asm.part * 4 + d.setWidth 8) s := if_pos (by rw [h])

/-- Any other dibit waits in the partial byte. -/
theorem packDibit_of_ne_three {s : State} (h : s.asm.pcnt.toNat ≠ 3) (d : Dibit) :
    packDibit d s =
      { s with asm := { s.asm with part := s.asm.part * 4 + d.setWidth 8, pcnt := s.asm.pcnt + 1 } } :=
  if_neg (by omega)

/-- What stands in `t` when `ds` have been packed from `s` on, whose assembler was empty. -/
structure Packed (s : State) (ds : List Dibit) (t : State) : Prop where
  assembled : Assembled s (packedBytes ds) t
  part : t.asm.part = pendingByte ds
  pcnt : t.asm.pcnt.toNat = ds.length % 4

theorem Packed.packDibit {s t : State} {ds : List Dibit} (h : Packed s ds t)
    (hsize : 0 < s.params.bufBytes.toNat) (d : Dibit) : Packed s (ds ++ [d]) (packDibit d t) := by
  obtain ⟨assembled, part, pcnt⟩ := h
  by_cases hlast : ds.length % 4 = 3
  · obtain ⟨hpart, hpcnt⟩ := storeByte_noPending (pendingByte ds * 4 + d.setWidth 8) t
    rw [packDibit_of_three (pcnt.trans hlast), part]
    constructor
    · rw [packedBytes_concat, if_pos hlast]
      exact assembled.storeByte hsize _
    · rw [hpart, pendingByte_concat, if_pos hlast]
    · rw [hpcnt, List.length_append, List.length_singleton, ← Nat.mod_add_mod, hlast]
      rfl
  · rw [packDibit_of_ne_three (by rwa [pcnt]), part]
    constructor
    · rw [packedBytes_concat, if_neg hlast, List.append_nil]
      exact assembled.withPending _ _
    · rw [pendingByte_concat, if_neg hlast]
    · show (t.asm.pcnt + 1).toNat = _
      rw [toNat_add_one_of_lt (by omega), pcnt, List.length_append, List.length_singleton]
      omega

theorem packed_foldl {s : State} (h : Packed s [] s) (hsize : 0 < s.params.bufBytes.toNat)
    (ds : List Dibit) : Packed s ds (ds.foldl (fun u d => packDibit d u) s) := by
  induction ds using List.reverseRecOn with
  | nil => exact h
  | append_singleton ds d ih =>
    rw [List.foldl_concat]
    exact ih.packDibit hsize d

/-- Settles O56, by induction on the dibits packed so far. -/
theorem packingCompletesFullBuffers : Obligations.PackingCompletesFullBuffers := by
  unfold Obligations.PackingCompletesFullBuffers
  intro ds s hok hfill hpart hpcnt size bytes full t
  have ⟨_, hlt, _⟩ := hok
  have start : Packed s [] s := ⟨assembled_nil hok hfill, hpart, congrArg BitVec.toNat hpcnt⟩
  obtain ⟨⟨frame, trace, -, count, fill, left⟩, part, pcnt⟩ :=
    packed_foldl start (Nat.zero_lt_of_lt hlt) ds
  have hfull : full.length = bytes.length / size := length_fullBuffers size bytes
  have hbytes : ds.length * 2 / 8 = bytes.length := by rw [length_packedBytes]; omega
  refine ⟨?_, by rw [hfull, hbytes], count, ?_, fill, pcnt, part⟩
  · rw [← trace]
    exact frame
  · rw [hfull]
    exact left

end Sys2Proof.Machine
end

section
/-! PROOFS. The framer's records of a block (rules R123, R144, R340). -/

namespace Sys2Proof.Machine

open Sys2Proof.Safety

/-- Every framer record among `recs` carries this time and this generation. -/
def FramerStamped (time : BitVec 64) (gen : Word) (recs : List Record) : Prop :=
  ∀ g d t, Record.framerIn g d t ∈ recs → t = time ∧ g = gen

section
variable {time : BitVec 64} {gen : Word}

theorem FramerStamped.nil : FramerStamped time gen [] := by simp [FramerStamped]

theorem FramerStamped.append {as bs : List Record} (ha : FramerStamped time gen as)
    (hb : FramerStamped time gen bs) : FramerStamped time gen (as ++ bs) := fun g d t h =>
  (List.mem_append.1 h).elim (ha g d t) (hb g d t)

theorem FramerStamped.of_resp (op status : Byte) : FramerStamped time gen [.resp op status] := by
  simp [FramerStamped]

theorem FramerStamped.of_isEvent {recs : List Record} (h : ∀ r ∈ recs, isEvent r = true) :
    FramerStamped time gen recs := fun _ _ _ hr => absurd (h _ hr) (by simp [isEvent])

end

/-- The demodulator runs after the block's time is taken over, so what it delivers carries it. -/
theorem framerStamped_datapath (ts : BitVec 64) (xs : List Cplx) (s : State) :
    ∃ recs, (datapath xs (acceptTime ts s)).trace = s.trace ++ recs ∧
      FramerStamped ts s.registry.framerGen recs := by
  obtain ⟨recs, trace, delivered⟩ := (datapath_frame xs (acceptTime ts s)).trace
  have stamped : FramerStamped ts s.registry.framerGen recs := fun _ _ _ hr =>
    have ⟨hgen, htime⟩ := delivered _ hr
    ⟨htime, hgen⟩
  exact ⟨_, trace.trans (List.append_assoc _ _ _),
    (FramerStamped.of_isEvent fun _ => isEvent_of_powerEvents).append stamped⟩

/-- Settles O45: of the records of a block only those the demodulator delivers are framer records. -/
theorem framerRecordsCarryBlockTime : Obligations.FramerRecordsCarryBlockTime := by
  unfold Obligations.FramerRecordsCarryBlockTime
  intro ts xs s t h
  obtain ⟨op, st, u, rfl, hu⟩ := exec_effect h
  obtain ⟨recs, trace, stamped⟩ :
      ∃ recs, u.trace = s.trace ++ recs ∧ FramerStamped ts s.registry.framerGen recs := by
    cases hu with
    | unchanged => exact ⟨[], (List.append_nil _).symm, .nil⟩
    | block => exact framerStamped_datapath ts xs s
  exact ⟨recs ++ [.resp op (statusCode st)], by rw [finish_trace, trace, List.append_assoc],
    stamped.append (.of_resp op _)⟩

end Sys2Proof.Machine
end

section
/-! PROOFS. The valid rates of the default parameters (rule R322), and SET_SAMPLE_RATE of a rate that is not
valid or whose filter is cached (rules R320, R321, R323). -/

namespace Sys2Proof.Machine

open Sys2Proof.Safety

/-! ## Valid rates -/

/-- Positive integers up to 2^24 convert to positive values, in their order. -/
theorem fOfNat_bounds {m n : Nat} (hm : 0 < m) (hmn : m ≤ n) (hn : n ≤ 2 ^ 24) :
    isFinite (fOfNat m) = true ∧ fLt posZero (fOfNat m) = true ∧ fLe (fOfNat m) (fOfNat n) = true := by
  obtain ⟨hmfin, hmval⟩ := smallIntegersConvertExactly m (hmn.trans hn)
  obtain ⟨hnfin, hnval⟩ := smallIntegersConvertExactly n hn
  refine ⟨hmfin, (fLt_iff (by decide) (isNaN_of_finite hmfin)).2 ?_,
    (fLe_iff (isNaN_of_finite hmfin) (isNaN_of_finite hnfin)).2 ?_⟩
  · rw [hmval, fValue_posZero]
    exact_mod_cast hm
  · rw [hmval, hnval]
    exact_mod_cast hmn

/-- A higher rate has no higher frequency bound (rule R208). -/
theorem omegaMaxFor_antitone {P : Config.Params} {low rate : Word}
    (hfin : isFinite (fMul twoPiF (fOfNat P.maxOffsetHz.toNat)) = true)
    (hpos : fLt posZero (fMul twoPiF (fOfNat P.maxOffsetHz.toNat)) = true)
    (hlow : 0 < low.toNat) (hle : low.toNat ≤ rate.toNat) (hhigh : rate.toNat ≤ 2 ^ 24) :
    fLe (omegaMaxFor P rate) (omegaMaxFor P low) = true := by
  obtain ⟨hfinLow, hposLow, hrates⟩ := fOfNat_bounds hlow hle hhigh
  obtain ⟨-, h⟩ := fDiv_antitone hfin hpos hfinLow hposLow hrates
  exact h

theorem fLt_of_fLe_of_fLt {x y z : F32} (h : fLe x y = true) (h' : fLt y z = true) :
    fLt x z = true := by
  obtain ⟨hx, hy⟩ := isNaN_of_fLe h
  obtain ⟨-, hz⟩ := isNaN_of_fLt h'
  exact (fLt_iff hx hz).2 (((fLe_iff hx hy).1 h).trans_lt ((fLt_iff hy hz).1 h'))

/-- At the default parameters the frequency bound is below PI_F already for the lowest rate above twice
the frequency offset. -/
theorem omegaMaxFor_defaults_lt_piF {rate : Word} (hlow : 10001 ≤ rate.toNat)
    (hhigh : rate.toNat ≤ 2 ^ 24) : fLt (omegaMaxFor Config.defaults rate) piF = true :=
  fLt_of_fLe_of_fLt
    (omegaMaxFor_antitone (low := 10001#32) (by decide) (by decide) (by decide) hlow hhigh)
    (by decide)

/-- Settles O38: the bound on the frequency excludes no rate that the bound on the offset admits. -/
theorem defaultValidRates : Obligations.DefaultValidRates := by
  unfold Obligations.DefaultValidRates
  intro rate
  refine ⟨rate_bounds_of_rateValid, fun ⟨hlow, hhigh⟩ => ?_⟩
  have hoffset : Config.defaults.maxOffsetHz.toNat = 5000 := rfl
  have hdiv : Config.defaults.powerDiv.toNat = 10 := rfl
  simp only [rateValid, hoffset, hdiv, Bool.and_eq_true, decide_eq_true_eq]
  exact ⟨⟨⟨by omega, by omega⟩, by omega⟩, omegaMaxFor_defaults_lt_piF hlow hhigh⟩

/-! ## SET_SAMPLE_RATE -/

theorem configure_of_invalid {rate : Word} {s : State} (invalid : rateValid s.params rate = false) :
    configure rate s = (s, false) := by
  simp [configure, invalid]

/-- Configure with a cached vector calls no designer and leaves the cache as it is (rule R150). -/
theorem configure_of_cached {rate : Word} {v : List F32} {s : State}
    (valid : rateValid s.params rate = true) (cached : cacheFind rate s.cache.entries = some v) :
    configure rate s = (applyConfig rate v s, true) := by
  simp [configure, filterFor, valid, cached]

/-- Settles O39: Configure fails at its first check and has changed nothing. -/
theorem invalidRateFailsConfiguration : Obligations.InvalidRateFailsConfiguration := by
  unfold Obligations.InvalidRateFailsConfiguration
  exact fun _ _ invalid => exec_setSampleRate_of_configFailed (configure_of_invalid invalid)

/-- Settles O40: the cached vector is installed, with the cache the state had. -/
theorem cachedRateIsConfigured : Obligations.CachedRateIsConfigured := by
  unfold Obligations.CachedRateIsConfigured
  intro rate v s valid cached
  rw [exec_setSampleRate_of_configured (configure_of_cached valid cached),
    ← applyConfig_eq_configured rate v s.cache s]

end Sys2Proof.Machine
end

section
/-! PROOFS. The listener registers, NOP, READ_REG and CLEAR_STATUS (rules R333 to R337). -/

namespace Sys2Proof.Machine

open Sys2Proof.Safety

/-- Settles O23: NOP ends on the state it finds. -/
theorem nopDoesOnlyBookkeeping : Obligations.NopDoesOnlyBookkeeping := by
  unfold Obligations.NopDoesOnlyBookkeeping
  exact fun _ s => complete_ok_eq (by decide) s

/-- EN is the truth value its bit spells (rules R333, R334). -/
theorem enBit_bit (en : Bool) : enBit (if en then 1#1 else 0#1) = en := by cases en <;> rfl

/-- Settles O32: both commands store EN and ID behind the reserved-bit check. -/
theorem setListenerResults : Obligations.SetListenerResults := by
  unfold Obligations.SetListenerResults
  intro resv en id s
  constructor
  all_goals
    refine (whenReservedZero_complete_ok (by decide) resv s _).trans ?_
    rw [enBit_bit]

/-- Settles O37: the three flags are cleared behind the reserved-bit check. -/
theorem clearStatusResult : Obligations.ClearStatusResult := by
  unfold Obligations.ClearStatusResult
  exact fun resv s => whenReservedZero_complete_ok (by decide) resv s _

/-! ## READ_REG -/

/-- The register map is the table of rule R52, row by row, and holds no register beyond it. -/
theorem regValue_eq_registerTable (n : Byte) (s : State) :
    regValue n s = (registerTable s)[n.toNat]? := by
  unfold regValue
  generalize n.toNat = k
  iterate 28
    obtain _ | k := k
    · rfl
  rfl

theorem regValue_eq_none_iff (n : Byte) (s : State) : regValue n s = none ↔ 0x1C ≤ n.toNat := by
  rw [regValue_eq_registerTable, List.getElem?_eq_none_iff]
  rfl

theorem exec_readReg_of_value {n : Byte} {s : State} {w : Word} (h : regValue n s = some w) :
    exec (.readReg 0 n) s = .next { s with trace := s.trace ++ [.data w, .resp 0x0E#8 0x00#8] } := by
  show execReadReg 0 n s = _
  rw [execReadReg, whenReservedZero_zero, h]
  refine (congrArg Host.Outcome.next (finish_readReg_ok_eq (emit (.data w) s))).trans ?_
  simp [emit, opReadReg]

theorem exec_readReg_rejected {resv : BitVec 16} {n : Byte} (h : resv ≠ 0 ∨ 0x1C ≤ n.toNat)
    (s : State) :
    exec (.readReg resv n) s =
      .next { s with flags := { s.flags with cmdErr := true }
                     trace := s.trace ++ [.resp 0x0E#8 0x02#8] } := by
  have rejected : reject 0x0E#8 .badArg s = _ :=
    congrArg Host.Outcome.next (finish_readReg_error_eq (st := .badArg) rfl s)
  show execReadReg resv n s = _
  by_cases hzero : resv = 0
  · have absent := (regValue_eq_none_iff n s).2 (h.resolve_left (not_not_intro hzero))
    rw [execReadReg, hzero, whenReservedZero_zero, absent]
    exact rejected
  · rw [execReadReg, whenReservedZero_of_ne hzero]
    exact rejected

/-- Settles O34: a register in the table is read, and only a set reserved bit or a number beyond the table
has READ_REG rejected. -/
theorem readRegResult : Obligations.ReadRegResult := by
  unfold Obligations.ReadRegResult
  exact fun n s =>
    ⟨fun _ hw => exec_readReg_of_value ((regValue_eq_registerTable n s).trans hw),
      fun _ h => exec_readReg_rejected h s⟩

end Sys2Proof.Machine
end

section
/-! PROOFS. What the core has in place of exceptions (rules R360, R364, R377): a rejected command with no
effect but its marks, a step that waits, and the one fault. -/

namespace Sys2Proof.Machine

open Sys2Proof.Safety

/-! ## Rejection -/

/-- The bookkeeping of an error code, for every opcode (rule R363). -/
theorem finish_of_isErrorCode (op : Byte) {st : Status} (he : isErrorCode (statusCode st) = true)
    (s : State) :
    finish op st s =
      { s with
        flags := { s.flags with
          cmdErr := true
          lastStatus := if op = opReadReg then s.flags.lastStatus else statusCode st }
        trace := s.trace ++ [.resp op (statusCode st)] } := by
  simp [finish, emit, he]

/-- The last record tells the status of a command, and the records before it are the command's own. -/
theorem finish_trace_eq_iff (op code : Byte) (st : Status) (u s : State) (recs : List Record) :
    (finish op st u).trace = s.trace ++ recs ++ [.resp op code] ↔
      u.trace = s.trace ++ recs ∧ statusCode st = code := by
  rw [finish_trace, ← List.concat_eq_append, ← List.concat_eq_append, List.concat_inj,
    Record.resp.injEq, eq_self_iff_true, true_and]

/-- Settles O9: the RESP names the status the command ended with; under an error code the frame of the
command leaves the state as found or with the marks of a failed configuration, and the bookkeeping is added. -/
theorem rejectedCommandHasNoOtherEffect : Obligations.RejectedCommandHasNoOtherEffect := by
  unfold Obligations.RejectedCommandHasNoOtherEffect
  intro i s t recs code h htrace hlow hhigh
  obtain ⟨st, u, he, hframe⟩ := exec_frame i s
  obtain rfl : finish (opcode i) st u = t := Host.Outcome.next.inj (he.symm.trans h)
  obtain ⟨hrecs, rfl⟩ := (finish_trace_eq_iff _ _ _ _ _ _).1 htrace
  have herror : isErrorCode (statusCode st) = true := decide_eq_true ⟨hlow, hhigh⟩
  rw [finish_of_isErrorCode (opcode i) herror u]
  rcases hframe.rejected herror with rfl | ⟨rfl, n, rfl⟩
  · exact ⟨List.self_eq_append_right.1 hrecs, rfl, fun _ => ⟨rfl, rfl, rfl⟩⟩
  · exact ⟨List.self_eq_append_right.1 hrecs, rfl, fun hconfig => absurd rfl hconfig⟩

/-! ## Waiting and faults -/

/-- Settles O7: the reset line and the phase choose `runCommand`, which waits for missing words. -/
theorem idleCoreHoldsItsState : Obligations.IdleCoreHoldsItsState := by
  unfold Obligations.IdleCoreHoldsItsState
  intro s e hr hp hd
  rw [step_of_running hr hp, runCommand_of_error hd]

/-- The next step releases reset on a core whose parameters break rule R9. -/
def ReleasesBadParameters (s : State) : Prop :=
  s.rst = .released ∧ s.phase = .boot ∧ paramsOk s.params = false

theorem step_of_releasesBadParameters {s : State} (h : ReleasesBadParameters s) :
    step s = .fault .badParameters := by
  obtain ⟨hr, hp, hbad⟩ := h
  simp [step_of_boot hr hp, bootStep, hbad]

theorem runCommand_answers (s : State) : ∃ t, runCommand s = .next t := by
  cases hd : decode s.cmd with
  | ok c =>
    obtain ⟨st, u, he, -⟩ := exec_frame c.1 { s with cmd := c.2 }
    exact ⟨_, (runCommand_of_decode hd).trans he⟩
  | error e => exact ⟨s, runCommand_of_error hd⟩

/-- Every other step answers a state: a reset, its release with good parameters, or a running core. -/
theorem step_answers {s : State} (h : ¬ ReleasesBadParameters s) : ∃ t, step s = .next t := by
  cases hr : s.rst with
  | asserted => exact ⟨holdReset s, by simp only [step, hr]⟩
  | during words records =>
    cases hp : s.phase with
    | boot => exact ⟨holdReset s, by simp only [step, hr, hp]⟩
    | running => exact ⟨abandonCommand words records s, by simp only [step, hr, hp]⟩
  | released =>
    cases hp : s.phase with
    | boot =>
      have hok : paramsOk s.params = true := by
        by_contra hbad
        exact h ⟨hr, hp, Bool.eq_false_of_not_eq_true hbad⟩
      exact ⟨resetRelease s, by rw [step_of_boot hr hp, bootStep, if_pos hok]⟩
    | running => rw [step_of_running hr hp]; exact runCommand_answers s

/-- Settles O15: the release of bad parameters faults, and every other step answers a state. -/
theorem onlyBadParametersFault : Obligations.OnlyBadParametersFault := by
  unfold Obligations.OnlyBadParametersFault
  intro s
  by_cases hbad : ReleasesBadParameters s
  · rw [step_of_releasesBadParameters hbad]
    refine ⟨nofun, fun f => ?_⟩
    exact ⟨fun hf => ⟨(Host.Outcome.fault.inj hf).symm, hbad⟩, fun ⟨hf, _⟩ => congrArg _ hf.symm⟩
  · obtain ⟨t, ht⟩ := step_answers hbad
    rw [ht]
    exact ⟨nofun, fun _ => ⟨nofun, fun ⟨_, h⟩ => absurd h hbad⟩⟩

end Sys2Proof.Machine
end

section
/-! PROOFS. Hardware reset: held low (rules R390, R395), its release with the initial configuration (rule
R391), and a reset in the middle of a command (rule R394). -/

namespace Sys2Proof.Machine

open Sys2Proof.Safety

/-! ## The line held low -/

theorem step_of_asserted {s : State} (h : s.rst = .asserted) : step s = .next (holdReset s) := by
  simp only [step, h]

/-- A whole command is no partly received one: it stays offered. -/
theorem discardPartial_of_decode {ws rest : List Word} {i : Instr} (h : decode ws = .ok (i, rest)) :
    discardPartial ws = ws := by
  simp only [discardPartial, h]

theorem holdReset_cmd_of_decode {s : State} {i : Instr} {rest : List Word}
    (h : decode s.cmd = .ok (i, rest)) : (holdReset s).cmd = s.cmd := by
  cases hp : s.phase with
  | boot => simp only [holdReset, hp, hardReset_cmd]
  | running => simp only [holdReset, hp, hardReset_cmd, discardPartial_of_decode h]

/-- Settles O12: a held reset is `hardReset` but for the port, and discards partly received commands only. -/
theorem heldResetTakesFirstColumn : Obligations.HeldResetTakesFirstColumn := by
  unfold Obligations.HeldResetTakesFirstColumn
  intro s h
  refine ⟨holdReset s, step_of_asserted h, ?_, fun i rest hd => holdReset_cmd_of_decode hd⟩
  obtain ⟨ws, hw⟩ := holdReset_eq s
  rw [hw]
  rfl

/-! ## Release -/

theorem step_of_release {s : State} (hr : s.rst = .released) (hp : s.phase = .boot)
    (hok : paramsOk s.params = true) : step s = .next (resetRelease s) := by
  rw [step_of_boot hr hp, bootStep, if_pos hok]

theorem resetRelease_of_configured {s t : State}
    (h : configure s.params.initialRate s = (t, true)) :
    resetRelease s = { t with phase := .running } := by
  simp only [resetRelease, h]

theorem resetRelease_of_configFailed {s t : State}
    (h : configure s.params.initialRate s = (t, false)) :
    resetRelease s = { configFail t with phase := .running } := by
  simp only [resetRelease, h]

/-- Settles O13: right after reset the cache is empty, so a valid initial rate is designed, and its good
design is the one entry. -/
theorem resetReleaseRunsInitialConfiguration : Obligations.ResetReleaseRunsInitialConfiguration := by
  unfold Obligations.ResetReleaseRunsInitialConfiguration
  intro P cmd trace hok s failed
  rw [step_of_release (s := s) rfl rfl hok]
  congr 1
  cases hvalid : rateValid P P.initialRate with
  | false => exact resetRelease_of_configFailed (s := s) (configure_of_invalid hvalid)
  | true =>
    rw [if_pos rfl]
    have hdesign := configure_of_uncached (rate := P.initialRate) (s := s) hvalid rfl
    cases hd : design P P.initialRate with
    | none =>
      rcases hdesign with ⟨v, hv, -, -⟩ | ⟨-, hc⟩
      · exact absurd (hd.symm.trans hv) (by simp)
      · exact resetRelease_of_configFailed hc
    | some v =>
      simp only [← designOk_iff]
      rcases hdesign with ⟨w, hw, good, hc⟩ | ⟨bad, hc⟩
      · obtain rfl : v = w := Option.some.inj (hd.symm.trans hw)
        have hgood : designOk P v = true := good
        rw [if_pos hgood, resetRelease_of_configured hc, applyConfig_eq_configured]
        rfl
      · have hbad : designOk P v = false := bad v hd
        rw [if_neg (by simp [hbad])]
        exact resetRelease_of_configFailed hc

/-! ## In the middle of a command -/

theorem step_of_during {s : State} {words records : Nat} (hr : s.rst = .during words records)
    (hp : s.phase = .running) : step s = .next (abandonCommand words records s) := by
  simp only [step, hr, hp]

/-- The records already out are the first of the command's own; its last is never among them. -/
theorem abandonedTrace_append (records : Nat) (old recs : List Record) (last : Record) :
    abandonedTrace records old (old ++ recs ++ [last]) = old ++ recs.take records := by
  simp [abandonedTrace, List.append_assoc]

/-- Before all words are accepted the command has done nothing. -/
theorem abandonCommand_of_lt {s : State} {i : Instr} {rest : List Word} {words : Nat}
    (hd : decode s.cmd = .ok (i, rest)) (hw : words < s.cmd.length - rest.length) (records : Nat) :
    abandonCommand words records s = hardReset { s with cmd := s.cmd.drop words } := by
  simp only [abandonCommand, hd, if_pos hw]

/-- Once all words are accepted some of the command's records are out. -/
theorem abandonCommand_of_le {s t : State} {i : Instr} {rest : List Word} {words : Nat}
    (hd : decode s.cmd = .ok (i, rest)) (hw : s.cmd.length - rest.length ≤ words)
    (he : exec i { s with cmd := rest } = .next t) (records : Nat) :
    abandonCommand words records s =
      hardReset { s with cmd := rest, trace := abandonedTrace records s.trace t.trace } := by
  simp only [abandonCommand, hd, if_neg (Nat.not_lt.2 hw), he]

/-- Settles O14: the command's records are some that are no RESP and then its RESP; what is out is a first
part of the former. -/
theorem resetAbandonsCommandInProgress : Obligations.ResetAbandonsCommandInProgress := by
  unfold Obligations.ResetAbandonsCommandInProgress
  intro s t i rest words records hr hp hd he
  obtain ⟨t', recs, code, hexec, htrace, hresp, -⟩ := everyCommandEndsWithOneResp i { s with cmd := rest }
  obtain rfl : t' = t := Host.Outcome.next.inj (hexec.symm.trans he)
  rw [step_of_during hr hp]
  by_cases hw : words < s.cmd.length - rest.length
  · refine ⟨_, [], recs ++ [.resp (opcode i) code], rfl, ?_, by rw [htrace]; simp,
      by simp, by simp, fun _ => ⟨rfl, ?_⟩, fun h => absurd hw (Nat.not_lt.2 h)⟩
    · rw [abandonCommand_of_lt hd hw, List.append_nil]
      rfl
    · rw [abandonCommand_of_lt hd hw, hardReset_cmd]
  · have habandon := abandonCommand_of_le hd (Nat.not_lt.1 hw) he records
    rw [htrace, abandonedTrace_append] at habandon
    refine ⟨_, recs.take records, recs.drop records ++ [.resp (opcode i) code], rfl, ?_, ?_,
      by simp, fun r h => hresp r (List.mem_of_mem_take h), fun h => absurd h hw, fun _ => ⟨?_, ?_⟩⟩
    · rw [habandon]
      rfl
    · rw [htrace, List.append_assoc, List.append_assoc, ← List.append_assoc (recs.take records),
        List.take_append_drop]
    · rw [habandon, hardReset_cmd]
    · simp only [List.length_append, List.length_drop, List.length_take, List.length_singleton]
      omega

end Sys2Proof.Machine
end

section
/-! PROOFS. A block cut in two (rule R405): what the ports carry of the results, the states that agree in
them, and that every stage, and so the whole block, keeps the agreement. -/

namespace Sys2Proof.Machine

open Sys2Proof.Safety

/-! ## What the ports carry of the results -/

/-- What a port carries of each record, when it carries results only: nothing of RESP, of a framer record
not its time, and either nothing of the power monitor's events or nothing but them. -/
structure ResultPort {α : Type} (port : Record → List α) : Prop where
  resp : ∀ op st, port (.resp op st) = []
  retime : ∀ c r, port (retime c r) = port r
  events : (∀ r, isEvent r = true → port r = []) ∨ (∀ r, isEvent r = false → port r = [])

/-- Every port of results carries the same. -/
def SameResults (a b : List Record) : Prop :=
  ∀ (α : Type) (port : Record → List α), ResultPort port → a.flatMap port = b.flatMap port

theorem SameResults.refl (a : List Record) : SameResults a a := fun _ _ _ => rfl

theorem SameResults.symm {a b : List Record} (h : SameResults a b) : SameResults b a :=
  fun α port hp => (h α port hp).symm

theorem SameResults.trans {a b c : List Record} (h : SameResults a b) (h' : SameResults b c) :
    SameResults a c := fun α port hp => (h α port hp).trans (h' α port hp)

theorem SameResults.append {a b c d : List Record} (h : SameResults a b) (h' : SameResults c d) :
    SameResults (a ++ c) (b ++ d) := fun α port hp => by
  rw [List.flatMap_append, List.flatMap_append, h α port hp, h' α port hp]

theorem SameResults.append_resp (a : List Record) (op st : Byte) :
    SameResults (a ++ [.resp op st]) a := fun _ _ hp => by
  simp [hp.resp]

theorem SameResults.map_retime (a : List Record) (c : BitVec 64) : SameResults (a.map (retime c)) a :=
  fun _ _ hp => by simp only [List.flatMap_map, hp.retime]

/-- Events and other records go to different ports, so their order across ports does not count. -/
theorem SameResults.append_comm {events others : List Record} (he : ∀ r ∈ events, isEvent r = true)
    (ho : ∀ r ∈ others, isEvent r = false) : SameResults (events ++ others) (others ++ events) := by
  intro α port hp
  rw [List.flatMap_append, List.flatMap_append]
  rcases hp.events with none | only
  · rw [List.flatMap_eq_nil_iff.2 fun r hr => none r (he r hr), List.nil_append, List.append_nil]
  · rw [List.flatMap_eq_nil_iff.2 fun r hr => only r (ho r hr), List.nil_append, List.append_nil]

theorem resultPort_tap : ResultPort fun r => (recordTap r).toList where
  resp _ _ := rfl
  retime _ r := by cases r <;> rfl
  events := .inl fun r h => by cases r with
    | event => rfl
    | _ => cases h

theorem resultPort_buf : ResultPort recordBuf where
  resp _ _ := rfl
  retime _ r := by cases r <;> rfl
  events := .inl fun r h => by cases r with
    | event => rfl
    | _ => cases h

theorem resultPort_event : ResultPort fun r => (recordEvent r).toList where
  resp _ _ := rfl
  retime _ r := by cases r <;> rfl
  events := .inr fun r h => by cases r with
    | event => cases h
    | _ => rfl

theorem resultPort_framer : ResultPort fun r => (recordFramer r).toList.map fun d => (d.1, d.2.1) where
  resp _ _ := rfl
  retime _ r := by cases r <;> rfl
  events := .inl fun r h => by cases r with
    | event => rfl
    | _ => cases h

section
variable {a b : List Record} (h : SameResults a b)
include h

theorem SameResults.tapPort_eq : tapPort a = tapPort b := by
  simp only [tapPort, List.filterMap_eq_flatMap_toList]
  exact h _ _ resultPort_tap

theorem SameResults.bufPort_eq : bufPort a = bufPort b := h _ _ resultPort_buf

theorem SameResults.eventPort_eq : eventPort a = eventPort b := by
  simp only [eventPort, List.filterMap_eq_flatMap_toList]
  exact h _ _ resultPort_event

theorem SameResults.framerPort_eq :
    (framerPort a).map (fun r => (r.1, r.2.1)) = (framerPort b).map (fun r => (r.1, r.2.1)) := by
  simp only [framerPort, List.filterMap_eq_flatMap_toList, List.map_flatMap]
  exact h _ _ resultPort_framer

end

/-! ## States that agree in their results -/

/-- The states differ in nothing but the flags, the time and the trace, and on their traces the ports
carry the same results. -/
structure Agree (s t : State) : Prop where
  state : t = { s with flags := t.flags, currentTime := t.currentTime, trace := t.trace }
  results : SameResults s.trace t.trace

theorem Agree.symm {s t : State} (h : Agree s t) : Agree t s where
  state := (congrArg
    (fun u : State => { u with flags := s.flags, currentTime := s.currentTime, trace := s.trace })
    h.state).symm
  results := h.results.symm

theorem Agree.trans {s t u : State} (h : Agree s t) (h' : Agree t u) : Agree s u where
  state := h'.state.trans (congrArg
    (fun x : State => { x with flags := u.flags, currentTime := u.currentTime, trace := u.trace })
    h.state)
  results := h.results.trans h'.results

theorem Agree.finish (op : Byte) (st : Status) (s : State) : Agree s (finish op st s) where
  state := rfl
  results := (SameResults.append_resp s.trace op (statusCode st)).symm

theorem Agree.acceptTime (ts : BitVec 64) (s : State) : Agree s (acceptTime ts s) where
  state := rfl
  results := .refl s.trace

theorem agree_replaceOther (fl fl' : StatusState) (fs : FilterState) (p : PowerState) (a : AgcState)
    (c c' : BitVec 64) {tr tr' : List Record} (h : SameResults tr tr') (s : State) :
    Agree (s.replaceOther fl fs p a c tr) (s.replaceOther fl' fs p a c' tr') where
  state := rfl
  results := h.append ((SameResults.map_retime s.trace c).trans (SameResults.map_retime s.trace c').symm)

/-- A state is its own replacement on an empty trace. -/
theorem replaceOther_self (s : State) (fl : StatusState) (c : BitVec 64) (tr : List Record) :
    { s with flags := fl, currentTime := c, trace := tr } =
      { s with trace := [] }.replaceOther fl s.filter s.power s.agc c tr := by
  simp [State.replaceOther]

theorem Agree.demodBlock {s t : State} (h : Agree s t) (as : List Cplx) :
    Agree (demodBlock s as) (demodBlock t as) := by
  have hs : s = { s with trace := [] }.replaceOther s.flags s.filter s.power s.agc s.currentTime s.trace :=
    replaceOther_self s s.flags s.currentTime s.trace
  have ht : t = { s with trace := [] }.replaceOther t.flags s.filter s.power s.agc t.currentTime t.trace :=
    h.state.trans (replaceOther_self s t.flags t.currentTime t.trace)
  rw [hs, ht, demodBlock_replaceOther, demodBlock_replaceOther]
  exact agree_replaceOther _ _ _ _ _ _ _ h.results _

/-! ## The stages before the demodulator -/

/-- What the gain stage hands to the demodulator (rules R145, R184). -/
def gainOutputs (xs : List Cplx) (s : State) : List Cplx :=
  (agcBlock s.params s.agc (firBlock s.filter xs).2).2

theorem datapath_eq_demodBlock_gainOutputs (xs : List Cplx) (s : State) :
    datapath xs s = demodBlock (beforeDemod xs s) (gainOutputs xs s) := datapath_eq_demodBlock xs s

theorem gainOutputs_congr {s t : State} (hp : t.params = s.params) (ha : t.agc = s.agc)
    (hf : t.filter = s.filter) (xs : List Cplx) : gainOutputs xs t = gainOutputs xs s := by
  simp only [gainOutputs, hp, ha, hf]

theorem powerEvents_append (l : ListenerState) (p : PowerState) (fs gs : List Cplx) :
    powerEvents l p (fs ++ gs) =
      powerEvents l p fs ++ powerEvents l (fs.foldl (fun p x => (powerSample p x).1) p) gs := by
  induction fs generalizing p with
  | nil => rfl
  | cons f fs ih => simp only [List.cons_append, powerEvents, ih, List.append_assoc, List.foldl_cons]

/-- The second part of a cut block finds the stages where the first left them. -/
theorem beforeDemod_append (xs ys : List Cplx) (s : State) :
    beforeDemod (xs ++ ys) s = beforeDemod ys (beforeDemod xs s) := by
  simp only [beforeDemod, firBlock, agcBlock, runStage_append, List.foldl_append, powerEvents_append,
    List.append_assoc]

theorem gainOutputs_append (xs ys : List Cplx) (s : State) :
    gainOutputs (xs ++ ys) s = gainOutputs xs s ++ gainOutputs ys (beforeDemod xs s) := by
  simp only [gainOutputs, beforeDemod, firBlock, agcBlock, runStage_append]

theorem Agree.beforeDemod {s t : State} (h : Agree s t) (xs : List Cplx) :
    Agree (beforeDemod xs s) (beforeDemod xs t) where
  state := by rw [h.state]; rfl
  results := by rw [h.state]; exact h.results.append (.refl _)

theorem Agree.gainOutputs_eq {s t : State} (h : Agree s t) (xs : List Cplx) :
    gainOutputs xs t = gainOutputs xs s := by rw [h.state]; rfl

/-- The whole datapath keeps the agreement. -/
theorem Agree.datapath {s t : State} (h : Agree s t) (xs : List Cplx) :
    Agree (datapath xs s) (datapath xs t) := by
  rw [datapath_eq_demodBlock_gainOutputs, datapath_eq_demodBlock_gainOutputs, h.gainOutputs_eq]
  exact (h.beforeDemod xs).demodBlock _

/-! ## The cut -/

/-- The stages before the demodulator may run on the second part before or after the demodulator runs on
the first: only the order of events and symbol records differs. -/
theorem agree_beforeDemod_demodBlock (ys as : List Cplx) (s : State) :
    Agree (demodBlock (beforeDemod ys s) as) (beforeDemod ys (demodBlock s as)) := by
  obtain ⟨recs, hrecs, htrace, hrun⟩ := demodBlock_apart s as
  have hframe := demodBlock_frame s as
  have hfirst : demodBlock (beforeDemod ys s) as = _ := hrun _ _ _ _ _
  rw [hfirst]
  constructor
  · simp only [beforeDemod, hframe.params, hframe.filter, hframe.power, hframe.agc]
  · simp only [beforeDemod, htrace, hframe.filter, hframe.power, hframe.listeners, List.append_assoc]
    exact (SameResults.refl _).append
      (.append_comm (fun _ => isEvent_of_powerEvents) fun r hr => (hrecs r hr).not_event)

theorem agree_datapath_append (xs ys : List Cplx) (s : State) :
    Agree (datapath (xs ++ ys) s) (datapath ys (datapath xs s)) := by
  have hframe := datapath_frame xs s
  have hgain : gainOutputs ys (datapath xs s) = gainOutputs ys (beforeDemod xs s) :=
    gainOutputs_congr hframe.params hframe.agc hframe.filter ys
  have hwhole : datapath (xs ++ ys) s =
      demodBlock (demodBlock (beforeDemod ys (beforeDemod xs s)) (gainOutputs xs s))
        (gainOutputs ys (beforeDemod xs s)) := by
    rw [datapath_eq_demodBlock_gainOutputs, beforeDemod_append, gainOutputs_append]
    exact List.foldl_append
  rw [hwhole, datapath_eq_demodBlock_gainOutputs ys, hgain, datapath_eq_demodBlock_gainOutputs xs]
  exact (agree_beforeDemod_demodBlock ys (gainOutputs xs s) (beforeDemod xs s)).demodBlock _

/-- An accepted block agrees with the datapath: taking over the time before it and the bookkeeping after
it touch no result. -/
theorem exec_receiveBlock_agree (ts : BitVec 64) {xs : List Cplx} {s : State} (nonempty : xs ≠ [])
    (valid : s.flags.valid = true) (finite : xs.all sampleFinite = true) :
    ∃ t, exec (.receiveBlock ts xs) s = .next t ∧ Agree (datapath xs s) t ∧ t.currentTime = ts ∧
      t.flags.valid = true := by
  refine ⟨_, exec_receiveBlock_accepted nonempty valid finite,
    ((Agree.acceptTime ts s).datapath xs).trans (.finish _ _ _), ?_, ?_⟩
  · exact (datapath_frame xs (acceptTime ts s)).currentTime
  · rw [finish_flags, datapath_flags]
    exact valid

/-- Settles O46: one block and its two parts agree with the datapath on them, which may be cut. -/
theorem splittingABlockChangesNoResult : Obligations.SplittingABlockChangesNoResult := by
  unfold Obligations.SplittingABlockChangesNoResult
  intro ts us xs ys s hxs hys valid finite
  have hfinite := (sampleFinite_all (xs ++ ys)).2 finite
  obtain ⟨hfx, hfy⟩ : xs.all sampleFinite = true ∧ ys.all sampleFinite = true := by
    simpa only [List.all_append, Bool.and_eq_true] using hfinite
  obtain ⟨whole, hwhole, hw, -, -⟩ :=
    exec_receiveBlock_agree ts (List.append_ne_nil_of_left_ne_nil hxs ys) valid hfinite
  obtain ⟨part, hpart, hp, -, hvalid⟩ := exec_receiveBlock_agree ts hxs valid hfx
  obtain ⟨both, hboth, hb, htime, -⟩ := exec_receiveBlock_agree us hys hvalid hfy
  have hagree : Agree whole both :=
    hw.symm.trans ((agree_datapath_append xs ys s).trans ((hp.datapath ys).trans hb))
  have hports : SameResults both.trace whole.trace := hagree.results.symm
  refine ⟨whole, part, both, hwhole, hpart, hboth, ?_, hports.tapPort_eq, hports.bufPort_eq,
    hports.eventPort_eq, hports.framerPort_eq⟩
  rw [← htime]
  exact hagree.state

end Sys2Proof.Machine
end
